-- ==== Sys2Proof/Word.lean ====
section
/-! DEFINITION. The word types and the vocabulary of the wire: bytes, sub-operations of the transport, slots. -/

namespace Sys2Proof

/-- A byte (`u8`), the unit of the model (R7). -/
abbrev Byte := BitVec 8

/-- The eight catalog registers, by the names of the table of R28. -/
inductive Reg where
  | devId | eui64 | sysCfg | txFctrl | sysStatus | rxFinfo | txBuffer | rxBuffer
deriving DecidableEq, Repr

/-- The seven named status flags (R25). -/
inductive Flag where
  | txfrs | rxfr | rxfcg | rxfce | rxphe | rxpto | rxsfdto
deriving DecidableEq, Repr

/-- A sub-operation of the transport capability (R36). The block's own transactions use `write` and `read` only;
`transfer` (a duplex exchange of `max readLen |bytes|` slots), `transferInPlace` and `delay` are offered by the
capability and never used by this block. -/
inductive SubOp where
  | write (bytes : List Byte)
  | read (n : Nat)
  | transfer (readLen : Nat) (bytes : List Byte)
  | transferInPlace (bytes : List Byte)
  | delay (us : Nat)
deriving DecidableEq, Repr

/-- One byte position of a transaction, as the device sees it: a `Write` slot carrying a byte, a `Read` slot, or a
slot of a duplex sub-operation, which is neither (log entry 16). -/
inductive Slot where
  | write (b : Byte)
  | read
  | duplex (b : Byte)
deriving DecidableEq, Repr

end Sys2Proof
end

