-- ==== Sys2Proof/Config.lean ====
section
/-! DEFINITION. What an implementation fixes (the open parameters of R9 to R11) as one record, and the free values. -/

namespace Sys2Proof

/-- The address part of a register descriptor: `file_id` fits 5 bits, `sub_address` fits 7 bits (R11). -/
structure RegAddr where
  fileId : BitVec 5
  subAddress : BitVec 7
deriving DecidableEq, Repr

/-- The parameter `REGMAP` (R85, D2): the address of each of the eight catalog registers. The lengths are not open:
they are `Machine.regLength`. -/
structure RegMap where
  devId : RegAddr
  eui64 : RegAddr
  sysCfg : RegAddr
  txFctrl : RegAddr
  sysStatus : RegAddr
  rxFinfo : RegAddr
  txBuffer : RegAddr
  rxBuffer : RegAddr
deriving DecidableEq, Repr

/-- The parameter `FLAGPOS` (R27, D3): the bit position of each status flag, 0 to 31. -/
structure FlagPos where
  txfrs : Fin 32
  rxfr : Fin 32
  rxfcg : Fin 32
  rxfce : Fin 32
  rxphe : Fin 32
  rxpto : Fin 32
  rxsfdto : Fin 32
deriving DecidableEq, Repr

/-- The record `CMD` (R10, D4): the five fast-command codes. -/
structure Cmd where
  tx : BitVec 5
  rx : BitVec 5
  idle : BitVec 5
  drxdb : BitVec 5
  clrirq : BitVec 5
deriving DecidableEq, Repr

/-- The parameter `CLEAR_WRITE_VALUE` (R177, D21): which value `recv` writes to clear flags. -/
inductive ClearWrite where
  | observed
  | constant
deriving DecidableEq, Repr

/-- The configuration record that R10 asks for. A machine carries one in its state, where no step changes it. -/
structure Config where
  regmap : RegMap
  flagpos : FlagPos
  cmd : Cmd
  devIdValue : BitVec 32
  clearWrite : ClearWrite
deriving DecidableEq, Repr

/-- The free value of the `k`-th draw of a word, where the state's own supply of draws is used up (log entry 2). -/
opaque Config.freeWord : Nat → BitVec 32

/-- The free value of byte `a` of what draw `k` left unspecified: a byte of `RX_BUFFER` no frame has written, or a byte
of the read buffer of a failed transaction (R80, R200, R205; log entry 2). -/
opaque Config.freeByte : Nat → Nat → Byte

/-- The value of byte `a` of `TX_BUFFER` at reset: a draw (R50; log entry 1). -/
opaque Config.resetTxByte : Nat → Byte

/-- The value of `EUI_64` at reset: a draw (R50; log entry 1). -/
opaque Config.resetEui64 : BitVec 64

/-- The value of `SYS_CFG` at reset: a draw (R50; log entry 1). -/
opaque Config.resetSysCfg : BitVec 32

/-- The value of `TX_FCTRL` at reset: a draw (R50; log entry 1). -/
opaque Config.resetTxFctrl : BitVec 32

/-- The value of `RX_FINFO` at reset: a draw (R50; log entry 1). -/
opaque Config.resetRxFinfo : BitVec 32

/-- The value of each status flag at reset: a draw, each flag independently (R50; log entry 1). -/
opaque Config.resetFlag : Flag → Bool

end Sys2Proof
end

