-- ==== Sys2Proof/Machine/Params.lean ====
section
/-! DEFINITION. The parameters the spec states (R9's table), the catalog (R28) and the default instance of the open ones. -/

namespace Sys2Proof.Machine

/-- Byte length of each catalog register (R28). -/
def regLength : Reg → Nat
  | .devId => 4
  | .eui64 => 8
  | .sysCfg => 4
  | .txFctrl => 4
  | .sysStatus => 4
  | .rxFinfo => 4
  | .txBuffer => 1024
  | .rxBuffer => 1024

/-- The register may be read by a transaction (R28: all but the write-only `TX_BUFFER`). -/
def readable : Reg → Bool
  | .txBuffer => false
  | _ => true

/-- The register may be written by a transaction (R28: all but `DEV_ID`, `RX_FINFO` and `RX_BUFFER`). -/
def writable : Reg → Bool
  | .devId => false
  | .rxFinfo => false
  | .rxBuffer => false
  | _ => true

/-- The register's access right allows the direction `wr` (true: a write) (R28, R111). -/
def accessAllowed (r : Reg) (wr : Bool) : Bool :=
  if wr then writable r else readable r

/-- The eight registers of the catalog (R28). -/
def allRegs : List Reg :=
  [.devId, .eui64, .sysCfg, .txFctrl, .sysStatus, .rxFinfo, .txBuffer, .rxBuffer]

/-- The address of a catalog register under a configuration (R85). -/
def regAddr (cfg : Config) : Reg → RegAddr
  | .devId => cfg.regmap.devId
  | .eui64 => cfg.regmap.eui64
  | .sysCfg => cfg.regmap.sysCfg
  | .txFctrl => cfg.regmap.txFctrl
  | .sysStatus => cfg.regmap.sysStatus
  | .rxFinfo => cfg.regmap.rxFinfo
  | .txBuffer => cfg.regmap.txBuffer
  | .rxBuffer => cfg.regmap.rxBuffer

/-- The register whose address is exactly the pair, if any (R78 (a), R111). -/
def catalogLookup (cfg : Config) (fid : BitVec 5) (sub : BitVec 7) : Option Reg :=
  allRegs.find? fun r => decide (regAddr cfg r = ⟨fid, sub⟩)

/-- The seven flags (R25). -/
def allFlags : List Flag :=
  [.txfrs, .rxfr, .rxfcg, .rxfce, .rxphe, .rxpto, .rxsfdto]

/-- The bit position of a flag in `SYS_STATUS` (R27). -/
def flagPosition (cfg : Config) : Flag → Nat
  | .txfrs => cfg.flagpos.txfrs.val
  | .rxfr => cfg.flagpos.rxfr.val
  | .rxfcg => cfg.flagpos.rxfcg.val
  | .rxfce => cfg.flagpos.rxfce.val
  | .rxphe => cfg.flagpos.rxphe.val
  | .rxpto => cfg.flagpos.rxpto.val
  | .rxsfdto => cfg.flagpos.rxsfdto.val

/-- `BUF_CAP`: the capacity of each buffer in bytes. -/
def bufCap : Nat := 1024

/-- `SEND_POLL_BOUND`: status polls of `send` before `Timeout` (R230). -/
def sendPollBound : Nat := 10000

/-- `T_POWERUP` in milliseconds (R222 line 1). -/
def tPowerupMs : Nat := 5

/-- `T_IDLE_SETTLE` in milliseconds (R222 line 3). -/
def tIdleSettleMs : Nat := 1

/-- The default `REGMAP` (R85). PRESUMED by the spec itself (log entry 3). -/
def defaultRegMap : RegMap where
  devId := ⟨0x00, 0x00⟩
  eui64 := ⟨0x00, 0x04⟩
  sysCfg := ⟨0x00, 0x10⟩
  txFctrl := ⟨0x00, 0x24⟩
  sysStatus := ⟨0x00, 0x44⟩
  rxFinfo := ⟨0x00, 0x4C⟩
  txBuffer := ⟨0x14, 0x00⟩
  rxBuffer := ⟨0x12, 0x00⟩

/-- The default `FLAGPOS` (D3). PRESUMED by the spec itself (log entry 3). -/
def defaultFlagPos : FlagPos where
  txfrs := 7
  rxphe := 12
  rxfr := 13
  rxfcg := 14
  rxfce := 15
  rxpto := 21
  rxsfdto := 26

/-- The codes of `CMD` (R108). -/
def defaultCmd : Cmd where
  tx := 0x01
  rx := 0x02
  idle := 0x03
  drxdb := 0x04
  clrirq := 0x0E

/-- The default instance of the open parameters (92_eei_decisions.md, last table; log entry 3). -/
def defaultConfig : Config where
  regmap := defaultRegMap
  flagpos := defaultFlagPos
  cmd := defaultCmd
  devIdValue := 0xDECA0302
  clearWrite := .observed

end Sys2Proof.Machine
end

