-- ==== Sys2Proof/Machine/Operands.lean ====
section
/-! DEFINITION. Operand forms: byte order, partial accesses and the frame-length arithmetic. -/

namespace Sys2Proof.Machine

/-- `le32(v)`: the four bytes of a 32-bit value, low byte first (R75). -/
def le32 (v : BitVec 32) : List Byte :=
  [v.extractLsb' 0 8, v.extractLsb' 8 8, v.extractLsb' 16 8, v.extractLsb' 24 8]

/-- `unle32` of the first four bytes; a byte that is not there counts as 0 (R132, R172). -/
def unle32 (b : List Byte) : BitVec 32 :=
  (b.getD 0 0).setWidth 32 ||| ((b.getD 1 0).setWidth 32 <<< 8) |||
    ((b.getD 2 0).setWidth 32 <<< 16) ||| ((b.getD 3 0).setWidth 32 <<< 24)

/-- The eight bytes of `EUI_64`, byte 0 first. The register is held as 64 bits with byte `k` at bits `8k+7:8k`; the
spec gives it no numeric reading (R30). -/
def euiBytes (v : BitVec 64) : List Byte :=
  [v.extractLsb' 0 8, v.extractLsb' 8 8, v.extractLsb' 16 8, v.extractLsb' 24 8,
   v.extractLsb' 32 8, v.extractLsb' 40 8, v.extractLsb' 48 8, v.extractLsb' 56 8]

/-- `EUI_64` from its eight bytes, byte 0 first. -/
def euiOfBytes (b : List Byte) : BitVec 64 :=
  (b.getD 0 0).setWidth 64 ||| ((b.getD 1 0).setWidth 64 <<< 8) |||
    ((b.getD 2 0).setWidth 64 <<< 16) ||| ((b.getD 3 0).setWidth 64 <<< 24) |||
    ((b.getD 4 0).setWidth 64 <<< 32) ||| ((b.getD 5 0).setWidth 64 <<< 40) |||
    ((b.getD 6 0).setWidth 64 <<< 48) ||| ((b.getD 7 0).setWidth 64 <<< 56)

/-- Bytes `0..|data|-1` replaced by `data`, the rest unchanged (R131). -/
def patch (old data : List Byte) : List Byte :=
  data ++ old.drop data.length

/-- The bytes `f start, …, f (start + n - 1)`. -/
def bytesFrom (f : Nat → Byte) : Nat → Nat → List Byte
  | _, 0 => []
  | start, n + 1 => f start :: bytesFrom f (start + 1) n

/-- `TXFLEN` or `RXFLEN`: bits 9:0 of a length register (R32, R34). -/
def frameLength (v : BitVec 32) : BitVec 10 := v.extractLsb' 0 10

/-- Transmit length arithmetic: `(|data| + 2) & 0x3FF` (R191). -/
def txLength (dataLen : Nat) : BitVec 10 := BitVec.ofNat 10 (dataLen + 2)

/-- Receive length arithmetic: `L -sat 2` (R192). -/
def payloadLength (l : BitVec 10) : Nat := l.toNat - 2

end Sys2Proof.Machine
end

