-- ==== Sys2Proof/Syntax.lean ====
section
/-! DEFINITION. The instructions: one constructor per row of spec/opcode_table.json. -/

namespace Sys2Proof

/-- An instruction of the block is one chip-select-framed transaction. The ten rows with a meaning are the primitive
transactions, the five named fast commands and the two 32-bit wrappers (R120, R121); the six `RESERVED` rows are the
encodings the device is given no meaning for (R114 to R116). -/
inductive Instr where
  /-- `RD reg, n` (R130). -/
  | rd (reg : Reg) (n : Nat)
  /-- `WR reg, data` (R131). -/
  | wr (reg : Reg) (data : List Byte)
  /-- `FC code` (R150); only `code & 0x1F` is sent. -/
  | fc (code : Nat)
  /-- `FC.TX` (R153). -/
  | fcTx
  /-- `FC.RX` (R154). -/
  | fcRx
  /-- `FC.IDLE` (R155). -/
  | fcIdle
  /-- `FC.DRXDB` (R156). -/
  | fcDrxdb
  /-- `FC.CLRIRQ` (R157). -/
  | fcClrirq
  /-- `RDU32 reg` (R132). -/
  | rdu32 (reg : Reg)
  /-- `WRU32 reg, v` (R133). -/
  | wru32 (reg : Reg) (v : BitVec 32)
  /-- A full-addressed header with mode 1 (R115). -/
  | reservedFaMode1 (wr : Bool) (fid : BitVec 5) (sub : BitVec 7)
  /-- A full-addressed header with mode 2 (R115). -/
  | reservedFaMode2 (wr : Bool) (fid : BitVec 5) (sub : BitVec 7)
  /-- A full-addressed header with mode 3 (R115). -/
  | reservedFaMode3 (wr : Bool) (fid : BitVec 5) (sub : BitVec 7)
  /-- A first byte `00------`, with its low six bits (R114). -/
  | reservedB000 (low : BitVec 6)
  /-- A first byte `10-----0`, with its bits 5:1 (R114). -/
  | reservedB010x0 (mid : BitVec 5)
  /-- A fast-command byte whose code is not assigned (R116). -/
  | reservedFcUnassigned (code : BitVec 5)
deriving DecidableEq, Repr

end Sys2Proof
end

