-- ==== Sys2Proof/Decode.lean ====
section
/-! DEFINITION. The encoders of R103 and R106, the decoder of R108 to R117 on any sequence of slots, and the word form
of spec/opcode_table.json. -/

namespace Sys2Proof

open Sys2Proof.Machine

/-- `byte0` of the header (R103), with the masks of the formula, total on naturals. -/
def headerByte0 (fileId subAddress : Nat) (wr : Bool) : Byte :=
  BitVec.ofNat 8 ((wr.toNat <<< 7) ||| (1 <<< 6) ||| ((fileId &&& 0x1F) <<< 1) ||| ((subAddress >>> 6) &&& 0x1))

/-- `byte1` of the header (R103); its low two bits are the mode, 0. -/
def headerByte1 (subAddress : Nat) : Byte :=
  BitVec.ofNat 8 ((subAddress &&& 0x3F) <<< 2)

/-- The fast-command byte (R106), total on naturals. -/
def fcByte (code : Nat) : Byte :=
  BitVec.ofNat 8 ((1 <<< 7) ||| ((code &&& 0x1F) <<< 1) ||| 1)

/-- Field `W` of `byte0` (R104). -/
def hdrWr (b0 : Byte) : Bool := b0.getLsbD 7

/-- Bit 6 of the first byte: a second header byte follows (R119). -/
def hdrFull (b0 : Byte) : Bool := b0.getLsbD 6

/-- Field `FID` of `byte0` (R104). -/
def hdrFid (b0 : Byte) : BitVec 5 := b0.extractLsb' 1 5

/-- Bit 6 of `sub_address`, from `byte0` (R104). -/
def hdrSubHigh (b0 : Byte) : BitVec 1 := b0.extractLsb' 0 1

/-- Bits 5:0 of `sub_address`, from `byte1` (R104). -/
def hdrSubLow (b1 : Byte) : BitVec 6 := b1.extractLsb' 2 6

/-- `sub_address` from its two parts: `(byte0[0] << 6) | byte1[7:2]` (R104). -/
def joinSub (high : BitVec 1) (low : BitVec 6) : BitVec 7 :=
  (high.setWidth 7 <<< 6) ||| low.setWidth 7

/-- Field `MODE` of `byte1` (R104). -/
def hdrMode (b1 : Byte) : BitVec 2 := b1.extractLsb' 0 2

/-- The code of a fast-command byte (R106). -/
def fcCode (b0 : Byte) : BitVec 5 := b0.extractLsb' 1 5

/-- The first byte is of the form `1 0 ccccc 1` (R108). -/
def isFastByte (b0 : Byte) : Bool := !hdrFull b0 && b0.getLsbD 7 && b0.getLsbD 0

/-- The header of a catalog register in a direction, as the bytes sent (R103, R76). -/
def regHeader (cfg : Config) (r : Reg) (wr : Bool) : List Byte :=
  [headerByte0 (regAddr cfg r).fileId.toNat (regAddr cfg r).subAddress.toNat wr,
   headerByte1 (regAddr cfg r).subAddress.toNat]

/-- A reserved full-addressed header: the two bytes with `mode` in the low bits of the second (R115). -/
def reservedHeader (wr : Bool) (fid : BitVec 5) (sub : BitVec 7) (mode : Nat) : List Byte :=
  [headerByte0 fid.toNat sub.toNat wr, headerByte1 sub.toNat ||| BitVec.ofNat 8 mode]

/-- The first byte `00------` (R114). -/
def reservedByte00 (low : BitVec 6) : Byte := low.setWidth 8

/-- The first byte `10-----0` (R114). -/
def reservedByte10 (mid : BitVec 5) : Byte := 0x80 ||| (mid.setWidth 8 <<< 1)

/-- The encoder: the sub-operations that carry an instruction (R120, R121). -/
def encode (cfg : Config) : Instr → List SubOp
  | .rd reg n => [.write (regHeader cfg reg false), .read n]
  | .wr reg data => [.write (regHeader cfg reg true), .write data]
  | .fc code => [.write [fcByte code]]
  | .fcTx => [.write [fcByte cfg.cmd.tx.toNat]]
  | .fcRx => [.write [fcByte cfg.cmd.rx.toNat]]
  | .fcIdle => [.write [fcByte cfg.cmd.idle.toNat]]
  | .fcDrxdb => [.write [fcByte cfg.cmd.drxdb.toNat]]
  | .fcClrirq => [.write [fcByte cfg.cmd.clrirq.toNat]]
  | .rdu32 reg => [.write (regHeader cfg reg false), .read 4]
  | .wru32 reg v => [.write (regHeader cfg reg true), .write (le32 v)]
  | .reservedFaMode1 wr fid sub => [.write (reservedHeader wr fid sub 1)]
  | .reservedFaMode2 wr fid sub => [.write (reservedHeader wr fid sub 2)]
  | .reservedFaMode3 wr fid sub => [.write (reservedHeader wr fid sub 3)]
  | .reservedB000 low => [.write [reservedByte00 low]]
  | .reservedB010x0 mid => [.write [reservedByte10 mid]]
  | .reservedFcUnassigned code => [.write [fcByte code.toNat]]

/-- The slots of the longer side of a duplex sub-operation; where `bytes` has run out the driven byte is 0. -/
def duplexSlots : Nat → List Byte → List Slot
  | 0, bytes => bytes.map .duplex
  | n + 1, [] => .duplex 0 :: duplexSlots n []
  | n + 1, b :: bytes => .duplex b :: duplexSlots n bytes

/-- The slots of one sub-operation (R7, R80). A `delay` has none. -/
def subOpSlots : SubOp → List Slot
  | .write bytes => bytes.map .write
  | .read n => List.replicate n .read
  | .transfer n bytes => duplexSlots n bytes
  | .transferInPlace bytes => bytes.map .duplex
  | .delay _ => []

/-- The slots of a transaction, in order, inside one chip-select assertion (R80). -/
def expand : List SubOp → List Slot
  | [] => []
  | o :: os => subOpSlots o ++ expand os

/-- Why a sequence of slots is no instruction of the table. -/
inductive Malformed where
  /-- The header names no catalog register (R78 (a)). -/
  | notInCatalog
  /-- A slot of the wrong direction (R117). -/
  | slotDirection
  /-- A slot after a fast-command byte (R117). -/
  | slotAfterFast
deriving DecidableEq, Repr

/-- What the decoder makes of a sequence of slots. -/
inductive Decoded where
  /-- An instruction of the table. -/
  | instr (i : Instr)
  /-- Chip-select rose inside the header: no effect, not a refusal (R113). -/
  | incomplete
  /-- A malformed shape, by name (R117). -/
  | bad (why : Malformed)
deriving DecidableEq, Repr

/-- All slots are `Write` slots: their bytes. -/
def writeBytes : List Slot → Option (List Byte)
  | [] => some []
  | .write b :: xs => (writeBytes xs).map (b :: ·)
  | .read :: _ => none
  | .duplex _ :: _ => none

/-- All slots are `Read` slots: how many. -/
def readCount : List Slot → Option Nat
  | [] => some 0
  | .read :: xs => (readCount xs).map (· + 1)
  | .write _ :: _ => none
  | .duplex _ :: _ => none

/-- The instruction of a fast-command code (R108): one of the five, or the unassigned row (R116). -/
def fastInstr (cfg : Config) (code : BitVec 5) : Instr :=
  if code = cfg.cmd.tx then .fcTx
  else if code = cfg.cmd.rx then .fcRx
  else if code = cfg.cmd.idle then .fcIdle
  else if code = cfg.cmd.drxdb then .fcDrxdb
  else if code = cfg.cmd.clrirq then .fcClrirq
  else .reservedFcUnassigned code

/-- The instruction of a complete header in standard mode and its data phase (R108, R111, R112). -/
def decodeBody (cfg : Config) (wr : Bool) (fid : BitVec 5) (sub : BitVec 7) (body : List Slot) : Decoded :=
  match catalogLookup cfg fid sub with
  | none => .bad .notInCatalog
  | some r =>
    match wr with
    | true =>
      match writeBytes body with
      | some data => .instr (.wr r data)
      | none => .bad .slotDirection
    | false =>
      match readCount body with
      | some n => .instr (.rd r n)
      | none => .bad .slotDirection

/-- The second header byte (R111, R115). -/
def decodeFull (cfg : Config) (b0 b1 : Byte) (body : List Slot) : Decoded :=
  let sub := joinSub (hdrSubHigh b0) (hdrSubLow b1)
  if hdrMode b1 = 0 then decodeBody cfg (hdrWr b0) (hdrFid b0) sub body
  else if hdrMode b1 = 1 then .instr (.reservedFaMode1 (hdrWr b0) (hdrFid b0) sub)
  else if hdrMode b1 = 2 then .instr (.reservedFaMode2 (hdrWr b0) (hdrFid b0) sub)
  else .instr (.reservedFaMode3 (hdrWr b0) (hdrFid b0) sub)

/-- The slots after the first byte. -/
def decodeRest (cfg : Config) (b0 : Byte) : List Slot → Decoded
  | [] =>
    if hdrFull b0 then .incomplete
    else if isFastByte b0 then .instr (fastInstr cfg (fcCode b0))
    else if b0.getLsbD 7 then .instr (.reservedB010x0 (b0.extractLsb' 1 5))
    else .instr (.reservedB000 (b0.extractLsb' 0 6))
  | x :: body =>
    if hdrFull b0 then
      match x with
      | .write b1 => decodeFull cfg b0 b1 body
      | .read => .bad .slotDirection
      | .duplex _ => .bad .slotDirection
    else if isFastByte b0 then .bad .slotAfterFast
    else if b0.getLsbD 7 then .instr (.reservedB010x0 (b0.extractLsb' 1 5))
    else .instr (.reservedB000 (b0.extractLsb' 0 6))

/-- The decoder, total on any sequence of slots (R108, R110 to R113). -/
def decode (cfg : Config) : List Slot → Decoded
  | [] => .incomplete
  | .write b0 :: xs => decodeRest cfg b0 xs
  | .read :: _ => .bad .slotDirection
  | .duplex _ :: _ => .bad .slotDirection

/-- What the wire form of an instruction decodes to: a wrapper is the transaction it expands to (R121), `FC code` the
row of its code (R108), every other instruction itself. -/
def wireInstr (cfg : Config) : Instr → Instr
  | .rdu32 reg => .rd reg 4
  | .wru32 reg v => .wr reg (le32 v)
  | .fc code => fastInstr cfg (BitVec.ofNat 5 code)
  | .rd reg n => .rd reg n
  | .wr reg data => .wr reg data
  | .fcTx => .fcTx
  | .fcRx => .fcRx
  | .fcIdle => .fcIdle
  | .fcDrxdb => .fcDrxdb
  | .fcClrirq => .fcClrirq
  | .reservedFaMode1 wr fid sub => .reservedFaMode1 wr fid sub
  | .reservedFaMode2 wr fid sub => .reservedFaMode2 wr fid sub
  | .reservedFaMode3 wr fid sub => .reservedFaMode3 wr fid sub
  | .reservedB000 low => .reservedB000 low
  | .reservedB010x0 mid => .reservedB010x0 mid
  | .reservedFcUnassigned code => .reservedFcUnassigned code

/-- The `k` bytes of a row's bits, first byte on the wire first. The table's 16-bit word has `byte0` in its high byte
(R101, R109). -/
def wordBytes : Nat → Nat → List Byte
  | 0, _ => []
  | k + 1, w => BitVec.ofNat 8 (w >>> (8 * k)) :: wordBytes k w

/-- The instruction the decoder reads from a row's bits, as one run of written bytes, under the default parameters. -/
def decodeTableWord (nbits w : Nat) : Option Instr :=
  match decode defaultConfig ((wordBytes ((nbits + 7) / 8) w).map .write) with
  | .instr i => some i
  | .incomplete => none
  | .bad _ => none

end Sys2Proof
end

