-- ==== Sys2Proof/Machine/State.lean ====
section
/-! DEFINITION. The state of the machine, per agent (R8): HOST, TRANSPORT, DEVICE, and the inputs and instruments. -/

namespace Sys2Proof.Machine

/-- The model has no fault: no behaviour of this block is treated as one (93_implementation_defined.md), and every
error the block knows is a result value, which is a next state (R260, R276). So no constructor, and no step faults. -/
inductive Fault : Type
deriving DecidableEq, Repr

/-- Why a step has no meaning. Every constructor is safe: the model stops where it gives no effect. -/
inductive Refusal where
  /-- An instruction without a meaning yet. No arm of `exec` answers it. Safe. -/
  | notModelled (mnemonic : String)
  /-- A first byte of no defined class (R114). Raised by the device's slot 0 and by the two `RESERVED.B0` rows. Safe. -/
  | reservedFirstByte
  /-- A full-addressed header whose mode is not 0 (R115). Raised by the device's slot 1 and by the `RESERVED.FA`
  rows. Safe. -/
  | reservedMode
  /-- A delivered fast command whose code is not one of the five (R116). Raised by the device when it commits the
  command and by the `RESERVED.FC.UNASSIGNED` row. Safe. -/
  | unassignedCode
  /-- A delivered `FC.DRXDB` (R156). Raised by the device when it commits the command. Safe. -/
  | delayedDoubleBufferedRx
  /-- A header that names no catalog register (R78 (a)). Raised by the device's slot 1. Safe. -/
  | notInCatalog
  /-- A direction the register's access right does not allow (R111). Raised by the device's slot 1. Safe. -/
  | accessRight
  /-- A data phase longer than the register (R78 (b), R112). Raised by a data slot of the device. Safe. -/
  | dataTooLong
  /-- A slot of the wrong direction (R117). Raised by any slot of the device. Safe. -/
  | slotDirection
  /-- A slot after the byte of a fast command (R113, R117). Raised by the device. Safe. -/
  | slotAfterFast
  /-- A driver operation, or a transaction by itself, called in a lifecycle state that does not allow it (R275, R301).
  Raised when HOST takes the call. Safe. -/
  | opNotAllowed
deriving DecidableEq, Repr

/-- The lifecycle tag of the handle (R40). -/
inductive Lifecycle where
  | uninitialized | ready | consumed
deriving DecidableEq, Repr

/-- The hidden transceiver mode (R45). -/
inductive Trx where
  | idle | tx | rx | unknown
deriving DecidableEq, Repr

/-- The sequencer position (R23): which operation, and which numbered line of it (R222, R230, R240, R250). -/
inductive Pos where
  /-- No operation running. -/
  | idle
  /-- `init` lines 1 to 8 (R222). -/
  | init1 | init2 | init3 | init4 | init5 | init6 | init7 | init8
  /-- `send` steps 1 to 5 (R230); `send4` is the loop test and the poll, `send4Clear` the clearing write. -/
  | send1 | send2 | send3 | send4 | send4Clear | send5
  /-- `recv` steps 1 to 3 (R240); `recv2` is the loop test and the poll, `recv2Info`, `recv2Data`, `recv2Clear` the
  good path, `recv2ErrClear`, `recv2Enable` the error path. -/
  | recv1 | recv2 | recv2Info | recv2Data | recv2Clear | recv2ErrClear | recv2Enable | recv3
  /-- `force_idle` step 1 (R250). -/
  | forceIdle1
deriving DecidableEq, Repr

/-- The three error kinds (R260). The transport's own error value is opaque; a natural stands for it (log entry 12). -/
inductive Err where
  | transport (e : Nat)
  | unexpectedDeviceId
  | timeout
deriving DecidableEq, Repr

/-- The result of a driver operation: `Ok`, `Ok(n)` of `recv`, or an error. -/
inductive OpResult where
  | ok
  | count (n : Nat)
  | error (e : Err)
deriving DecidableEq, Repr

/-- How the last transaction ended: success, the transport's one error value (R80), or abandoned inside (R252). -/
inductive XRet where
  | ok
  | error (e : Nat)
  | abandoned
deriving DecidableEq, Repr

/-- What TRANSPORT will do with the next transaction: carry it whole, fail after delivering some slots (R84), or be
abandoned after delivering some slots (R252). -/
inductive Plan where
  | ok
  | fail (delivered : Nat) (e : Nat)
  | cut (delivered : Nat)
deriving DecidableEq, Repr

/-- A RADIO event (R203 to R208); `rxGood` carries the frame length and the payload. -/
inductive RadioEvent where
  | txDone
  | rxGood (len : BitVec 10) (bytes : List Byte)
  | rxFcsError
  | rxPhyHeaderError
  | rxPreambleTimeout
  | rxSfdTimeout
deriving DecidableEq, Repr

/-- A call HOST's caller makes: a driver operation, a transaction of the protocol layer by itself, or a raw
transaction of sub-operations (the last two: log entry 28). -/
inductive Call where
  | newHandle
  | init
  | send (data : List Byte)
  | recv (outBuffer : List Byte) (maxPolls : Nat)
  | forceIdle
  | instr (i : Instr)
  | wire (subops : List SubOp)
deriving DecidableEq, Repr

/-- Who takes the next step (R8, R9): HOST with what TRANSPORT does to its transaction, RADIO with an event, or the
caller's task, which abandons the operation (R252). -/
inductive Turn where
  | host (plan : Plan)
  | radio (ev : RadioEvent)
  | abandon
deriving DecidableEq, Repr

/-- The event history (R43). -/
inductive HistEvent where
  | xact (subops : List SubOp) (sent got : List Byte) (ret : XRet)
  | delay (ms : Nat)
  | radio (ev : RadioEvent)
  | airTx (bytes : List Byte)
deriving DecidableEq, Repr

/-- A message of the diagnostic log (R253): the identity on a successful `init`, the warning of a failed `send`. -/
inductive Diag where
  | deviceIdentity (id : BitVec 32)
  | transmitFailure
deriving DecidableEq, Repr

/-- The seven named flags as the device holds them (R25); the other 25 bits of `SYS_STATUS` have no stored value (R33). -/
structure Flags where
  txfrs : Bool
  rxfr : Bool
  rxfcg : Bool
  rxfce : Bool
  rxphe : Bool
  rxpto : Bool
  rxsfdto : Bool
deriving DecidableEq, Repr

/-- The memory of a buffer: the bytes that have been written, addresses strictly rising. An unlisted address holds no
written byte and reads as the free value of the draw that left it open (log entry 1). -/
abbrev Memory := List Host.Cell

/-- HOST working registers (R20), the caller buffers (R42) and what the last transaction returned. While no operation
runs the fields of the registers keep what they held (DESIGN CHOICE, unsafe: log entry 30). -/
structure HostRegs where
  hdr0 : Byte
  hdr1 : Byte
  cmd : Byte
  id : BitVec 32
  polls : Nat
  bound : Nat
  s : BitVec 32
  f : BitVec 32
  len : BitVec 10
  p : Nat
  n : Nat
  /-- `data` of `send`. -/
  data : List Byte
  /-- `outBuffer` of `recv`. -/
  outBuffer : List Byte
  /-- The read buffer of the last transaction (R80). -/
  rbytes : List Byte
  /-- The value the last `RDU32` returned (R132). -/
  rval : BitVec 32
deriving DecidableEq, Repr

/-- The level of chip-select (R37). -/
inductive Level where
  | high | low
deriving DecidableEq, Repr

/-- The transaction in flight: its sub-operations and how far it has got (R37). -/
structure Flight where
  subops : List SubOp
  slotsDone : Nat
deriving DecidableEq, Repr

/-- TRANSPORT (R37), with its plan for the next transaction and what the last one returned (`ok` at reset, before any
has been made: DESIGN CHOICE, log entry 6). -/
structure Bus where
  cs : Level
  flight : Option Flight
  plan : Plan
  ret : XRet
deriving DecidableEq, Repr

/-- `d.phase` (R21); a rejection carries the reason the model will give. -/
inductive Phase where
  | idle | hdr0 | hdr1 | data | fast
  | reject (why : Refusal)
deriving DecidableEq, Repr

/-- DEVICE decoder latches (R21). -/
structure Decoder where
  phase : Phase
  wr : Bool
  fid : BitVec 5
  sub : BitVec 7
  mode : BitVec 2
  code : BitVec 5
  reg : Option Reg
  offset : Nat
  stage : List Byte
  snap : List Byte
deriving DecidableEq, Repr

/-- DEVICE registers, buffers and hidden mode (R28 to R35, R45). `DEV_ID` is the constant of the configuration (R29). -/
structure Device where
  eui64 : BitVec 64
  sysCfg : BitVec 32
  txFctrl : BitVec 32
  flags : Flags
  rxFinfo : BitVec 32
  txBuffer : Memory
  rxBuffer : Memory
  /-- The draw that the unlisted bytes of `RX_BUFFER` read (R200, R205). The model's own field. -/
  rxDraw : Nat
  trx : Trx
deriving DecidableEq, Repr

/-- The whole machine. -/
structure State where
  /-- The parameters (R10), which no step changes. -/
  cfg : Config
  lifecycle : Lifecycle
  pos : Pos
  regs : HostRegs
  /-- The result of the last driver operation, `none` while one runs. -/
  result : Option OpResult
  bus : Bus
  dec : Decoder
  dev : Device
  /-- The instruments (R43, R44), oldest entry first. -/
  history : List HistEvent
  diag : List Diag
  /-- The inputs: the calls to come, and whose turn it is; with none listed HOST moves. -/
  calls : List Call
  turns : List Turn
  /-- The values of the coming draws; used up, a draw is `Config.freeWord` of the counter (log entry 2). -/
  drawPool : List (BitVec 32)
  drawCtr : Nat
deriving DecidableEq, Repr

/-- The working registers at reset. They exist only while an operation runs and are written before they are read
(R20, R50); zero, by log entry 5. -/
def resetRegs : HostRegs where
  hdr0 := 0
  hdr1 := 0
  cmd := 0
  id := 0
  polls := 0
  bound := 0
  s := 0
  f := 0
  len := 0
  p := 0
  n := 0
  data := []
  outBuffer := []
  rbytes := []
  rval := 0

/-- The decoder latches at reset: phase `IDLE`, the others meaningless (R50); zero, by log entry 5. -/
def resetDecoder : Decoder where
  phase := .idle
  wr := false
  fid := 0
  sub := 0
  mode := 0
  code := 0
  reg := none
  offset := 0
  stage := []
  snap := []

/-- The device at reset: every register a draw, `trx = UNKNOWN` (R50; log entry 1). -/
def resetDevice : Device where
  eui64 := Config.resetEui64
  sysCfg := Config.resetSysCfg
  txFctrl := Config.resetTxFctrl
  flags :=
    { txfrs := Config.resetFlag .txfrs, rxfr := Config.resetFlag .rxfr, rxfcg := Config.resetFlag .rxfcg,
      rxfce := Config.resetFlag .rxfce, rxphe := Config.resetFlag .rxphe, rxpto := Config.resetFlag .rxpto,
      rxsfdto := Config.resetFlag .rxsfdto }
  rxFinfo := Config.resetRxFinfo
  txBuffer := []
  rxBuffer := []
  rxDraw := 0
  trx := .unknown

/-- The machine right after reset: powered, `new_handle` called, nothing in flight, no input (R50, R300). -/
def State.reset : State where
  cfg := defaultConfig
  lifecycle := .uninitialized
  pos := .idle
  regs := resetRegs
  result := none
  bus := { cs := .high, flight := none, plan := .ok, ret := .ok }
  dec := resetDecoder
  dev := resetDevice
  history := []
  diag := []
  calls := []
  turns := []
  drawPool := []
  drawCtr := 1

end Sys2Proof.Machine
end

