-- ==== Sys2Proof/Machine/Flags.lean ====
section
/-! DEFINITION. The status register: masks, the word a read returns, the test, the W1C write, the events' sets. -/

namespace Sys2Proof.Machine

/-- The value of a named flag. -/
def getFlag (fl : Flags) : Flag → Bool
  | .txfrs => fl.txfrs
  | .rxfr => fl.rxfr
  | .rxfcg => fl.rxfcg
  | .rxfce => fl.rxfce
  | .rxphe => fl.rxphe
  | .rxpto => fl.rxpto
  | .rxsfdto => fl.rxsfdto

/-- The flags with the value `v F` at each flag `F`. -/
def flagsOf (v : Flag → Bool) : Flags where
  txfrs := v .txfrs
  rxfr := v .rxfr
  rxfcg := v .rxfcg
  rxfce := v .rxfce
  rxphe := v .rxphe
  rxpto := v .rxpto
  rxsfdto := v .rxsfdto

/-- `M_F`, the mask of a flag (R27). -/
def flagMask (cfg : Config) (f : Flag) : BitVec 32 :=
  BitVec.twoPow 32 (flagPosition cfg f)

/-- The OR of the masks of the flags that satisfy `v`. -/
def flagBits (cfg : Config) (v : Flag → Bool) : List Flag → BitVec 32
  | [] => 0
  | f :: fs => (if v f then flagMask cfg f else 0) ||| flagBits cfg v fs

/-- `M_ALL`, the OR of the seven masks. -/
def allMask (cfg : Config) : BitVec 32 := flagBits cfg (fun _ => true) allFlags

/-- The word a read of `SYS_STATUS` samples: the seven flags at their positions, `free` in every other bit (R33, R170). -/
def statusWord (cfg : Config) (fl : Flags) (free : BitVec 32) : BitVec 32 :=
  flagBits cfg (getFlag fl) allFlags ||| (free &&& ~~~ allMask cfg)

/-- The host's test of a flag: `(s & M_F) != 0` (R171). -/
def testFlag (cfg : Config) (s : BitVec 32) (f : Flag) : Bool :=
  s &&& flagMask cfg f != 0

/-- The W1C write: `flags' = flags & ~w` (R172). -/
def clearFlags (cfg : Config) (fl : Flags) (w : BitVec 32) : Flags :=
  flagsOf fun f => getFlag fl f && !(w.getLsbD (flagPosition cfg f))

/-- An event's set of one flag (R175). -/
def setFlag (fl : Flags) (f : Flag) : Flags :=
  flagsOf fun g => getFlag fl g || decide (g = f)

/-- All seven flags 0 (R157). -/
def noFlags : Flags := flagsOf fun _ => false

/-- `clr(s, m)`: the value `recv` writes to clear the flags of the mask `m` (R177, R240). -/
def clearValue (cfg : Config) (s m : BitVec 32) : BitVec 32 :=
  match cfg.clearWrite with
  | .observed => s &&& m
  | .constant => m

end Sys2Proof.Machine
end

