-- ==== Sys2Proof/Machine/Ops.lean ====
section
/-! DEFINITION. The shared operations: buffer memory, draws, the device's decoder slot by slot, the commit, the
transaction primitive, raising an error and ending an operation. -/

namespace Sys2Proof.Machine

open Host (Outcome)

/-! ### Buffer memory (R71, R72) -/

/-- The byte written at an address, if any. -/
def memRead : Memory → Nat → Option Byte
  | [], _ => none
  | (k, b) :: m, a => if a = k then some b else memRead m a

/-- One byte written. -/
def memWrite : Memory → Nat → Byte → Memory
  | [], a, b => [(a, b)]
  | (k, c) :: m, a, b =>
    if a < k then (a, b) :: (k, c) :: m
    else if a = k then (a, b) :: m
    else (k, c) :: memWrite m a b

/-- Bytes written from an address up. -/
def memWriteBytes : Memory → Nat → List Byte → Memory
  | m, _, [] => m
  | m, a, b :: bs => memWriteBytes (memWrite m a b) (a + 1) bs

/-- The addresses rise strictly from `lo` and stay below the capacity. -/
def memWfFrom : Nat → Memory → Bool
  | _, [] => true
  | lo, (k, _) :: m => decide (lo ≤ k) && decide (k < bufCap) && memWfFrom (k + 1) m

/-- The canonical form of a buffer's memory. -/
def memWf (m : Memory) : Bool := memWfFrom 0 m

/-- Byte `a` of `TX_BUFFER`; an unlisted byte is still the draw of reset (R50, R71). -/
def txByte (d : Device) (a : Nat) : Byte :=
  (memRead d.txBuffer a).getD (Config.resetTxByte a)

/-- Byte `a` of `RX_BUFFER`; an unlisted byte is a draw (R50, R72, R200). -/
def rxByte (d : Device) (a : Nat) : Byte :=
  (memRead d.rxBuffer a).getD (Config.freeByte d.rxDraw a)

/-! ### Draws -/

/-- The value of the next draw. -/
def drawWord (s : State) : BitVec 32 :=
  match s.drawPool with
  | w :: _ => w
  | [] => Config.freeWord s.drawCtr

/-- The state after one draw. -/
def drawn (s : State) : State :=
  { s with drawPool := s.drawPool.tail, drawCtr := s.drawCtr + 1 }

/-! ### The device's decoder (R110 to R113) -/

/-- Slot 0 (R110). -/
def slot0 (d : Decoder) : Slot → Decoder
  | .write b0 =>
    if hdrFull b0 then
      { d with phase := .hdr1, wr := hdrWr b0, fid := hdrFid b0, sub := joinSub (hdrSubHigh b0) (d.sub.extractLsb' 0 6) }
    else if isFastByte b0 then { d with phase := .fast, code := fcCode b0 }
    else { d with phase := .reject .reservedFirstByte }
  | .read => { d with phase := .reject .slotDirection }
  | .duplex _ => { d with phase := .reject .slotDirection }

/-- Where slot 1 leads once the latches are written: the mode, the catalog, the access right (R111). -/
def headerPhase (cfg : Config) (d : Decoder) : Phase × Option Reg :=
  if d.mode ≠ 0 then (.reject .reservedMode, d.reg)
  else
    match catalogLookup cfg d.fid d.sub with
    | none => (.reject .notInCatalog, none)
    | some r => (if accessAllowed r d.wr then .data else .reject .accessRight, some r)

/-- Slot 1 (R111), but for the read snapshot. -/
def slot1 (cfg : Config) (d : Decoder) : Slot → Decoder
  | .write b1 =>
    let d1 := { d with sub := joinSub (d.sub.extractLsb' 6 1) (hdrSubLow b1), mode := hdrMode b1 }
    { d1 with phase := (headerPhase cfg d1).1, reg := (headerPhase cfg d1).2 }
  | .read => { d with phase := .reject .slotDirection }
  | .duplex _ => { d with phase := .reject .slotDirection }

/-- `MemRead(reg, length)`: the whole register as bytes (R74, R75, R130). `free` stands in the undefined bits of
`SYS_STATUS`; `TX_BUFFER` is not readable and gives none. -/
def regBytes (cfg : Config) (d : Device) (free : BitVec 32) : Reg → List Byte
  | .devId => le32 cfg.devIdValue
  | .eui64 => euiBytes d.eui64
  | .sysCfg => le32 d.sysCfg
  | .txFctrl => le32 d.txFctrl
  | .sysStatus => le32 (statusWord cfg d.flags free)
  | .rxFinfo => le32 d.rxFinfo
  | .txBuffer => []
  | .rxBuffer => bytesFrom (rxByte d) 0 bufCap

/-- The read snapshot at the start of a data phase (R82); a read of `SYS_STATUS` takes a fresh draw (R33). -/
def sample (r : Reg) (s : State) : State :=
  let s1 := { s with dec := { s.dec with snap := regBytes s.cfg s.dev (drawWord s) r } }
  match r with
  | .sysStatus => drawn s1
  | .devId => s1
  | .eui64 => s1
  | .sysCfg => s1
  | .txFctrl => s1
  | .rxFinfo => s1
  | .txBuffer => s1
  | .rxBuffer => s1

/-- After slot 1: a read that has reached its data phase takes its snapshot. -/
def enterData (s : State) : State :=
  match s.dec.phase, s.dec.wr, s.dec.reg with
  | .data, false, some r => sample r s
  | _, _, _ => s

/-- A data slot of the register `r` (R112). -/
def dataSlot (r : Reg) (d : Decoder) (x : Slot) : Decoder × Option Byte :=
  if d.offset = regLength r then ({ d with phase := .reject .dataTooLong }, none)
  else
    match d.wr, x with
    | false, .read => ({ d with offset := d.offset + 1 }, some (d.snap.getD d.offset 0))
    | true, .write b => ({ d with offset := d.offset + 1, stage := d.stage ++ [b] }, none)
    | _, _ => ({ d with phase := .reject .slotDirection }, none)

/-- One slot as the device takes it: the state after it and the byte it returns in a `Read` slot of a read. -/
def deviceSlot (x : Slot) (s : State) : State × Option Byte :=
  match s.dec.phase with
  | .idle => (s, none)
  | .hdr0 => ({ s with dec := slot0 s.dec x }, none)
  | .hdr1 => (enterData { s with dec := slot1 s.cfg s.dec x }, none)
  | .data =>
    match s.dec.reg with
    | some r => ({ s with dec := (dataSlot r s.dec x).1 }, (dataSlot r s.dec x).2)
    | none => (s, none)
  | .fast => ({ s with dec := { s.dec with phase := .reject .slotAfterFast } }, none)
  | .reject _ => (s, none)

/-- TRANSPORT delivers one slot (R37). -/
def deliverSlot (x : Slot) (s : State) : State × Option Byte :=
  let out := deviceSlot x s
  ({ out.1 with bus := { out.1.bus with flight := out.1.bus.flight.map fun f => { f with slotsDone := f.slotsDone + 1 } } },
    out.2)

/-- TRANSPORT delivers slots in order; the bytes the device returned. -/
def deliverSlots : List Slot → State → State × List Byte
  | [], s => (s, [])
  | x :: xs, s =>
    let out := deliverSlot x s
    let rest := deliverSlots xs out.1
    (rest.1, out.2.toList ++ rest.2)

/-! ### The commit (R83, R131, R153 to R157) -/

/-- A committed write of a register (R131, R172). -/
def commitWrite (cfg : Config) (r : Reg) (data : List Byte) (d : Device) : Device :=
  match r with
  | .eui64 => { d with eui64 := euiOfBytes (patch (euiBytes d.eui64) data) }
  | .sysCfg => { d with sysCfg := unle32 (patch (le32 d.sysCfg) data) }
  | .txFctrl => { d with txFctrl := unle32 (patch (le32 d.txFctrl) data) }
  | .sysStatus => { d with flags := clearFlags cfg d.flags (unle32 data) }
  | .txBuffer => { d with txBuffer := memWriteBytes d.txBuffer 0 data }
  | .devId => d
  | .rxFinfo => d
  | .rxBuffer => d

/-- The frame handed to the radio when `FC.TX` commits: `TX_BUFFER[0 .. L-2)` (R47, R196). -/
def airFrame (d : Device) : List Byte :=
  bytesFrom (txByte d) 0 ((frameLength d.txFctrl).toNat - 2)

/-- `FC.TX` at commit (R153): the device after it and what the history gains. -/
def commandTx (d : Device) : Device × List HistEvent :=
  match d.trx with
  | .idle =>
    if 2 ≤ (frameLength d.txFctrl).toNat then ({ d with trx := .tx }, [.airTx (airFrame d)])
    else ({ d with trx := .unknown }, [])
  | .tx => ({ d with trx := .unknown }, [])
  | .rx => ({ d with trx := .unknown }, [])
  | .unknown => ({ d with trx := .unknown }, [])

/-- `FC.RX` at commit (R154). -/
def commandRx (d : Device) : Device × List HistEvent :=
  match d.trx with
  | .idle => ({ d with trx := .rx }, [])
  | .tx => ({ d with trx := .unknown }, [])
  | .rx => ({ d with trx := .unknown }, [])
  | .unknown => ({ d with trx := .unknown }, [])

/-- `FC.IDLE` at commit (R155). -/
def commandIdle (d : Device) : Device × List HistEvent := ({ d with trx := .idle }, [])

/-- `FC.CLRIRQ` at commit (R157). -/
def commandClrirq (d : Device) : Device × List HistEvent := ({ d with flags := noFlags }, [])

/-- The action of a fast-command code (R150): `FC.DRXDB` and the unassigned codes are refused (R116, R156). -/
def command (cfg : Config) (code : BitVec 5) (d : Device) : Outcome (Device × List HistEvent) Fault Refusal :=
  if code = cfg.cmd.tx then .next (commandTx d)
  else if code = cfg.cmd.rx then .next (commandRx d)
  else if code = cfg.cmd.idle then .next (commandIdle d)
  else if code = cfg.cmd.drxdb then .refused .delayedDoubleBufferedRx
  else if code = cfg.cmd.clrirq then .next (commandClrirq d)
  else .refused .unassignedCode

/-- The commit of a delivered fast command (R151). -/
def commitCommand (s : State) : Outcome State Fault Refusal :=
  match command s.cfg s.dec.code s.dev with
  | .next out => .next { s with dev := out.1, history := s.history ++ out.2 }
  | .fault r => .fault r
  | .refused r => .refused r

/-! ### Chip-select and the transaction primitive (R80, R84) -/

/-- Chip-select goes low: the transaction is in flight and the decoder waits for its first byte (R24, R110). -/
def csLow (subops : List SubOp) (s : State) : State :=
  { s with
    bus := { s.bus with cs := .low, flight := some { subops := subops, slotsDone := 0 } }
    dec := { s.dec with phase := .hdr0, offset := 0, stage := [] } }

/-- Chip-select is high again: nothing in flight, the decoder idle (R37, R113). -/
def release (s : State) : State :=
  { s with bus := { s.bus with cs := .high, flight := none }, dec := { s.dec with phase := .idle } }

/-- The device-side effect of the end of a transaction (R113). -/
def endOfTransaction (s : State) : Outcome State Fault Refusal :=
  match s.dec.phase with
  | .data =>
    match s.dec.wr, s.dec.reg with
    | true, some r => .next { s with dev := commitWrite s.cfg r s.dec.stage s.dev }
    | _, _ => .next s
  | .fast => commitCommand s
  | .reject why => .refused why
  | .hdr0 => .next s
  | .hdr1 => .next s
  | .idle => .next s

/-- Chip-select goes high (R113). -/
def csHigh (s : State) : Outcome State Fault Refusal :=
  match endOfTransaction s with
  | .next t => .next (release t)
  | .fault r => .fault r
  | .refused r => .refused r

/-- The slots a plan delivers: all, or any prefix (R84). -/
def delivered : Plan → List Slot → List Slot
  | .ok, xs => xs
  | .fail n _, xs => xs.take n
  | .cut n, xs => xs.take n

/-- How a transaction under a plan ends. -/
def planRet : Plan → XRet
  | .ok => .ok
  | .fail _ e => .error e
  | .cut _ => .abandoned

/-- How many bytes the `Read` sub-operations of a transaction ask for. -/
def readBytesAsked : List SubOp → Nat
  | [] => 0
  | .read n :: os => n + readBytesAsked os
  | .write _ :: os => readBytesAsked os
  | .transfer n _ :: os => n + readBytesAsked os
  | .transferInPlace bytes :: os => bytes.length + readBytesAsked os
  | .delay _ :: os => readBytesAsked os

/-- The bytes of the `Write` slots among those delivered. -/
def sentBytes : List Slot → List Byte
  | [] => []
  | .write b :: xs => b :: sentBytes xs
  | .read :: xs => sentBytes xs
  | .duplex b :: xs => b :: sentBytes xs

/-- What HOST gets of a transaction: the bytes read on success, free bytes in the read buffers after a failure (R80);
the plan is used up, the record written (R43). Of a transaction that failed or was cut the record holds the bytes that
arrived, and a cut one is recorded as abandoned (DESIGN CHOICE, unsafe: log entry 19). -/
def receive (subops : List SubOp) (got : List Byte) (s : State) : State :=
  match s.bus.plan with
  | .ok =>
    { s with
      regs := { s.regs with rbytes := got }
      bus := { s.bus with plan := .ok, ret := .ok }
      history := s.history ++ [.xact subops (sentBytes (expand subops)) got .ok] }
  | .fail n e =>
    let junk := bytesFrom (Config.freeByte s.drawCtr) 0 (readBytesAsked subops)
    { s with
      regs := { s.regs with rbytes := junk }
      bus := { s.bus with plan := .ok, ret := .error e }
      drawCtr := s.drawCtr + 1
      history := s.history ++ [.xact subops (sentBytes ((expand subops).take n)) junk (.error e)] }
  | .cut n =>
    let junk := bytesFrom (Config.freeByte s.drawCtr) 0 (readBytesAsked subops)
    { s with
      regs := { s.regs with rbytes := junk }
      bus := { s.bus with plan := .ok, ret := .abandoned }
      drawCtr := s.drawCtr + 1
      history := s.history ++ [.xact subops (sentBytes ((expand subops).take n)) junk .abandoned] }

/-- `xact(subops)` (R80): chip-select low, the delivered slots, what HOST receives, chip-select high.

DESIGN CHOICE, unsafe (log entry 31): the record of the transaction is written before chip-select goes high, so the `AirTx`
that its commit emits stands after it; R43, R153 and R196 do not order the two. -/
def xact (subops : List SubOp) (s : State) : Outcome State Fault Refusal :=
  let out := deliverSlots (delivered s.bus.plan (expand subops)) (csLow subops s)
  csHigh (receive subops out.2 out.1)

/-! ### Ending an operation (R251, R252, R276) -/

/-- The operation running is `init`. -/
def inInit : Pos → Bool
  | .init1 => true
  | .init2 => true
  | .init3 => true
  | .init4 => true
  | .init5 => true
  | .init6 => true
  | .init7 => true
  | .init8 => true
  | .idle => false
  | .send1 => false
  | .send2 => false
  | .send3 => false
  | .send4 => false
  | .send4Clear => false
  | .send5 => false
  | .recv1 => false
  | .recv2 => false
  | .recv2Info => false
  | .recv2Data => false
  | .recv2Clear => false
  | .recv2ErrClear => false
  | .recv2Enable => false
  | .recv3 => false
  | .forceIdle1 => false

/-- What is left of the handle when an operation ends early: `init` has consumed it (R224). -/
def lifecycleAfterLoss (s : State) : Lifecycle :=
  if inInit s.pos then .consumed else s.lifecycle

/-- `raise e`, the one entry of every error (R260, R276): the operation ends and returns `e`; nothing is saved, no
vector is taken; a failed `init` loses the handle. -/
def raiseError (e : Err) (s : State) : State :=
  { s with lifecycle := lifecycleAfterLoss s, pos := .idle, result := some (.error e) }

/-- The operation ends with a result; there is no other return (R278).

DESIGN CHOICE, unsafe (log entry 30): the working registers do not exist once it has ended (R20); their fields keep the
last values, here as in `raiseError` and `dropOperation`. -/
def returnOk (r : OpResult) (s : State) : State := { s with pos := .idle, result := some r }

/-- The task is abandoned: the operation ends and returns nothing (R252; log entry 10). -/
def dropOperation (s : State) : State :=
  { s with lifecycle := lifecycleAfterLoss s, pos := .idle, result := none }

/-- The implicit test after every transaction (R251). -/
def settle (s : State) : State :=
  match s.bus.ret with
  | .ok => s
  | .error e => raiseError (.transport e) s
  | .abandoned => dropOperation s

/-- A transaction as HOST performs it: the primitive, then the implicit test. -/
def transact (subops : List SubOp) (s : State) : Outcome State Fault Refusal :=
  match xact subops s with
  | .next t => .next (settle t)
  | .fault r => .fault r
  | .refused r => .refused r

end Sys2Proof.Machine
end

