-- ==== Sys2Proof/Machine/FastCommands.lean ====
section
/-! DEFINITION. The fast commands (R150 to R157). The device-side actions are in Ops, where the commit runs them. -/

namespace Sys2Proof.Machine

open Host (Outcome)

/-- `issueFastCommand(code)`: the byte goes to the working register `cmd` and out as a one-byte transaction (R150). -/
def issue (code : Nat) (s : State) : Outcome State Fault Refusal :=
  transact [.write [fcByte code]] { s with regs := { s.regs with cmd := fcByte code } }

/-- `FC code` (R150). -/
def execFc (code : Nat) (s : State) : Outcome State Fault Refusal := issue code s

/-- `FC.TX` (R153). -/
def execFcTx (s : State) : Outcome State Fault Refusal := issue s.cfg.cmd.tx.toNat s

/-- `FC.RX` (R154). -/
def execFcRx (s : State) : Outcome State Fault Refusal := issue s.cfg.cmd.rx.toNat s

/-- `FC.IDLE` (R155). -/
def execFcIdle (s : State) : Outcome State Fault Refusal := issue s.cfg.cmd.idle.toNat s

/-- `FC.DRXDB` (R156): HOST sends the byte; the device that gets it is refused. -/
def execFcDrxdb (s : State) : Outcome State Fault Refusal := issue s.cfg.cmd.drxdb.toNat s

/-- `FC.CLRIRQ` (R157). -/
def execFcClrirq (s : State) : Outcome State Fault Refusal := issue s.cfg.cmd.clrirq.toNat s

end Sys2Proof.Machine
end

