-- ==== Sys2Proof/Machine/Registers.lean ====
section
/-! DEFINITION. The register transactions: RD, WR, RDU32, WRU32 (R130 to R133). -/

namespace Sys2Proof.Machine

open Host (Outcome)

/-- The encoder leaves the header in its working registers (R20, R103). -/
def loadHeader (r : Reg) (wr : Bool) (s : State) : State :=
  { s with regs := { s.regs with
      hdr0 := headerByte0 (regAddr s.cfg r).fileId.toNat (regAddr s.cfg r).subAddress.toNat wr
      hdr1 := headerByte1 (regAddr s.cfg r).subAddress.toNat } }

/-- The value an `RDU32` returns, once its transaction has succeeded (R132). -/
def assembleValue (s : State) : State :=
  match s.bus.ret with
  | .ok => { s with regs := { s.regs with rval := unle32 s.regs.rbytes } }
  | .error _ => s
  | .abandoned => s

/-- `RD reg, n` (R130). -/
def execRd (reg : Reg) (n : Nat) (s : State) : Outcome State Fault Refusal :=
  transact [.write (regHeader s.cfg reg false), .read n] (loadHeader reg false s)

/-- `WR reg, data` (R131). -/
def execWr (reg : Reg) (data : List Byte) (s : State) : Outcome State Fault Refusal :=
  transact [.write (regHeader s.cfg reg true), .write data] (loadHeader reg true s)

/-- `RDU32 reg`: `RD reg, 4`, then the bytes as a little-endian value (R132). -/
def execRdu32 (reg : Reg) (s : State) : Outcome State Fault Refusal :=
  match execRd reg 4 s with
  | .next t => .next (assembleValue t)
  | .fault r => .fault r
  | .refused r => .refused r

/-- `WRU32 reg, v`: `WR reg, le32(v)` (R133). -/
def execWru32 (reg : Reg) (v : BitVec 32) (s : State) : Outcome State Fault Refusal :=
  execWr reg (le32 v) s

end Sys2Proof.Machine
end

