-- ==== Sys2Proof/Machine/Reserved.lean ====
section
/-! DEFINITION. The reserved encodings (R114 to R116). Each row is what the device has received, and the spec gives it
no meaning: the model refuses. -/

namespace Sys2Proof.Machine

open Host (Outcome)

/-- Mode 1 (R115). -/
def execReservedFaMode1 (_wr : Bool) (_fid : BitVec 5) (_sub : BitVec 7) (_s : State) : Outcome State Fault Refusal :=
  .refused .reservedMode

/-- Mode 2 (R115). -/
def execReservedFaMode2 (_wr : Bool) (_fid : BitVec 5) (_sub : BitVec 7) (_s : State) : Outcome State Fault Refusal :=
  .refused .reservedMode

/-- Mode 3 (R115). -/
def execReservedFaMode3 (_wr : Bool) (_fid : BitVec 5) (_sub : BitVec 7) (_s : State) : Outcome State Fault Refusal :=
  .refused .reservedMode

/-- First byte `00------` (R114). -/
def execReservedB000 (_low : BitVec 6) (_s : State) : Outcome State Fault Refusal :=
  .refused .reservedFirstByte

/-- First byte `10-----0` (R114). -/
def execReservedB010x0 (_mid : BitVec 5) (_s : State) : Outcome State Fault Refusal :=
  .refused .reservedFirstByte

/-- An unassigned fast-command code (R116). -/
def execReservedFcUnassigned (_code : BitVec 5) (_s : State) : Outcome State Fault Refusal :=
  .refused .unassignedCode

end Sys2Proof.Machine
end

