-- ==== Sys2Proof/Machine/Dispatch.lean ====
section
/-! DEFINITION. The dispatch: one arm per constructor of Instr. -/

namespace Sys2Proof.Machine

/-- What an instruction does (one chip-select-framed transaction). -/
def exec (i : Instr) (s : State) : Host.Outcome State Fault Refusal :=
  match i with
  | .rd reg n => Sys2Proof.Machine.execRd reg n s
  | .wr reg data => Sys2Proof.Machine.execWr reg data s
  | .fc code => Sys2Proof.Machine.execFc code s
  | .fcTx => Sys2Proof.Machine.execFcTx s
  | .fcRx => Sys2Proof.Machine.execFcRx s
  | .fcIdle => Sys2Proof.Machine.execFcIdle s
  | .fcDrxdb => Sys2Proof.Machine.execFcDrxdb s
  | .fcClrirq => Sys2Proof.Machine.execFcClrirq s
  | .rdu32 reg => Sys2Proof.Machine.execRdu32 reg s
  | .wru32 reg v => Sys2Proof.Machine.execWru32 reg v s
  | .reservedFaMode1 wr fid sub => Sys2Proof.Machine.execReservedFaMode1 wr fid sub s
  | .reservedFaMode2 wr fid sub => Sys2Proof.Machine.execReservedFaMode2 wr fid sub s
  | .reservedFaMode3 wr fid sub => Sys2Proof.Machine.execReservedFaMode3 wr fid sub s
  | .reservedB000 low => Sys2Proof.Machine.execReservedB000 low s
  | .reservedB010x0 mid => Sys2Proof.Machine.execReservedB010x0 mid s
  | .reservedFcUnassigned code => Sys2Proof.Machine.execReservedFcUnassigned code s

end Sys2Proof.Machine
end

