-- ==== Sys2Proof/Machine/Driver.lean ====
section
/-! DEFINITION. The driver sequences (R222, R230, R240, R250), one definition per numbered line. -/

namespace Sys2Proof.Machine

open Host (Outcome)

/-- A line that issues a transaction: if it succeeded the sequence goes on as `k` says; a failure has already ended the
operation (R251). -/
def afterXact (o : Outcome State Fault Refusal) (k : State → State) : Outcome State Fault Refusal :=
  match o with
  | .next t =>
    match t.bus.ret with
    | .ok => .next (k t)
    | .error _ => .next t
    | .abandoned => .next t
  | .fault r => .fault r
  | .refused r => .refused r

/-- The sequence goes on at the line `p`. -/
def goTo (p : Pos) (s : State) : State := { s with pos := p }

/-- `delay(t)`: recorded, with no other effect (R310). -/
def delayMs (ms : Nat) (s : State) : State := { s with history := s.history ++ [.delay ms] }

/-- `diag(msg)` (R44). -/
def emitDiag (d : Diag) (s : State) : State := { s with diag := s.diag ++ [d] }

/-! ### init (R222) -/

/-- Line 1. -/
def init1 (s : State) : Outcome State Fault Refusal := .next (goTo .init2 (delayMs tPowerupMs s))

/-- Line 2. -/
def init2 (s : State) : Outcome State Fault Refusal := afterXact (execFcIdle s) (goTo .init3)

/-- Line 3. -/
def init3 (s : State) : Outcome State Fault Refusal := .next (goTo .init4 (delayMs tIdleSettleMs s))

/-- Line 4. -/
def init4 (s : State) : Outcome State Fault Refusal :=
  afterXact (execRdu32 .devId s) fun t => goTo .init5 { t with regs := { t.regs with id := t.regs.rval } }

/-- Line 5: the identity check (R223). -/
def init5 (s : State) : Outcome State Fault Refusal :=
  if s.regs.id = 0x00000000 ∨ s.regs.id = 0xFFFFFFFF then .next (raiseError .unexpectedDeviceId s)
  else .next (goTo .init6 s)

/-- Line 6. -/
def init6 (s : State) : Outcome State Fault Refusal := afterXact (execFcClrirq s) (goTo .init7)

/-- Line 7. -/
def init7 (s : State) : Outcome State Fault Refusal := .next (goTo .init8 (emitDiag (.deviceIdentity s.regs.id) s))

/-- Line 8. -/
def init8 (s : State) : Outcome State Fault Refusal := .next (returnOk .ok { s with lifecycle := .ready })

/-! ### send (R230) -/

/-- Step 1. -/
def send1 (s : State) : Outcome State Fault Refusal := afterXact (execWr .txBuffer s.regs.data s) (goTo .send2)

/-- Step 2: the length (R191) goes to `TX_FCTRL`, zero-extended (R232). -/
def send2 (s : State) : Outcome State Fault Refusal :=
  let t := { s with regs := { s.regs with len := txLength s.regs.data.length } }
  afterXact (execWru32 .txFctrl (t.regs.len.setWidth 32) t) (goTo .send3)

/-- Step 3; step 4 then starts with no poll made. -/
def send3 (s : State) : Outcome State Fault Refusal :=
  afterXact (execFcTx s) fun t => goTo .send4 { t with regs := { t.regs with polls := 0 } }

/-- One poll: the count goes up, the status is read (R233, R242). -/
def poll (s : State) (k : State → State) : Outcome State Fault Refusal :=
  afterXact (execRdu32 .sysStatus { s with regs := { s.regs with polls := s.regs.polls + 1 } })
    fun t => k { t with regs := { t.regs with s := t.regs.rval } }

/-- Step 4: the loop test and a poll (R233). -/
def send4 (s : State) : Outcome State Fault Refusal :=
  if s.regs.polls < s.regs.bound then
    poll s fun t => if testFlag t.cfg t.regs.s .txfrs then goTo .send4Clear t else goTo .send4 t
  else .next (goTo .send5 s)

/-- Step 4, the flag seen: the clearing write of exactly that bit (R177, R233). -/
def send4Clear (s : State) : Outcome State Fault Refusal :=
  afterXact (execWru32 .sysStatus (flagMask s.cfg .txfrs) s) (returnOk .ok)

/-- Step 5: the timeout (R234). -/
def send5 (s : State) : Outcome State Fault Refusal := .next (raiseError .timeout (emitDiag .transmitFailure s))

/-! ### recv (R240) -/

/-- Step 1; step 2 then starts with no poll made. -/
def recv1 (s : State) : Outcome State Fault Refusal :=
  afterXact (execFcRx s) fun t => goTo .recv2 { t with regs := { t.regs with polls := 0 } }

/-- The mask of the good path: `M_RXFR | M_RXFCG`. -/
def goodMask (cfg : Config) : BitVec 32 := flagMask cfg .rxfr ||| flagMask cfg .rxfcg

/-- The mask of the error path: `M_RXFCE | M_RXPHE`. -/
def errorMask (cfg : Config) : BitVec 32 := flagMask cfg .rxfce ||| flagMask cfg .rxphe

/-- The two tests of step 2, in their order (R241). -/
def recvBranch (t : State) : State :=
  if testFlag t.cfg t.regs.s .rxfcg then goTo .recv2Info t
  else if t.regs.s &&& errorMask t.cfg != 0 then goTo .recv2ErrClear t
  else goTo .recv2 t

/-- Step 2: the loop test and a poll (R240). -/
def recv2 (s : State) : Outcome State Fault Refusal :=
  if s.regs.polls < s.regs.bound then poll s recvBranch else .next (goTo .recv3 s)

/-- The good path's length arithmetic (R192). -/
def recvLengths (t : State) : State :=
  let l := frameLength t.regs.rval
  { t with regs := { t.regs with
    f := t.regs.rval
    len := l
    p := payloadLength l
    n := min (payloadLength l) t.regs.outBuffer.length } }

/-- The good path reads `RX_FINFO` (R243). -/
def recv2Info (s : State) : Outcome State Fault Refusal :=
  afterXact (execRdu32 .rxFinfo s) fun t => goTo .recv2Data (recvLengths t)

/-- The read buffer of the copy is the front of the caller's buffer (R42, R243). -/
def fillOutBuffer (s : State) : State :=
  { s with regs := { s.regs with outBuffer := patch s.regs.outBuffer s.regs.rbytes } }

/-- The good path copies the payload (R243). The read buffer is `outBuffer[0 .. n)`, so a failed read leaves those
bytes unspecified (R80; log entry 11). -/
def recv2Data (s : State) : Outcome State Fault Refusal :=
  match execRd .rxBuffer s.regs.n s with
  | .next t => afterXact (.next (fillOutBuffer t)) (goTo .recv2Clear)
  | .fault r => .fault r
  | .refused r => .refused r

/-- The good path clears the flags and returns the count (R177, R243).

DEDUCED, unsafe (log entry 32): `trx` is left as it was. R243 and R323 say that it is `IDLE` after the good path; by the
pseudocode of R240 with the table of R45 it is `RX` when the flag seen was a stale one, and stays `UNKNOWN` where it was.
The model follows the pseudocode and the table, which the order of authority of 90_conflicts.md puts first. -/
def recv2Clear (s : State) : Outcome State Fault Refusal :=
  afterXact (execWru32 .sysStatus (clearValue s.cfg s.regs.s (goodMask s.cfg)) s) fun t => returnOk (.count t.regs.n) t

/-- The error path clears its flags (R177, R244). -/
def recv2ErrClear (s : State) : Outcome State Fault Refusal :=
  afterXact (execWru32 .sysStatus (clearValue s.cfg s.regs.s (errorMask s.cfg)) s) (goTo .recv2Enable)

/-- The error path enables the receiver again (R244). -/
def recv2Enable (s : State) : Outcome State Fault Refusal := afterXact (execFcRx s) (goTo .recv2)

/-- Step 3: the timeout (R245). -/
def recv3 (s : State) : Outcome State Fault Refusal := afterXact (execFcIdle s) (raiseError .timeout)

/-! ### force_idle (R250) -/

/-- Step 1. -/
def forceIdle1 (s : State) : Outcome State Fault Refusal := afterXact (execFcIdle s) (returnOk .ok)

/-- The line at the sequencer position (R23). -/
def runLine (s : State) : Outcome State Fault Refusal :=
  match s.pos with
  | .idle => .next s
  | .init1 => init1 s
  | .init2 => init2 s
  | .init3 => init3 s
  | .init4 => init4 s
  | .init5 => init5 s
  | .init6 => init6 s
  | .init7 => init7 s
  | .init8 => init8 s
  | .send1 => send1 s
  | .send2 => send2 s
  | .send3 => send3 s
  | .send4 => send4 s
  | .send4Clear => send4Clear s
  | .send5 => send5 s
  | .recv1 => recv1 s
  | .recv2 => recv2 s
  | .recv2Info => recv2Info s
  | .recv2Data => recv2Data s
  | .recv2Clear => recv2Clear s
  | .recv2ErrClear => recv2ErrClear s
  | .recv2Enable => recv2Enable s
  | .recv3 => recv3 s
  | .forceIdle1 => forceIdle1 s

end Sys2Proof.Machine
end

