-- ==== Sys2Proof/Machine/Radio.lean ====
section
/-! DEFINITION. The RADIO events (R201 to R210). -/

namespace Sys2Proof.Machine

/-- Which events `trx` enables (R202). -/
def enabled (t : Trx) : RadioEvent → Bool
  | .txDone => t == .tx || t == .unknown
  | .rxGood _ _ => t == .rx || t == .unknown
  | .rxFcsError => t == .rx || t == .unknown
  | .rxPhyHeaderError => t == .rx || t == .unknown
  | .rxPreambleTimeout => t == .rx || t == .unknown
  | .rxSfdTimeout => t == .rx || t == .unknown

/-- The parameters of an event fit: the payload of `RxGood` has length `L -sat 2` (R204). -/
def admissible : RadioEvent → Bool
  | .rxGood len bytes => bytes.length == payloadLength len
  | .txDone => true
  | .rxFcsError => true
  | .rxPhyHeaderError => true
  | .rxPreambleTimeout => true
  | .rxSfdTimeout => true

/-- `x[trx] <- IDLE` if it was `TX` or `RX`, unchanged if `UNKNOWN` (R203 to R208). -/
def trxAfterEvent : Trx → Trx
  | .tx => .idle
  | .rx => .idle
  | .idle => .idle
  | .unknown => .unknown

/-- A flag set by an event, and the transceiver after it. -/
def raiseFlag (f : Flag) (s : State) : State :=
  { s with dev := { s.dev with flags := setFlag s.dev.flags f, trx := trxAfterEvent s.dev.trx } }

/-- `RX_FINFO` and every byte of `RX_BUFFER` become draws (R205, R206). -/
def scrambleRx (s : State) : State :=
  drawn { s with dev := { s.dev with rxFinfo := drawWord s, rxBuffer := [], rxDraw := s.drawCtr } }

/-- `RXFR` is set or left as it was, by a draw (R205). -/
def drawRxfr (s : State) : State :=
  drawn { s with dev := { s.dev with
    flags := if (drawWord s).getLsbD 0 then setFlag s.dev.flags .rxfr else s.dev.flags } }

/-- The length and the payload of a good frame; the rest of `RX_FINFO` and of `RX_BUFFER` are draws (R204). -/
def deliverFrame (len : BitVec 10) (bytes : List Byte) (s : State) : State :=
  drawn { s with dev := { s.dev with
    rxFinfo := ((drawWord s >>> 10) <<< 10) ||| len.setWidth 32
    rxBuffer := memWriteBytes [] 0 bytes
    rxDraw := s.drawCtr } }

/-- The effect of an event (R203 to R208). -/
def applyEvent (ev : RadioEvent) (s : State) : State :=
  match ev with
  | .txDone => raiseFlag .txfrs s
  | .rxGood len bytes => raiseFlag .rxfcg (raiseFlag .rxfr (deliverFrame len bytes s))
  | .rxFcsError => raiseFlag .rxfce (drawRxfr (scrambleRx s))
  | .rxPhyHeaderError => raiseFlag .rxphe (scrambleRx s)
  | .rxPreambleTimeout => raiseFlag .rxpto s
  | .rxSfdTimeout => raiseFlag .rxsfdto s

/-- One RADIO step: an event that is enabled and fits is taken and recorded; any other cannot happen (R202; log
entry 7). -/
def radioMove (ev : RadioEvent) (s : State) : State :=
  if enabled s.dev.trx ev && admissible ev then
    applyEvent ev { s with history := s.history ++ [.radio ev] }
  else s

end Sys2Proof.Machine
end

