-- ==== Sys2Proof/Machine/Sequencer.lean ====
section
/-! DEFINITION. Whose turn it is: HOST's move (the line of a running operation, or the next call), RADIO's event, the
caller's abandoning. -/

namespace Sys2Proof.Machine

open Host (Outcome)

/-- A raw transaction. When TRANSPORT will carry it whole and its slots decode, the instruction is executed; a cut
header, a malformed shape or a transaction that fails on the way goes to the device slot by slot (R84, R113, R117).

DESIGN CHOICE, unsafe (log entry 29): the spec has no raw call, so it leaves open what the record of one holds (R43).
Carried whole, the flight and the history hold the sub-operations of the decoded instruction's own encoding, not the
caller's list: one `Write` of header and data appears as two, and a `Delay` drops out. Otherwise they hold the caller's
list. -/
def runWire (subops : List SubOp) (s : State) : Outcome State Fault Refusal :=
  match s.bus.plan, decode s.cfg (expand subops) with
  | .ok, .instr i => exec i s
  | _, _ => transact subops s

/-- An operation starts at its first line, with no result yet. -/
def startAt (p : Pos) (s : State) : State := { s with pos := p, result := none }

/-- `new_handle` (R220): an `Uninitialized` handle in the place of a consumed one. An `Uninitialized` handle allows
`init` only, a `Ready` one lives on (R41, R275; log entry 9). -/
def callNewHandle (s : State) : Outcome State Fault Refusal :=
  match s.lifecycle with
  | .uninitialized => .refused .opNotAllowed
  | .consumed => .next (returnOk .ok { s with lifecycle := .uninitialized })
  | .ready => .refused .opNotAllowed

/-- `init` is called (R275). -/
def callInit (s : State) : Outcome State Fault Refusal :=
  match s.lifecycle with
  | .uninitialized => .next (startAt .init1 s)
  | .consumed => .refused .opNotAllowed
  | .ready => .refused .opNotAllowed

/-- What only a `Ready` handle allows (R275, R301): `send`, `recv`, `force_idle`, and a transaction called by itself (log
entry 28). So no transaction precedes the wait of `init` (R311). -/
def callReady (run : State → Outcome State Fault Refusal) (s : State) : Outcome State Fault Refusal :=
  match s.lifecycle with
  | .ready => run s
  | .uninitialized => .refused .opNotAllowed
  | .consumed => .refused .opNotAllowed

/-- `send` at its entry (R230). -/
def startSend (data : List Byte) (s : State) : State :=
  startAt .send1 { s with regs := { s.regs with data := data, bound := sendPollBound, polls := 0 } }

/-- `recv` at its entry (R240). -/
def startRecv (outBuffer : List Byte) (maxPolls : Nat) (s : State) : State :=
  startAt .recv1 { s with regs := { s.regs with outBuffer := outBuffer, bound := maxPolls, polls := 0 } }

/-- HOST takes a call. -/
def takeCall (c : Call) (s : State) : Outcome State Fault Refusal :=
  match c with
  | .newHandle => callNewHandle s
  | .init => callInit s
  | .send data => callReady (fun t => .next (startSend data t)) s
  | .recv outBuffer maxPolls => callReady (fun t => .next (startRecv outBuffer maxPolls t)) s
  | .forceIdle => callReady (fun t => .next (startAt .forceIdle1 t)) s
  | .instr i => callReady (fun t => exec i { t with result := none }) s
  | .wire subops => callReady (fun t => runWire subops { t with result := none }) s

/-- HOST's move: the next line of the running operation; with none running, the next call; with none, it waits. -/
def hostMove (s : State) : Outcome State Fault Refusal :=
  match s.pos with
  | .idle =>
    match s.calls with
    | [] => .next s
    | c :: cs => takeCall c { s with calls := cs }
  | _ => runLine s

/-- The agent whose turn it is moves; with no turn listed, HOST. -/
def agentMove (s : State) : Outcome State Fault Refusal :=
  match s.turns with
  | [] => hostMove s
  | .host p :: ts => hostMove { s with turns := ts, bus := { s.bus with plan := p } }
  | .radio ev :: ts => .next (radioMove ev { s with turns := ts })
  | .abandon :: ts => .next (if s.pos = .idle then { s with turns := ts } else dropOperation { s with turns := ts })

/-- A raw transaction of written bytes put where HOST takes its next call, HOST's turn, no operation running, on a
handle that allows it (log entries 8 and 28). -/
def placeWire (bytes : List Byte) (s : State) : State :=
  { s with
    lifecycle := .ready
    pos := .idle
    calls := .wire [.write bytes] :: s.calls
    turns := .host .ok :: s.turns }

end Sys2Proof.Machine
end

