-- ==== Sys2Proof/Machine/Step.lean ====
section
/-! DEFINITION. The step, and the placing of an instruction's bits where the next step takes them. -/

namespace Sys2Proof.Machine

/-- One step of the machine: one agent moves (R8). -/
def step (s : State) : Host.Outcome State Fault Refusal := agentMove s

/-- `s` with the instruction of these bits as the very next thing HOST does (log entry 8). -/
def State.withFetchWord (s : State) (nbits w : Nat) : State :=
  placeWire (wordBytes ((nbits + 7) / 8) w) s

end Sys2Proof.Machine
end

