-- ==== Sys2Proof/WellFormed.lean ====
section
/-! DEFINITION. Which instructions, and which configurations, are well-formed. -/

namespace Sys2Proof

open Sys2Proof.Machine

/-- The catalog's addresses are pairwise distinct (R11). -/
def regmapDistinct (cfg : Config) : Bool :=
  decide ((allRegs.map (regAddr cfg)).Nodup)

/-- The flag positions are pairwise distinct (R11). -/
def flagposDistinct (cfg : Config) : Bool :=
  decide ((allFlags.map (flagPosition cfg)).Nodup)

/-- The five command codes are pairwise distinct, as the spec's own are (R108; log entry 4). -/
def cmdDistinct (cfg : Config) : Bool :=
  decide ([cfg.cmd.tx, cfg.cmd.rx, cfg.cmd.idle, cfg.cmd.drxdb, cfg.cmd.clrirq].Nodup)

/-- The constraints every instance of the open parameters must meet (R11). -/
def Config.wf (cfg : Config) : Bool :=
  regmapDistinct cfg && flagposDistinct cfg && cmdDistinct cfg

/-- The code is one of the five of `CMD` (R108). -/
def assignedCode (cfg : Config) (code : BitVec 5) : Bool :=
  [cfg.cmd.tx, cfg.cmd.rx, cfg.cmd.idle, cfg.cmd.drxdb, cfg.cmd.clrirq].contains code

/-- An instruction as the spec defines it: a register of the right access, a data phase no longer than the register
(R130 to R133), an unassigned code that is not one of the five (R116). -/
def wellFormed (cfg : Config) : Instr → Bool
  | .rd reg n => readable reg && decide (n ≤ regLength reg)
  | .wr reg data => writable reg && decide (data.length ≤ regLength reg)
  | .rdu32 reg => readable reg && decide (4 ≤ regLength reg)
  | .wru32 reg _ => writable reg && decide (4 ≤ regLength reg)
  | .reservedFcUnassigned code => !assignedCode cfg code
  | .fc _ => true
  | .fcTx => true
  | .fcRx => true
  | .fcIdle => true
  | .fcDrxdb => true
  | .fcClrirq => true
  | .reservedFaMode1 _ _ _ => true
  | .reservedFaMode2 _ _ _ => true
  | .reservedFaMode3 _ _ _ => true
  | .reservedB000 _ => true
  | .reservedB010x0 _ => true

end Sys2Proof
end

