-- ==== Sys2Proof/Safety.lean ====
section
/-! DEFINITION. What counts as a good state, in the terms the claims use. -/

namespace Sys2Proof.Machine

/-- No transaction in flight: chip-select high, the decoder idle (R37, R24). -/
abbrev BusQuiet (s : State) : Prop :=
  s.bus.cs = .high ∧ s.bus.flight = none ∧ s.dec.phase = .idle

/-- Both buffers' memories have their canonical form. -/
abbrev MemoriesWf (s : State) : Prop :=
  memWf s.dev.txBuffer = true ∧ memWf s.dev.rxBuffer = true

/-- The position is a line of `send`. -/
def inSend : Pos → Bool
  | .send1 => true
  | .send2 => true
  | .send3 => true
  | .send4 => true
  | .send4Clear => true
  | .send5 => true
  | _ => false

/-- The position is a line of `recv`. -/
def inRecv : Pos → Bool
  | .recv1 => true
  | .recv2 => true
  | .recv2Info => true
  | .recv2Data => true
  | .recv2Clear => true
  | .recv2ErrClear => true
  | .recv2Enable => true
  | .recv3 => true
  | _ => false

/-- The running operation is one the lifecycle allows (R275). -/
def lifecycleFits (s : State) : Bool :=
  if inInit s.pos then s.lifecycle == .uninitialized
  else if inSend s.pos || inRecv s.pos || s.pos == .forceIdle1 then s.lifecycle == .ready
  else true

/-- The poll counter has not passed its bound (R23), which is 10000 in `send` (R20). -/
abbrev PollsBounded (s : State) : Prop :=
  s.regs.polls ≤ s.regs.bound ∧ (inSend s.pos = true → s.regs.bound = sendPollBound)

/-- The copy count of `recv` fits the payload, the field and the caller's buffer (R20, R192). -/
abbrev CopyBounded (s : State) : Prop :=
  s.regs.n ≤ s.regs.p ∧ s.regs.p ≤ 1021 ∧
    (s.pos = .recv2Data ∨ s.pos = .recv2Clear → s.regs.n ≤ s.regs.outBuffer.length)

/-- The invariant of the machine: it holds at reset and every step keeps it. -/
abbrev Inv (s : State) : Prop :=
  BusQuiet s ∧ MemoriesWf s ∧ lifecycleFits s = true ∧ PollsBounded s ∧ CopyBounded s

/-! ### What a transaction leaves, in the terms the claims use -/

/-- The state a transaction leaves, but for its device-side effect: HOST has the bytes `got`, the bus is quiet, the
record is written. -/
def completed (ops : List SubOp) (sent got : List Byte) (ret : XRet) (d : Decoder) (s : State) : State :=
  { s with
    regs := { s.regs with rbytes := got }
    bus := { cs := .high, flight := none, plan := .ok, ret := ret }
    dec := { d with phase := .idle }
    history := s.history ++ [.xact ops sent got ret] }

/-- A read of `SYS_STATUS` uses up a draw, any other none (R33). -/
def sampled (r : Reg) (s : State) : State := if r = .sysStatus then drawn s else s

/-- How many slots of `k` a plan delivers. -/
def deliveredCount : Plan → Nat → Nat
  | .ok, k => k
  | .fail n _, k => min n k
  | .cut n, k => min n k

/-- TRANSPORT delivers the first `k` slots of the next transaction, which then ends as `ret`: it fails (R84), or the
caller's task is abandoned inside it (R252). -/
def CutShort (p : Plan) (k : Nat) (ret : XRet) : Prop :=
  (∃ e, p = .fail k e ∧ ret = .error e) ∨ (p = .cut k ∧ ret = .abandoned)

/-- A transaction that ended as `ret` has ended the operation around it: chip-select is high, and the result is the
transport's own error (R251, R261), or nothing (R252). -/
def EndedBy (ret : XRet) (t : State) : Prop :=
  t.bus.cs = .high ∧ t.bus.ret = ret ∧ t.pos = .idle ∧
    (∀ e, ret = .error e → t.result = some (.error (.transport e))) ∧ (ret = .abandoned → t.result = none)

/-- The data bytes of a write that reach the device: all but the two of the header. -/
def arrived (p : Plan) (data : List Byte) : List Byte := data.take (deliveredCount p (2 + data.length) - 2)

/-- The draw that a failed transaction spends on its read buffers (R80). -/
def afterPlan (p : Plan) (s : State) : State :=
  match p with
  | .ok => s
  | .fail _ _ => { s with drawCtr := s.drawCtr + 1 }
  | .cut _ => { s with drawCtr := s.drawCtr + 1 }

/-- Byte `k` of a register as a read returns it (the table of R130): a 32-bit register low byte first (R75), `EUI_64` and
`RX_BUFFER` as byte arrays (R74); `free` stands in the undefined bits of `SYS_STATUS` (R33). -/
def registerByte (cfg : Config) (d : Device) (free : BitVec 32) (r : Reg) (k : Nat) : Byte :=
  match r with
  | .devId => cfg.devIdValue.extractLsb' (8 * k) 8
  | .eui64 => d.eui64.extractLsb' (8 * k) 8
  | .sysCfg => d.sysCfg.extractLsb' (8 * k) 8
  | .txFctrl => d.txFctrl.extractLsb' (8 * k) 8
  | .sysStatus => (statusWord cfg d.flags free).extractLsb' (8 * k) 8
  | .rxFinfo => d.rxFinfo.extractLsb' (8 * k) 8
  | .rxBuffer => rxByte d k
  | .txBuffer => 0

/-- The bit that `data` carries at the position of a flag; bytes not sent count as zeros (R172, R173). -/
def bitAtFlag (cfg : Config) (data : List Byte) (f : Flag) : Bool :=
  (data.getD (flagPosition cfg f / 8) 0).getLsbD (flagPosition cfg f % 8)

/-- What a committed write of `data` to the register `r` makes of the device `d` (the table of R131): the bytes sent
replace the first bytes, a 1 sent to `SYS_STATUS` clears its flag, and nothing else of the device changes. -/
def WriteEffect (cfg : Config) (r : Reg) (data : List Byte) (d d' : Device) : Prop :=
  match r with
  | .eui64 => d' = { d with eui64 := d'.eui64 } ∧
      ∀ k, k < 8 → d'.eui64.extractLsb' (8 * k) 8 = data.getD k (d.eui64.extractLsb' (8 * k) 8)
  | .sysCfg => d' = { d with sysCfg := d'.sysCfg } ∧
      ∀ k, k < 4 → d'.sysCfg.extractLsb' (8 * k) 8 = data.getD k (d.sysCfg.extractLsb' (8 * k) 8)
  | .txFctrl => d' = { d with txFctrl := d'.txFctrl } ∧
      ∀ k, k < 4 → d'.txFctrl.extractLsb' (8 * k) 8 = data.getD k (d.txFctrl.extractLsb' (8 * k) 8)
  | .txBuffer => d' = { d with txBuffer := d'.txBuffer } ∧ ∀ k, txByte d' k = data.getD k (txByte d k)
  | .sysStatus => d' = { d with flags := d'.flags } ∧
      ∀ f, getFlag d'.flags f = (getFlag d.flags f && !bitAtFlag cfg data f)
  | .devId => d' = d
  | .rxFinfo => d' = d
  | .rxBuffer => d' = d

/-- What a transaction adds to the history: its record, and what its commit emits, before or after the record. The spec
does not order the two (log entry 31), so a statement in these terms holds for either order. -/
def Records (record : HistEvent) (emitted added : List HistEvent) : Prop :=
  added = record :: emitted ∨ added = emitted ++ [record]

/-- Between `s` and `t` exactly one transaction was recorded, in which HOST's bytes that reached the device were
`bytes` (of one that failed or was cut, the record holds the bytes that arrived: log entry 19). -/
def SentBetween (s t : State) (bytes : List Byte) : Prop :=
  ∃ ops got ret hist added, t.history = s.history ++ added ∧ Records (.xact ops bytes got ret) hist added ∧
    ∀ e, e ∈ hist → ∃ frame, e = .airTx frame

/-- The entry of the event history is a transaction. -/
def isTransaction : HistEvent → Bool
  | .xact _ _ _ _ => true
  | .delay _ => false
  | .radio _ => false
  | .airTx _ => false

/-- The post-power-up delay of `init` line 1 (R222, R311) is among the entries. -/
def powerupWaitIn (h : List HistEvent) : Bool := h.contains (.delay tPowerupMs)

/-- No transaction stands before the first post-power-up delay. -/
def transactionsAfterWait : List HistEvent → Bool
  | [] => true
  | .delay ms :: h => ms == tPowerupMs || transactionsAfterWait h
  | .xact _ _ _ _ :: _ => false
  | .radio _ :: h => transactionsAfterWait h
  | .airTx _ :: h => transactionsAfterWait h

/-- Software has waited 5 ms before its first transaction (R311): every transaction so far came after the wait, and where
one may come next (a `Ready` handle, an operation past its first delay) the wait is over. -/
abbrev PowerupWaited (s : State) : Prop :=
  transactionsAfterWait s.history = true ∧
    (s.lifecycle = .ready ∨ (s.pos ≠ .idle ∧ s.pos ≠ .init1) → powerupWaitIn s.history = true)

/-- The events that raise a flag (the table of R25). -/
def raises : RadioEvent → Flag → Bool
  | .txDone, f => f == .txfrs
  | .rxGood _ _, f => f == .rxfr || f == .rxfcg
  | .rxFcsError, f => f == .rxfce || f == .rxfr
  | .rxPhyHeaderError, f => f == .rxphe
  | .rxPreambleTimeout, f => f == .rxpto
  | .rxSfdTimeout, f => f == .rxsfdto

/-- A register of plain storage (R91, D6). -/
def plainStorage (r : Reg) : Bool := r == .eui64 || r == .sysCfg || r == .txFctrl

end Sys2Proof.Machine
end

