-- ==== Sys2Proof/Certificates/Slice0/Obligations.lean ====
section
/-! DEFINITION. The statements for the provers. "Carried whole" means that TRANSPORT's plan for the transaction is `ok`;
`completed ops sent got ret d s` is `s` after a transaction, everything not named in it unchanged (Safety). -/

section

open Sys2Proof Sys2Proof.Machine

/-! ### Encoding -/

/-- R101, R103: the bits of the two header bytes, whatever the naturals given, and their order on the wire. -/
def Obligations.HeaderBitsAreTheFields : Prop :=
  (∀ (fileId sub : Nat) (wr : Bool),
    (headerByte0 fileId sub wr).getLsbD 7 = wr ∧
    (headerByte0 fileId sub wr).getLsbD 6 = true ∧
    (∀ i, i < 5 → (headerByte0 fileId sub wr).getLsbD (1 + i) = fileId.testBit i) ∧
    (headerByte0 fileId sub wr).getLsbD 0 = sub.testBit 6 ∧
    (∀ i, i < 6 → (headerByte1 sub).getLsbD (2 + i) = sub.testBit i) ∧
    (headerByte1 sub).getLsbD 1 = false ∧ (headerByte1 sub).getLsbD 0 = false) ∧
  ∀ (cfg : Config) (r : Reg) (wr : Bool),
    regHeader cfg r wr =
      [headerByte0 (regAddr cfg r).fileId.toNat (regAddr cfg r).subAddress.toNat wr,
       headerByte1 (regAddr cfg r).subAddress.toNat]

/-- R104: the device's latches after the two header bytes are the fields of the bytes, whatever the mode and the
address; and after an encoded header they are the values encoded, with mode 0. -/
def Obligations.DeviceRecoversTheHeader : Prop :=
  (∀ (cfg : Config) (d : Decoder) (b0 b1 : Byte), b0.getLsbD 6 = true →
    let d' := slot1 cfg (slot0 d (.write b0)) (.write b1)
    d'.wr = b0.getLsbD 7 ∧ d'.fid = b0.extractLsb' 1 5 ∧
    d'.sub = ((b0.extractLsb' 0 1).setWidth 7 <<< 6) ||| (b1.extractLsb' 2 6).setWidth 7 ∧
    d'.mode = b1.extractLsb' 0 2) ∧
  ∀ (cfg : Config) (d : Decoder) (fid : BitVec 5) (sub : BitVec 7) (wr : Bool),
    let d' := slot1 cfg (slot0 d (.write (headerByte0 fid.toNat sub.toNat wr))) (.write (headerByte1 sub.toNat))
    d'.wr = wr ∧ d'.fid = fid ∧ d'.sub = sub ∧ d'.mode = 0

/-- R106: the fast-command byte is the formula, for every natural code; the mask reduces it modulo 32; the device
recovers the low five bits of the code. -/
def Obligations.FastByteOfEveryCode : Prop :=
  (∀ code : Nat, (fcByte code).toNat = (1 <<< 7) ||| ((code &&& 0x1F) <<< 1) ||| 1) ∧
  (∀ code : Nat, fcByte (code + 32) = fcByte code) ∧
  (∀ (code : Nat) (d : Decoder),
    slot0 d (.write (fcByte code)) = { d with phase := .fast, code := BitVec.ofNat 5 code }) ∧
  fcByte 0x0E = 0x9D

/-- R109: the match and mask of each class of first byte, and what the decoder makes of it; with the five codes of
R108 each named command is one byte, and every other fast-command byte is unassigned. -/
def Obligations.MatchAndMaskDecode : Prop :=
  (∀ (cfg : Config) (b0 b1 : Byte) (xs : List Slot) (wr : Bool),
    (b0 ++ b1) &&& (0xC003 : BitVec 16) = (if wr then 0xC000 else 0x4000) →
    decode cfg (.write b0 :: .write b1 :: xs) =
      decodeBody cfg wr (b0.extractLsb' 1 5)
        (((b0.extractLsb' 0 1).setWidth 7 <<< 6) ||| (b1.extractLsb' 2 6).setWidth 7) xs) ∧
  (∀ (cfg : Config) (b0 : Byte), b0 &&& 0xC1 = 0x81 →
    decode cfg [.write b0] = .instr (fastInstr cfg (b0.extractLsb' 1 5))) ∧
  (∀ cfg : Config, cfg.cmd = defaultCmd →
    decode cfg [.write 0x83] = .instr .fcTx ∧ decode cfg [.write 0x85] = .instr .fcRx ∧
    decode cfg [.write 0x87] = .instr .fcIdle ∧ decode cfg [.write 0x89] = .instr .fcDrxdb ∧
    decode cfg [.write 0x9D] = .instr .fcClrirq ∧
    ∀ b0 : Byte, b0 &&& 0xC1 = 0x81 → b0 ≠ 0x83 → b0 ≠ 0x85 → b0 ≠ 0x87 → b0 ≠ 0x89 → b0 ≠ 0x9D →
      decode cfg [.write b0] = .instr (.reservedFcUnassigned (b0.extractLsb' 1 5)))

/-- Decoding inverts encoding, for every well-formed instruction under every well-formed configuration: the slots of
the encoding decode to the instruction's wire form, which is the instruction itself but for the wrappers (R121) and
the generic fast command (R108). -/
def Obligations.DecodeOfEncode : Prop :=
  ∀ (cfg : Config) (i : Instr), cfg.wf = true → wellFormed cfg i = true →
    decode cfg (expand (encode cfg i)) = .instr (wireInstr cfg i)

/-- Words of 95_test_vectors.md (V1, V2, V3), read by the decoder. A sanity statement. -/
def Obligations.SpecWordsDecode : Prop :=
  decodeTableWord 16 0x4110 = some (.rd .sysStatus 0) ∧
  decodeTableWord 16 0x6400 = some (.rd .rxBuffer 0) ∧
  decodeTableWord 16 0xE800 = some (.wr .txBuffer []) ∧
  decodeTableWord 16 0xC090 = some (.wr .txFctrl []) ∧
  decodeTableWord 8 0x83 = some .fcTx ∧
  decodeTableWord 8 0x9D = some .fcClrirq ∧
  decodeTableWord 16 0x4111 = some (.reservedFaMode1 false 0 0x44) ∧
  decodeTableWord 8 0x3F = some (.reservedB000 0x3F) ∧
  decodeTableWord 8 0xBF = some (.reservedFcUnassigned 0x1F)

/-- HOST's move on a call is the execution of the decoded instruction: a raw transaction that TRANSPORT carries whole,
an instruction called by itself, and the bits placed by `withFetchWord`, which also makes the handle `Ready`. Around it:
the call and the turn are used up, the turn's plan is TRANSPORT's, and no result stands yet. The model's choices, none of
them a rule of the spec: that such a call exists and is taken on a `Ready` handle (log entry 28), that a raw call is the
decoded instruction with that instruction's flight and record (log entry 29; first and third clause), that the result is
cleared (log entry 23), and how `withFetchWord` places the bits (log entry 8). -/
def Obligations.StepRunsTheDecodedInstruction : Prop :=
  (∀ (s : State) (subops : List SubOp) (i : Instr) (cs : List Call) (ts : List Turn),
    s.pos = .idle → s.lifecycle = .ready → s.calls = .wire subops :: cs → decode s.cfg (expand subops) = .instr i →
    (s.turns = .host .ok :: ts →
      step s = exec i { s with calls := cs, turns := ts, bus := { s.bus with plan := .ok }, result := none }) ∧
    (s.turns = [] → s.bus.plan = .ok → step s = exec i { s with calls := cs, result := none })) ∧
  (∀ (s : State) (i : Instr) (cs : List Call) (p : Plan) (ts : List Turn),
    s.pos = .idle → s.lifecycle = .ready → s.calls = .instr i :: cs → s.turns = .host p :: ts →
    step s = exec i { s with calls := cs, turns := ts, bus := { s.bus with plan := p }, result := none }) ∧
  ∀ (s : State) (nbits w : Nat) (i : Instr),
    decode s.cfg ((wordBytes ((nbits + 7) / 8) w).map .write) = .instr i →
    step (s.withFetchWord nbits w) =
      exec i { s with lifecycle := .ready, pos := .idle, bus := { s.bus with plan := .ok }, result := none }

/-! ### Refusals -/

/-- R114: whatever follows, a delivered first byte of no defined class is refused; so are the two rows of the table. -/
def Obligations.ReservedFirstByteRefused : Prop :=
  (∀ (s : State) (ops : List SubOp) (b0 : Byte) (xs : List Slot),
    delivered s.bus.plan (expand ops) = .write b0 :: xs →
    b0.getLsbD 6 = false → (b0.getLsbD 7 = false ∨ b0.getLsbD 0 = false) →
    transact ops s = .refused .reservedFirstByte) ∧
  (∀ (s : State) (low : BitVec 6), exec (.reservedB000 low) s = .refused .reservedFirstByte) ∧
  ∀ (s : State) (mid : BitVec 5), exec (.reservedB010x0 mid) s = .refused .reservedFirstByte

/-- R115: whatever follows, a delivered full-addressed header with mode 1, 2 or 3 is refused; so are the three rows. -/
def Obligations.ReservedModeRefused : Prop :=
  (∀ (s : State) (ops : List SubOp) (b0 b1 : Byte) (xs : List Slot),
    delivered s.bus.plan (expand ops) = .write b0 :: .write b1 :: xs →
    b0.getLsbD 6 = true → b1.extractLsb' 0 2 ≠ 0 → transact ops s = .refused .reservedMode) ∧
  ∀ (s : State) (wr : Bool) (fid : BitVec 5) (sub : BitVec 7),
    exec (.reservedFaMode1 wr fid sub) s = .refused .reservedMode ∧
    exec (.reservedFaMode2 wr fid sub) s = .refused .reservedMode ∧
    exec (.reservedFaMode3 wr fid sub) s = .refused .reservedMode

/-- R116: a delivered fast command whose code is not one of the five is refused; with AT's codes these are 0x00, 0x05 to
0x0D and 0x0F to 0x1F; the encoder still makes a byte of the fast-command form for them. -/
def Obligations.UnassignedCodeRefused : Prop :=
  (∀ (s : State) (code : Nat), deliveredCount s.bus.plan 1 = 1 → assignedCode s.cfg (BitVec.ofNat 5 code) = false →
    exec (.fc code) s = .refused .unassignedCode) ∧
  (∀ (s : State) (code : BitVec 5), exec (.reservedFcUnassigned code) s = .refused .unassignedCode) ∧
  (∀ (cfg : Config) (c : BitVec 5), cfg.cmd = defaultCmd →
    (assignedCode cfg c = false ↔ c = 0x00 ∨ (0x05 ≤ c ∧ c ≤ 0x0D) ∨ 0x0F ≤ c)) ∧
  ∀ (cfg : Config) (code : BitVec 5),
    encode cfg (.reservedFcUnassigned code) = [.write [fcByte code.toNat]] ∧ fcByte code.toNat &&& 0xC1 = 0x81

/-- R78: a header whose address is not exactly a catalog pair is refused, whatever follows; so is a data phase longer
than the register. -/
def Obligations.UndescribedAccessRefused : Prop :=
  (∀ (s : State) (ops : List SubOp) (b0 b1 : Byte) (xs : List Slot),
    delivered s.bus.plan (expand ops) = .write b0 :: .write b1 :: xs →
    b0.getLsbD 6 = true → b1.extractLsb' 0 2 = 0 →
    (∀ r : Reg, regAddr s.cfg r ≠ ⟨hdrFid b0, joinSub (hdrSubHigh b0) (hdrSubLow b1)⟩) →
    transact ops s = .refused .notInCatalog) ∧
  ∀ (s : State) (r : Reg), s.cfg.wf = true → s.bus.plan = .ok →
    (∀ n, readable r = true → regLength r < n → exec (.rd r n) s = .refused .dataTooLong) ∧
    (∀ data, writable r = true → regLength r < data.length → exec (.wr r data) s = .refused .dataTooLong)

/-- A direction that the register's access right does not allow is refused (R28, R111): the reads of `TX_BUFFER`, the
writes of `DEV_ID`, `RX_FINFO` and `RX_BUFFER`, by the primitive and by the wrapper. -/
def Obligations.AccessRightRefused : Prop :=
  (∀ r : Reg, readable r = false ↔ r = .txBuffer) ∧
  (∀ r : Reg, writable r = false ↔ r = .devId ∨ r = .rxFinfo ∨ r = .rxBuffer) ∧
  ∀ (s : State) (r : Reg), s.cfg.wf = true → s.bus.plan = .ok →
    (readable r = false → (∀ n, exec (.rd r n) s = .refused .accessRight) ∧ exec (.rdu32 r) s = .refused .accessRight) ∧
    (writable r = false →
      (∀ data, exec (.wr r data) s = .refused .accessRight) ∧ ∀ v, exec (.wru32 r v) s = .refused .accessRight)

/-- R117: the malformed shapes are refused (a slot after a fast command, a read slot where the header is expected, a data
slot of the wrong direction, a data phase longer than the register), and a transaction cut short inside its header is
none of them: it has no effect. -/
def Obligations.MalformedShapesRefused : Prop :=
  (∀ (s : State) (ops : List SubOp) (code : Nat) (x : Slot) (xs : List Slot),
    delivered s.bus.plan (expand ops) = .write (fcByte code) :: x :: xs → transact ops s = .refused .slotAfterFast) ∧
  (∀ (s : State) (ops : List SubOp) (xs : List Slot),
    delivered s.bus.plan (expand ops) = .read :: xs → transact ops s = .refused .slotDirection) ∧
  (∀ (s : State) (ops : List SubOp) (b0 : Byte) (xs : List Slot), b0.getLsbD 6 = true →
    delivered s.bus.plan (expand ops) = .write b0 :: .read :: xs → transact ops s = .refused .slotDirection) ∧
  ∀ (s : State) (r : Reg), s.cfg.wf = true → s.bus.plan = .ok →
    (∀ (data : List Byte) (n : Nat), writable r = true → data.length < regLength r → 0 < n →
      transact [.write (regHeader s.cfg r true), .write data, .read n] s = .refused .slotDirection) ∧
    (∀ (data : List Byte) (n : Nat), readable r = true → n < regLength r → data ≠ [] →
      transact [.write (regHeader s.cfg r false), .read n, .write data] s = .refused .slotDirection) ∧
    (∀ data : List Byte, writable r = true → regLength r < data.length →
      transact [.write (regHeader s.cfg r true), .write data] s = .refused .dataTooLong) ∧
    (∀ n : Nat, readable r = true → regLength r < n →
      transact [.write (regHeader s.cfg r false), .read n] s = .refused .dataTooLong) ∧
    ∃ t, transact [.write ((regHeader s.cfg r true).take 1)] s = .next t ∧ t.dev = s.dev

/-- Chip-select that rises inside the header has no effect and is no refusal (R113): the device is as it was, whatever
the plan that cut the transaction there. The model's choice: that the record of a transaction that failed or was cut
holds exactly the bytes that arrived (log entry 19, DESIGN CHOICE). -/
def Obligations.CutHeaderHasNoEffect : Prop :=
  ∀ (s : State) (ops : List SubOp),
    (delivered s.bus.plan (expand ops) = [] ∨
      ∃ b0 : Byte, b0.getLsbD 6 = true ∧ delivered s.bus.plan (expand ops) = [.write b0]) →
    ∃ t, transact ops s = .next t ∧ t.dev = s.dev ∧ t.dec.phase = .idle ∧ t.bus.cs = .high ∧
      SentBetween s t (sentBytes (delivered s.bus.plan (expand ops)))

/-! ### Register transactions -/

/-- R130: `RD reg, n` on a readable register with `n` at most its length returns its first `n` bytes, taken at one
instant, and changes nothing else than the record, the encoder's and the transport's registers and the draw that a read
of `SYS_STATUS` uses; a failing transport raises `TransportError` and changes nothing in the device; a longer read, or a
read of the write-only register, is refused. -/
def Obligations.RdReturnsTheRegister : Prop :=
  ∀ (s : State) (r : Reg) (n : Nat), s.cfg.wf = true →
    (s.bus.plan = .ok → readable r = true → n ≤ regLength r →
      ∃ d got, got.length = n ∧ (∀ k, k < n → got[k]? = some (registerByte s.cfg s.dev (drawWord s) r k)) ∧
        exec (.rd r n) s =
          .next (completed (encode s.cfg (.rd r n)) (regHeader s.cfg r false) got .ok d
            (sampled r (loadHeader r false s)))) ∧
    (∀ k e, s.bus.plan = .fail k e → readable r = true → n ≤ regLength r →
      ∃ t, exec (.rd r n) s = .next t ∧ t.result = some (.error (.transport e)) ∧ t.dev = s.dev) ∧
    (s.bus.plan = .ok → readable r = true → regLength r < n → exec (.rd r n) s = .refused .dataTooLong) ∧
    (s.bus.plan = .ok → readable r = false → exec (.rd r n) s = .refused .accessRight)

/-- R131: `WR reg, data` on a writable register with `data` no longer than it sends header and data as one run and
commits `data` as the table says (`WriteEffect`), changing nothing else than the record and the encoder's and the
transport's registers; a failing transport raises `TransportError`; a longer write, or a write of a register that is not
writable, is refused. -/
def Obligations.WrCommitsTheBytes : Prop :=
  ∀ (s : State) (r : Reg) (data : List Byte), s.cfg.wf = true →
    (s.bus.plan = .ok → writable r = true → data.length ≤ regLength r →
      ∃ d dev', WriteEffect s.cfg r data s.dev dev' ∧
        exec (.wr r data) s =
          .next (completed (encode s.cfg (.wr r data)) (regHeader s.cfg r true ++ data) [] .ok d
            { loadHeader r true s with dev := dev' })) ∧
    (∀ k e, s.bus.plan = .fail k e → writable r = true → data.length ≤ regLength r →
      ∃ t, exec (.wr r data) s = .next t ∧ t.result = some (.error (.transport e))) ∧
    (s.bus.plan = .ok → writable r = true → regLength r < data.length → exec (.wr r data) s = .refused .dataTooLong) ∧
    (s.bus.plan = .ok → writable r = false → exec (.wr r data) s = .refused .accessRight)

/-- From R84: what a transaction has done that TRANSPORT ends after `k` delivered slots, by failing or, with the same
effects, because the caller's task is abandoned inside it (R252): inside the header nothing, after a write header the
bytes that arrived, a delivered fast command its action, with what it emits (the `AirTx` of `FC.TX`), a read nothing;
the bytes that arrived are recorded, chip-select is high and the operation ends with `TransportError`, or with nothing.
A named command is `FC` of its code. The effects are R84's; the model's choice, and no rule of the spec, are the history
clauses: that the record of a transaction that failed or was cut holds exactly the bytes that arrived (log entry 19,
DESIGN CHOICE), and that an abandoned transaction is recorded as such (log entry 19). -/
def Obligations.FailedTransactionCommitsThePrefix : Prop :=
  (∀ (s : State) (k : Nat) (ret : XRet), s.cfg.wf = true → CutShort s.bus.plan k ret →
    (∀ (r : Reg) (data : List Byte), writable r = true → data.length ≤ regLength r →
      ∃ t, exec (.wr r data) s = .next t ∧ EndedBy ret t ∧
        t.history = s.history ++
          [.xact (encode s.cfg (.wr r data)) ((regHeader s.cfg r true ++ data).take k) [] ret] ∧
        (k < 2 → t.dev = s.dev) ∧ (2 ≤ k → WriteEffect s.cfg r (data.take (k - 2)) s.dev t.dev)) ∧
    (∀ (r : Reg) (n : Nat), readable r = true → n ≤ regLength r →
      ∃ t got, exec (.rd r n) s = .next t ∧ EndedBy ret t ∧
        t.history = s.history ++ [.xact (encode s.cfg (.rd r n)) ((regHeader s.cfg r false).take k) got ret] ∧
        t.dev = s.dev) ∧
    (∀ code : Nat, k = 0 →
      ∃ t, exec (.fc code) s = .next t ∧ EndedBy ret t ∧
        t.history = s.history ++ [.xact [.write [fcByte code]] [] [] ret] ∧ t.dev = s.dev) ∧
    ∀ (code : Nat) (out : Device × List HistEvent), 1 ≤ k →
      command s.cfg (BitVec.ofNat 5 code) s.dev = .next out →
      ∃ t added, exec (.fc code) s = .next t ∧ EndedBy ret t ∧ t.history = s.history ++ added ∧
        Records (.xact [.write [fcByte code]] [fcByte code] [] ret) out.2 added ∧ t.dev = out.1) ∧
  ∀ s : State,
    exec .fcTx s = exec (.fc s.cfg.cmd.tx.toNat) s ∧ exec .fcRx s = exec (.fc s.cfg.cmd.rx.toNat) s ∧
    exec .fcIdle s = exec (.fc s.cfg.cmd.idle.toNat) s ∧ exec .fcDrxdb s = exec (.fc s.cfg.cmd.drxdb.toNat) s ∧
    exec .fcClrirq s = exec (.fc s.cfg.cmd.clrirq.toNat) s

/-- R132: `RDU32 reg` is `RD reg, 4` with the four bytes as a little-endian value; a transport error of the read
propagates. -/
def Obligations.Rdu32ReadsAWord : Prop :=
  (∀ (s : State) (r : Reg), s.cfg.wf = true → s.bus.plan = .ok → readable r = true →
    ∃ d got v, got.length = 4 ∧ (∀ k, k < 4 → got[k]? = some (registerByte s.cfg s.dev (drawWord s) r k)) ∧
      (∀ k, k < 4 → v.extractLsb' (8 * k) 8 = registerByte s.cfg s.dev (drawWord s) r k) ∧
      exec (.rdu32 r) s =
        .next
          (let t := completed (encode s.cfg (.rd r 4)) (regHeader s.cfg r false) got .ok d
            (sampled r (loadHeader r false s))
           { t with regs := { t.regs with rval := v } })) ∧
  ∀ (s t : State) (r : Reg), exec (.rd r 4) s = .next t → t.bus.ret ≠ .ok → exec (.rdu32 r) s = .next t

/-- R133: `WRU32 reg, v` is `WR reg` of the four bytes of `v`, low byte first, and completes as that write does. -/
def Obligations.Wru32WritesAWord : Prop :=
  ∀ (s : State) (r : Reg) (v : BitVec 32),
    exec (.wru32 r v) s =
      exec (.wr r [v.extractLsb' 0 8, v.extractLsb' 8 8, v.extractLsb' 16 8, v.extractLsb' 24 8]) s ∧
    (s.cfg.wf = true → s.bus.plan = .ok → writable r = true →
      ∃ d dev', WriteEffect s.cfg r (le32 v) s.dev dev' ∧ (r = .sysCfg → dev'.sysCfg = v) ∧
        (r = .txFctrl → dev'.txFctrl = v) ∧
        exec (.wru32 r v) s =
          .next (completed (encode s.cfg (.wru32 r v)) (regHeader s.cfg r true ++ le32 v) [] .ok d
            { loadHeader r true s with dev := dev' }))

/-- R134: splitting and assembling a 32-bit value are inverse, and a value written to a register of plain storage is
the value read back. -/
def Obligations.LittleEndianRoundTrip : Prop :=
  (∀ v : BitVec 32, unle32 (le32 v) = v) ∧ (∀ b : List Byte, b.length = 4 → le32 (unle32 b) = b) ∧
  ∀ (s : State) (r : Reg) (v : BitVec 32), s.cfg.wf = true → s.bus.plan = .ok → plainStorage r = true →
    ∃ t u, exec (.wru32 r v) s = .next t ∧ exec (.rdu32 r) t = .next u ∧ u.regs.rval = v

/-- A read of a register of plain storage returns the bytes of the committed write before it, and past them the bytes
the register held (R91, R131). -/
def Obligations.WriteThenReadBack : Prop :=
  ∀ (s : State) (r : Reg) (data : List Byte) (n : Nat), s.cfg.wf = true → s.bus.plan = .ok → plainStorage r = true →
    data.length ≤ regLength r → n ≤ regLength r →
    ∃ t u, exec (.wr r data) s = .next t ∧ exec (.rd r n) t = .next u ∧ u.regs.rbytes.length = n ∧
      ∀ k, k < n → u.regs.rbytes[k]? = some (data.getD k (registerByte s.cfg s.dev 0 r k))

/-! ### The status register -/

/-- R170: `RDU32 SYS_STATUS` returns the seven flags at their positions and the draw in every other bit, and changes
nothing in the device, under any plan. -/
def Obligations.StatusReadShowsTheFlags : Prop :=
  ∀ s : State, s.cfg.wf = true →
    (s.bus.plan = .ok →
      ∃ t, exec (.rdu32 .sysStatus) s = .next t ∧ t.dev = s.dev ∧
        (∀ f : Flag, t.regs.rval.getLsbD (flagPosition s.cfg f) = getFlag s.dev.flags f) ∧
        (∀ i, (∀ f : Flag, flagPosition s.cfg f ≠ i) → t.regs.rval.getLsbD i = (drawWord s).getLsbD i) ∧
        SentBetween s t (regHeader s.cfg .sysStatus false)) ∧
    ∀ k e, s.bus.plan = .fail k e →
      ∃ t, exec (.rdu32 .sysStatus) s = .next t ∧ t.dev = s.dev ∧ t.result = some (.error (.transport e))

/-- R171: the host's test of a flag reads the bit at its position, the test of the two error flags at once is true if
either bit is set, and two words that agree at the seven positions are tested alike. -/
def Obligations.FlagTestReadsTheFlag : Prop :=
  (∀ (cfg : Config) (s : BitVec 32) (f : Flag), testFlag cfg s f = s.getLsbD (flagPosition cfg f)) ∧
  (∀ (cfg : Config) (s : BitVec 32),
    (s &&& (flagMask cfg .rxfce ||| flagMask cfg .rxphe) != 0) = (testFlag cfg s .rxfce || testFlag cfg s .rxphe)) ∧
  ∀ (cfg : Config) (s s' : BitVec 32),
    (∀ f : Flag, s.getLsbD (flagPosition cfg f) = s'.getLsbD (flagPosition cfg f)) →
    (∀ f : Flag, testFlag cfg s f = testFlag cfg s' f) ∧
    (s &&& errorMask cfg != 0) = (s' &&& errorMask cfg != 0) ∧ (s &&& goodMask cfg != 0) = (s' &&& goodMask cfg != 0)

/-- R172, R173, R174: a write of 0 to 4 bytes to `SYS_STATUS`, under any plan, clears exactly the flags with a 1 in the
bytes that arrived, sets none, and changes nothing else in the device; ones elsewhere do nothing. -/
def Obligations.W1cClearsExactlyTheOnes : Prop :=
  (∀ (s : State) (data : List Byte), s.cfg.wf = true → data.length ≤ 4 →
    ∃ t, exec (.wr .sysStatus data) s = .next t ∧ t.dev = { s.dev with flags := t.dev.flags } ∧
      ∀ f : Flag, getFlag t.dev.flags f =
        (getFlag s.dev.flags f &&
          !(decide (flagPosition s.cfg f < 8 * (arrived s.bus.plan data).length) &&
            bitAtFlag s.cfg (arrived s.bus.plan data) f))) ∧
  (∀ (s : State) (w : BitVec 32), s.cfg.wf = true → s.bus.plan = .ok →
    ∃ t, exec (.wru32 .sysStatus w) s = .next t ∧
      ∀ f : Flag, getFlag t.dev.flags f = (getFlag s.dev.flags f && !(w.getLsbD (flagPosition s.cfg f)))) ∧
  ∀ (cfg : Config) (d : Device) (w w' : BitVec 32),
    (∀ f : Flag, w.getLsbD (flagPosition cfg f) = w'.getLsbD (flagPosition cfg f)) →
    commitWrite cfg .sysStatus (le32 w) d = commitWrite cfg .sysStatus (le32 w') d

/-- R176: the laws (a) to (g) of the clearing write, at its commit. -/
def Obligations.W1cLaws : Prop :=
  ∀ (cfg : Config) (d : Device),
    let clear := fun (w : BitVec 32) (d : Device) => commitWrite cfg .sysStatus (le32 w) d
    (∀ w, clear w (clear w d) = clear w d) ∧
    (∀ w w', clear w' (clear w d) = clear (w ||| w') d ∧ clear w (clear w' d) = clear (w ||| w') d) ∧
    (∀ (f g : Flag), cfg.wf = true → g ≠ f → getFlag (clear (flagMask cfg f) d).flags g = getFlag d.flags g) ∧
    (∀ w, (∀ f : Flag, w.getLsbD (flagPosition cfg f) = true → getFlag d.flags f = false) → clear w d = d) ∧
    clear 0 d = d ∧
    (∀ (w : BitVec 32) (f : Flag), getFlag (clear w d).flags f = true → getFlag d.flags f = true) ∧
    ∀ (free : BitVec 32) (d' : Device) (f : Flag), cfg.wf = true →
      getFlag (clear (statusWord cfg d.flags free) d').flags f = (getFlag d'.flags f && !(getFlag d.flags f))

/-- R177: the values of the three clearing writes of the driver, that no other line of the driver issues one, and that
the two readings of `recv`'s value leave the device in the same state. -/
def Obligations.ClearingWritesOfTheDriver : Prop :=
  (∀ s : State, s.cfg.wf = true → s.turns = [] → s.bus.plan = .ok →
    let wrote := fun (t : State) (w : BitVec 32) =>
      t.history = s.history ++ [.xact [.write (regHeader s.cfg .sysStatus true), .write (le32 w)]
        (regHeader s.cfg .sysStatus true ++ le32 w) [] .ok]
    let value := fun (m : BitVec 32) => match s.cfg.clearWrite with
      | .observed => s.regs.s &&& m
      | .constant => m
    (s.pos = .send4Clear → ∃ t, step s = .next t ∧ wrote t (flagMask s.cfg .txfrs)) ∧
    (s.pos = .recv2Clear → ∃ t, step s = .next t ∧
      wrote t (value (flagMask s.cfg .rxfr ||| flagMask s.cfg .rxfcg))) ∧
    (s.pos = .recv2ErrClear → ∃ t, step s = .next t ∧
      wrote t (value (flagMask s.cfg .rxfce ||| flagMask s.cfg .rxphe)))) ∧
  (∀ (s t : State) (data sent got : List Byte) (ret : XRet) (added : List HistEvent), s.cfg.wf = true → s.pos ≠ .idle →
    step s = .next t → t.history = s.history ++ added →
    .xact [.write (regHeader s.cfg .sysStatus true), .write data] sent got ret ∈ added →
    s.pos = .send4Clear ∨ s.pos = .recv2Clear ∨ s.pos = .recv2ErrClear) ∧
  ∀ (cfg : Config) (d : Device) (free m : BitVec 32), cfg.wf = true →
    commitWrite cfg .sysStatus (le32 (statusWord cfg d.flags free &&& m)) d = commitWrite cfg .sysStatus (le32 m) d

/-! ### Fast commands -/

/-- R150: `FC code` sends one byte, and the device performs the action of the low five bits of the code; for a code with
no rule the model refuses; a failing transport raises `TransportError`. -/
def Obligations.FcRunsTheCommand : Prop :=
  ∀ (s : State) (code : Nat), s.cfg.wf = true →
    (s.bus.plan = .ok →
      (BitVec.ofNat 5 code = s.cfg.cmd.tx ∨ BitVec.ofNat 5 code = s.cfg.cmd.rx ∨
        BitVec.ofNat 5 code = s.cfg.cmd.idle ∨ BitVec.ofNat 5 code = s.cfg.cmd.clrirq) →
      ∃ d dev' hist added, Records (.xact [.write [fcByte code]] [fcByte code] [] .ok) hist added ∧
        exec (.fc code) s =
          .next
            { completed [.write [fcByte code]] [fcByte code] [] .ok d
                { s with regs := { s.regs with cmd := fcByte code } } with
              dev := dev'
              history := s.history ++ added } ∧
        (BitVec.ofNat 5 code = s.cfg.cmd.tx → (dev', hist) = commandTx s.dev) ∧
        (BitVec.ofNat 5 code = s.cfg.cmd.rx → (dev', hist) = commandRx s.dev) ∧
        (BitVec.ofNat 5 code = s.cfg.cmd.idle → (dev', hist) = commandIdle s.dev) ∧
        (BitVec.ofNat 5 code = s.cfg.cmd.clrirq → (dev', hist) = commandClrirq s.dev)) ∧
    (s.bus.plan = .ok → assignedCode s.cfg (BitVec.ofNat 5 code) = false →
      exec (.fc code) s = .refused .unassignedCode) ∧
    (s.bus.plan = .ok → BitVec.ofNat 5 code = s.cfg.cmd.drxdb →
      exec (.fc code) s = .refused .delayedDoubleBufferedRx) ∧
    ∀ k e, s.bus.plan = .fail k e →
      (assignedCode s.cfg (BitVec.ofNat 5 code) = true ∧ BitVec.ofNat 5 code ≠ s.cfg.cmd.drxdb ∨ k = 0) →
      ∃ t, exec (.fc code) s = .next t ∧ t.result = some (.error (.transport e))

/-- R153: `FC.TX` with the transceiver idle and a length of at least 2 hands `TX_BUFFER[0 .. L-2)` to the radio and
starts it; otherwise the mode is unknown and nothing is recorded; no flag changes. -/
def Obligations.FcTxStartsTheFrame : Prop :=
  (∀ cfg : Config, cfg.cmd = defaultCmd → encode cfg .fcTx = [.write [0x83]]) ∧
  ∀ s : State, s.cfg.wf = true →
    let L := (s.dev.txFctrl.extractLsb' 0 10).toNat
    let b := fcByte s.cfg.cmd.tx.toNat
    (s.bus.plan = .ok → s.dev.trx = .idle → 2 ≤ L →
      ∃ d frame added, frame.length = L - 2 ∧ (∀ k, k < L - 2 → frame[k]? = some (txByte s.dev k)) ∧
        Records (.xact [.write [b]] [b] [] .ok) [.airTx frame] added ∧
        exec .fcTx s =
          .next
            { completed [.write [b]] [b] [] .ok d { s with regs := { s.regs with cmd := b } } with
              dev := { s.dev with trx := .tx }
              history := s.history ++ added }) ∧
    (s.bus.plan = .ok → (s.dev.trx ≠ .idle ∨ L < 2) →
      ∃ d, exec .fcTx s =
        .next (completed [.write [b]] [b] [] .ok d
          { s with regs := { s.regs with cmd := b }, dev := { s.dev with trx := .unknown } })) ∧
    ∀ k e, s.bus.plan = .fail k e → ∃ t, exec .fcTx s = .next t ∧ t.result = some (.error (.transport e))

/-- R154: `FC.RX` turns the receiver on from idle; from any other mode the mode is unknown; nothing else of the device
changes, in particular no flag and neither `RX_BUFFER` nor `RX_FINFO`. -/
def Obligations.FcRxEnablesTheReceiver : Prop :=
  (∀ cfg : Config, cfg.cmd = defaultCmd → encode cfg .fcRx = [.write [0x85]]) ∧
  ∀ s : State, s.cfg.wf = true →
    let b := fcByte s.cfg.cmd.rx.toNat
    (s.bus.plan = .ok →
      ∃ d, exec .fcRx s =
        .next (completed [.write [b]] [b] [] .ok d
          { s with
            regs := { s.regs with cmd := b }
            dev := { s.dev with trx := if s.dev.trx = .idle then .rx else .unknown } })) ∧
    ∀ k e, s.bus.plan = .fail k e → ∃ t, exec .fcRx s = .next t ∧ t.result = some (.error (.transport e))

/-- R155: `FC.IDLE` forces the transceiver idle from any mode and changes nothing else of the device; a second one
changes nothing of it; then no RADIO event is enabled. -/
def Obligations.FcIdleForcesIdle : Prop :=
  (∀ cfg : Config, cfg.cmd = defaultCmd → encode cfg .fcIdle = [.write [0x87]]) ∧
  ∀ s : State, s.cfg.wf = true →
    let b := fcByte s.cfg.cmd.idle.toNat
    (s.bus.plan = .ok →
      ∃ d, exec .fcIdle s =
        .next (completed [.write [b]] [b] [] .ok d
          { s with regs := { s.regs with cmd := b }, dev := { s.dev with trx := .idle } })) ∧
    (∀ t, s.bus.plan = .ok → exec .fcIdle s = .next t →
      (∀ ev, enabled t.dev.trx ev = false) ∧ ∃ u, exec .fcIdle t = .next u ∧ u.dev = t.dev) ∧
    ∀ k e, s.bus.plan = .fail k e → ∃ t, exec .fcIdle s = .next t ∧ t.result = some (.error (.transport e))

/-- R156: a delivered `FC.DRXDB` is refused, by its mnemonic and by its code; HOST's side is the byte, and a transport
that fails before delivering it raises `TransportError` with the device as it was. -/
def Obligations.FcDrxdbRefused : Prop :=
  (∀ cfg : Config, cfg.cmd = defaultCmd → encode cfg .fcDrxdb = [.write [0x89]]) ∧
  ∀ s : State, s.cfg.wf = true →
    (deliveredCount s.bus.plan 1 = 1 →
      exec .fcDrxdb s = .refused .delayedDoubleBufferedRx ∧
      ∀ code : Nat, BitVec.ofNat 5 code = s.cfg.cmd.drxdb → exec (.fc code) s = .refused .delayedDoubleBufferedRx) ∧
    ∀ e, s.bus.plan = .fail 0 e →
      ∃ t, exec .fcDrxdb s = .next t ∧ t.result = some (.error (.transport e)) ∧ t.dev = s.dev

/-- R157: `FC.CLRIRQ` clears all seven flags and changes nothing else of the device. -/
def Obligations.FcClrirqClearsAllFlags : Prop :=
  (∀ cfg : Config, cfg.cmd = defaultCmd → encode cfg .fcClrirq = [.write [0x9D]]) ∧
  ∀ s : State, s.cfg.wf = true →
    let b := fcByte s.cfg.cmd.clrirq.toNat
    (s.bus.plan = .ok →
      ∃ d fl, (∀ f : Flag, getFlag fl f = false) ∧
        exec .fcClrirq s =
          .next (completed [.write [b]] [b] [] .ok d
            { s with regs := { s.regs with cmd := b }, dev := { s.dev with flags := fl } })) ∧
    ∀ k e, s.bus.plan = .fail k e → ∃ t, exec .fcClrirq s = .next t ∧ t.result = some (.error (.transport e))

/-! ### Every instruction -/

/-- From R136, and the frame of every instruction: an instruction that answers a next state has performed exactly one
transaction, the one its encoding says, has left the bus quiet, and has changed no other working register of HOST, no
caller buffer, no input, no parameter and nothing of the diagnostic log; carried whole it leaves the operation around it
as it was. The model's choices, and no rule of the spec: that the record of a transaction that failed or was cut holds
exactly the bytes that arrived (log entry 19, DESIGN CHOICE), and that the working registers keep their values where the
transaction has ended the operation (log entry 30, DESIGN CHOICE). -/
def Obligations.EveryInstructionIsOneTransaction : Prop :=
  ∀ (i : Instr) (s t : State), exec i s = .next t →
    (∃ got hist added, t.history = s.history ++ added ∧
      Records (.xact (encode s.cfg i) (sentBytes (delivered s.bus.plan (expand (encode s.cfg i)))) got
        (planRet s.bus.plan)) hist added ∧
      ∀ e, e ∈ hist → ∃ frame, e = .airTx frame) ∧
    t.bus = { cs := .high, flight := none, plan := .ok, ret := planRet s.bus.plan } ∧ t.dec.phase = .idle ∧
    t.regs = { s.regs with hdr0 := t.regs.hdr0, hdr1 := t.regs.hdr1, cmd := t.regs.cmd, rbytes := t.regs.rbytes,
                           rval := t.regs.rval } ∧
    t.cfg = s.cfg ∧ t.calls = s.calls ∧ t.turns = s.turns ∧ t.diag = s.diag ∧
    (s.bus.plan = .ok → t.lifecycle = s.lifecycle ∧ t.pos = s.pos ∧ t.result = s.result)

/-- R251, R261 and R276: in every step of the machine, a transaction that failed in TRANSPORT ends the operation at
once with `TransportError` carrying the transport's own value; a failed `init` has consumed the handle, any other
operation leaves the lifecycle as it was. -/
def Obligations.TransportErrorEndsTheOperation : Prop :=
  ∀ (s t : State) (ops : List SubOp) (sent got : List Byte) (e : Nat) (added : List HistEvent),
    step s = .next t → t.history = s.history ++ added → .xact ops sent got (.error e) ∈ added →
    t.result = some (.error (.transport e)) ∧ t.pos = .idle ∧
    t.lifecycle = if inInit s.pos then .consumed else s.lifecycle

/-! ### RADIO -/

/-- R202: an event whose parameters fit happens exactly when the transceiver mode enables it. -/
def Obligations.RadioEventsAreEnabledByTheMode : Prop :=
  ∀ (s : State) (ev : RadioEvent) (ts : List Turn), s.turns = .radio ev :: ts → admissible ev = true →
    ((∃ t, step s = .next t ∧ t.history = s.history ++ [.radio ev]) ↔
      (s.dev.trx = .tx ∧ ev = .txDone) ∨ (s.dev.trx = .rx ∧ ev ≠ .txDone) ∨ s.dev.trx = .unknown)

/-- R203, R207, R208: the three events that only raise a flag and end the activity. -/
def Obligations.FlagOnlyEvents : Prop :=
  ∀ (s : State) (ev : RadioEvent) (f : Flag) (ts : List Turn), s.turns = .radio ev :: ts →
    (ev = .txDone ∧ f = .txfrs ∧ s.dev.trx = .tx ∨ ev = .rxPreambleTimeout ∧ f = .rxpto ∧ s.dev.trx = .rx ∨
      ev = .rxSfdTimeout ∧ f = .rxsfdto ∧ s.dev.trx = .rx ∨
      (ev = .txDone ∧ f = .txfrs ∨ ev = .rxPreambleTimeout ∧ f = .rxpto ∨ ev = .rxSfdTimeout ∧ f = .rxsfdto) ∧
        s.dev.trx = .unknown) →
    ∃ fl, (∀ g : Flag, getFlag fl g = (getFlag s.dev.flags g || decide (g = f))) ∧
      step s = .next { s with
        turns := ts
        history := s.history ++ [.radio ev]
        dev := { s.dev with flags := fl, trx := if s.dev.trx = .unknown then .unknown else .idle } }

/-- R204: a good frame delivers its length and its payload, raises `RXFR` and `RXFCG` and ends the reception; the rest
of `RX_FINFO` is the draw and the rest of `RX_BUFFER` is free; nothing else changes. -/
def Obligations.RxGoodDeliversTheFrame : Prop :=
  ∀ (s : State) (len : BitVec 10) (bytes : List Byte) (ts : List Turn), s.turns = .radio (.rxGood len bytes) :: ts →
    bytes.length = len.toNat - 2 → (s.dev.trx = .rx ∨ s.dev.trx = .unknown) →
    ∃ t, step s = .next t ∧
      t = { s with
        turns := ts
        history := s.history ++ [.radio (.rxGood len bytes)]
        drawPool := s.drawPool.tail
        drawCtr := s.drawCtr + 1
        dev := { s.dev with
          flags := t.dev.flags
          rxFinfo := t.dev.rxFinfo
          rxBuffer := t.dev.rxBuffer
          rxDraw := t.dev.rxDraw
          trx := if s.dev.trx = .unknown then .unknown else .idle } } ∧
      t.dev.rxFinfo.extractLsb' 0 10 = len ∧
      (∀ i, 10 ≤ i → t.dev.rxFinfo.getLsbD i = (drawWord s).getLsbD i) ∧
      (∀ k, k < bytes.length → bytes[k]? = some (rxByte t.dev k)) ∧
      (∀ k, bytes.length ≤ k → rxByte t.dev k = Config.freeByte s.drawCtr k) ∧
      ∀ g : Flag, getFlag t.dev.flags g = (getFlag s.dev.flags g || decide (g = .rxfr) || decide (g = .rxfcg))

/-- R205, R206: a frame with a bad FCS or a bad PHY header raises its error flag (and the first possibly `RXFR`), makes
`RX_FINFO` and every byte of `RX_BUFFER` draws, and ends the reception; nothing else changes in the device. -/
def Obligations.RxErrorEvents : Prop :=
  ∀ (s : State) (ev : RadioEvent) (ts : List Turn), s.turns = .radio ev :: ts →
    (ev = .rxFcsError ∨ ev = .rxPhyHeaderError) → (s.dev.trx = .rx ∨ s.dev.trx = .unknown) →
    ∃ t, step s = .next t ∧ t.history = s.history ++ [.radio ev] ∧
      t.dev = { s.dev with
        flags := t.dev.flags
        rxFinfo := t.dev.rxFinfo
        rxBuffer := t.dev.rxBuffer
        rxDraw := t.dev.rxDraw
        trx := if s.dev.trx = .unknown then .unknown else .idle } ∧
      t.dev.rxFinfo = drawWord s ∧ (∀ k, rxByte t.dev k = Config.freeByte s.drawCtr k) ∧
      (ev = .rxFcsError → getFlag t.dev.flags .rxfce = true ∧
        (getFlag s.dev.flags .rxfr = true → getFlag t.dev.flags .rxfr = true) ∧
        ∀ g : Flag, g ≠ .rxfce → g ≠ .rxfr → getFlag t.dev.flags g = getFlag s.dev.flags g) ∧
      (ev = .rxPhyHeaderError →
        ∀ g : Flag, getFlag t.dev.flags g = (getFlag s.dev.flags g || decide (g = .rxphe)))

/-- What a RADIO step never does (R202 to R208): it clears no flag, changes none of the registers HOST writes, nothing
while the transceiver is idle, raises no receive flag in a transmission and no `TXFRS` in a reception, and leaves the
bus as it is. -/
def Obligations.EventsNever : Prop :=
  ∀ (s t : State) (ev : RadioEvent) (ts : List Turn), s.turns = .radio ev :: ts → step s = .next t →
    (∀ f : Flag, getFlag s.dev.flags f = true → getFlag t.dev.flags f = true) ∧
    t.dev.txBuffer = s.dev.txBuffer ∧ t.dev.txFctrl = s.dev.txFctrl ∧ t.dev.eui64 = s.dev.eui64 ∧
    t.dev.sysCfg = s.dev.sysCfg ∧ t.cfg = s.cfg ∧ t.bus = s.bus ∧
    (s.dev.trx = .idle → t.dev = s.dev) ∧
    (s.dev.trx = .tx → ∀ f : Flag, f ≠ .txfrs → getFlag t.dev.flags f = getFlag s.dev.flags f) ∧
    (s.dev.trx = .rx → getFlag t.dev.flags .txfrs = getFlag s.dev.flags .txfrs)

/-! ### The whole machine -/

/-- From R26: in every step, a flag rises only at a RADIO event that sets it, and falls only in a transaction that
carried `FC.CLRIRQ`, or the write header of `SYS_STATUS` and a 1 at the flag's position. The bytes carried are read off
the record; the model's choice: that the record of a transaction that failed or was cut holds exactly the bytes that
arrived (log entry 19, DESIGN CHOICE). -/
def Obligations.FlagsChangeInThreeWays : Prop :=
  ∀ (s t : State) (f : Flag), step s = .next t →
    (getFlag s.dev.flags f = false → getFlag t.dev.flags f = true →
      ∃ ev ts, s.turns = .radio ev :: ts ∧ raises ev f = true) ∧
    (getFlag s.dev.flags f = true → getFlag t.dev.flags f = false →
      SentBetween s t [fcByte s.cfg.cmd.clrirq.toNat] ∨
      ∃ data, SentBetween s t (regHeader s.cfg .sysStatus true ++ data) ∧ bitAtFlag s.cfg data f = true)

/-- From R45: the mode is unknown at reset; each cause of the table has its effect; and every change of the mode in any
step is one of the table: `FC.IDLE` to idle, `FC.TX` and `FC.RX` from idle, either of them out of turn (or `FC.TX` of a
length under 2) to unknown, and a RADIO event that ends the activity. So only `FC.IDLE` leaves the unknown mode. The
commands sent are read off the record; the model's choice: that the record of a transaction that failed or was cut holds
exactly the bytes that arrived (log entry 19, DESIGN CHOICE). -/
def Obligations.TransceiverTransitions : Prop :=
  State.reset.dev.trx = .unknown ∧
  (∀ s : State, s.cfg.wf = true → s.bus.plan = .ok →
    (∃ t, exec .fcIdle s = .next t ∧ t.dev.trx = .idle) ∧
    (∃ t, exec .fcTx s = .next t ∧
      t.dev.trx = if s.dev.trx = .idle ∧ 2 ≤ (s.dev.txFctrl.extractLsb' 0 10).toNat then .tx else .unknown) ∧
    ∃ t, exec .fcRx s = .next t ∧ t.dev.trx = if s.dev.trx = .idle then .rx else .unknown) ∧
  (∀ (s t : State) (ev : RadioEvent) (ts : List Turn), s.turns = .radio ev :: ts → step s = .next t →
    t.history = s.history ++ [.radio ev] → t.dev.trx = if s.dev.trx = .unknown then .unknown else .idle) ∧
  ∀ s t : State, step s = .next t → t.dev.trx ≠ s.dev.trx →
    let L := (s.dev.txFctrl.extractLsb' 0 10).toNat
    let sentTx := SentBetween s t [fcByte s.cfg.cmd.tx.toNat]
    let sentRx := SentBetween s t [fcByte s.cfg.cmd.rx.toNat]
    (t.dev.trx = .idle ∧ SentBetween s t [fcByte s.cfg.cmd.idle.toNat]) ∨
    (t.dev.trx = .tx ∧ s.dev.trx = .idle ∧ sentTx ∧ 2 ≤ L) ∨
    (t.dev.trx = .rx ∧ s.dev.trx = .idle ∧ sentRx) ∨
    (t.dev.trx = .unknown ∧ (sentTx ∧ (s.dev.trx ≠ .idle ∨ L < 2) ∨ sentRx ∧ s.dev.trx ≠ .idle)) ∨
    (t.dev.trx = .idle ∧ ∃ ev ts, s.turns = .radio ev :: ts ∧
      (s.dev.trx = .tx ∧ ev = .txDone ∨ s.dev.trx = .rx ∧ ev ≠ .txDone))

/-- The invariant of the machine and that of the power-up wait (Safety) hold at reset. -/
def Obligations.ResetMeetsTheInvariant : Prop := Inv State.reset ∧ PowerupWaited State.reset

/-- Every step keeps the invariant: the bus quiet between steps (R24, R37), the buffers' memories in their canonical
form, the running operation one the lifecycle allows (R275), the poll counter within its bound (R20, R23), the copy count
within the payload and the caller's buffer (R20, R192). And every step keeps that no transaction comes before the 5 ms
wait of `init` (R311); that a transaction by itself needs a `Ready` handle is the model's choice (log entry 28). -/
def Obligations.EveryStepKeepsTheInvariant : Prop :=
  ∀ s t : State, step s = .next t → (Inv s → Inv t) ∧ (PowerupWaited s → PowerupWaited t)

/-- What reset leaves, where R50 gives a value: the lifecycle, no operation, empty instruments, chip-select high, the
decoder and the transceiver mode; and a read of `DEV_ID` from there gives the constant. What R50 leaves to a draw is a
free value of the model (log entry 1), of which nothing is said here. -/
def Obligations.ResetLeavesTheStatedValues : Prop :=
  State.reset.lifecycle = .uninitialized ∧ State.reset.pos = .idle ∧ State.reset.history = [] ∧
  State.reset.diag = [] ∧ State.reset.bus.cs = .high ∧ State.reset.bus.flight = none ∧
  State.reset.dec.phase = .idle ∧ State.reset.dev.trx = .unknown ∧
  ∃ t, exec (.rdu32 .devId) State.reset = .next t ∧ t.regs.rval = State.reset.cfg.devIdValue

/-- No step changes the parameters (R10), and the event history (R43) and the diagnostic log (R44) only grow. -/
def Obligations.InstrumentsOnlyGrow : Prop :=
  ∀ s t : State, step s = .next t →
    t.cfg = s.cfg ∧ (∃ h, t.history = s.history ++ h) ∧ ∃ d, t.diag = s.diag ++ d

/-- R44: the diagnostic log is empty at reset, only appended to, and read by nothing: from two states that differ only
in it, a step does the same, adding the same messages. -/
def Obligations.DiagnosticLogIsNeverRead : Prop :=
  State.reset.diag = [] ∧ ∀ (s : State) (d : List Diag),
    (∀ t, step s = .next t →
      ∃ more, t.diag = s.diag ++ more ∧ step { s with diag := d } = .next { t with diag := d ++ more }) ∧
    ∀ r, step s = .refused r → step { s with diag := d } = .refused r

/-- Under the invariant and a well-formed configuration no running operation is ever refused, whatever TRANSPORT, RADIO
or the caller's task does, but for the write of a `send` whose data is longer than `TX_BUFFER` (R235 (e)). -/
def Obligations.RunningOperationIsNeverRefused : Prop :=
  ∀ s : State, Inv s → s.cfg.wf = true → s.pos ≠ .idle → (s.pos = .send1 → s.regs.data.length ≤ 1024) →
    ∃ t, step s = .next t

/-! ### The driver sequences -/

/-- R222 and R51: `init` on a working link, from any state of the device: nine moves of HOST (the call and the eight
lines) leave a `Ready` handle, the transceiver idle, all seven flags 0, everything else of the device as it was, the two
delays and exactly three transactions in the order given, and the identity in the log. -/
def Obligations.InitReachesReady : Prop :=
  ∀ (s : State) (cs : List Call), s.cfg.wf = true → s.pos = .idle → s.lifecycle = .uninitialized →
    s.calls = .init :: cs → s.turns = [] → s.bus.plan = .ok →
    s.cfg.devIdValue ≠ 0x00000000 → s.cfg.devIdValue ≠ 0xFFFFFFFF →
    ∃ t, Host.Core.run core 9 s = .next t ∧ t.lifecycle = .ready ∧ t.result = some .ok ∧ t.pos = .idle ∧
      t.calls = cs ∧ (∀ f : Flag, getFlag t.dev.flags f = false) ∧
      t.dev = { s.dev with trx := .idle, flags := t.dev.flags } ∧
      t.diag = s.diag ++ [.deviceIdentity s.cfg.devIdValue] ∧
      t.history = s.history ++
        [.delay 5,
         .xact (encode s.cfg .fcIdle) [fcByte s.cfg.cmd.idle.toNat] [] .ok,
         .delay 1,
         .xact (encode s.cfg (.rdu32 .devId)) (regHeader s.cfg .devId false) (le32 s.cfg.devIdValue) .ok,
         .xact (encode s.cfg .fcClrirq) [fcByte s.cfg.cmd.clrirq.toNat] [] .ok]

/-- R223: the identity check compares with the two constants and nothing else, so every other value passes; and `init`
on a link that reads all zeros or all ones ends, after the call and five lines, with `UnexpectedDeviceId`, the handle
consumed, the transceiver idle, the flags as they were, two transactions and no `FC.CLRIRQ`. -/
def Obligations.InitRejectsABrokenLink : Prop :=
  (∀ s : State, s.pos = .init5 → s.turns = [] → s.regs.id ≠ 0x00000000 → s.regs.id ≠ 0xFFFFFFFF →
    step s = .next { s with pos := .init6 }) ∧
  ∀ (s : State) (cs : List Call), s.cfg.wf = true → s.pos = .idle → s.lifecycle = .uninitialized →
    s.calls = .init :: cs → s.turns = [] → s.bus.plan = .ok →
    (s.cfg.devIdValue = 0x00000000 ∨ s.cfg.devIdValue = 0xFFFFFFFF) →
    ∃ t, Host.Core.run core 6 s = .next t ∧ t.lifecycle = .consumed ∧ t.result = some (.error .unexpectedDeviceId) ∧
      t.pos = .idle ∧ t.dev = { s.dev with trx := .idle } ∧ t.diag = s.diag ∧
      t.history = s.history ++
        [.delay 5,
         .xact (encode s.cfg .fcIdle) [fcByte s.cfg.cmd.idle.toNat] [] .ok,
         .delay 1,
         .xact (encode s.cfg (.rdu32 .devId)) (regHeader s.cfg .devId false) (le32 s.cfg.devIdValue) .ok]

/-- R195, R196, R191, R235: `send` programs the device in three transactions in order; with the transceiver idle the
frame handed to the radio is the first `L - 2` bytes of `data`, which is `data` itself up to 1021 bytes; where the length
wraps under 2 nothing is sent and the mode is unknown; a longer `data` than the buffer is refused. -/
def Obligations.SendProgramsTheFrame : Prop :=
  ∀ (s : State) (data : List Byte) (cs : List Call), s.cfg.wf = true → s.pos = .idle → s.lifecycle = .ready →
    s.calls = .send data :: cs → s.turns = [] → s.bus.plan = .ok → s.dev.trx = .idle →
    let L := (data.length + 2) % 1024
    let lenBytes := le32 (BitVec.ofNat 32 L)
    (data.length ≤ 1024 →
      ∃ t start, Host.Core.run core 4 s = .next t ∧ t.pos = .send4 ∧ t.regs.polls = 0 ∧ t.regs.bound = 10000 ∧
        t.result = none ∧ t.lifecycle = .ready ∧
        t.dev = { s.dev with txBuffer := t.dev.txBuffer, txFctrl := BitVec.ofNat 32 L,
                             trx := if 2 ≤ L then .tx else .unknown } ∧
        (∀ k, txByte t.dev k = data.getD k (txByte s.dev k)) ∧
        t.history = s.history ++
          [.xact (encode s.cfg (.wr .txBuffer data)) (regHeader s.cfg .txBuffer true ++ data) [] .ok,
           .xact (encode s.cfg (.wr .txFctrl lenBytes)) (regHeader s.cfg .txFctrl true ++ lenBytes) [] .ok] ++ start ∧
        Records (.xact (encode s.cfg .fcTx) [fcByte s.cfg.cmd.tx.toNat] [] .ok)
          (if 2 ≤ L then [.airTx (data.take (L - 2))] else []) start) ∧
    (data.length ≤ 1021 → L = data.length + 2) ∧
    (1024 < data.length → Host.Core.run core 2 s = .refused .dataTooLong)

/-- R233: one poll of `send`. It counts, and reads the status once. If `TXFRS` is set, the next move clears exactly that
bit, with a write that carries exactly that bit, and returns success; if not, the loop goes on with the device as it
was. -/
def Obligations.SendPollSeesTheFlag : Prop :=
  ∀ s : State, s.cfg.wf = true → s.pos = .send4 → s.regs.polls < s.regs.bound → s.turns = [] → s.bus.plan = .ok →
    (getFlag s.dev.flags .txfrs = true →
      ∃ v t got, step s = .next v ∧ v.pos = .send4Clear ∧ v.regs.polls = s.regs.polls + 1 ∧
        step v = .next t ∧ t.result = some .ok ∧ t.pos = .idle ∧ t.lifecycle = s.lifecycle ∧
        t.dev = { s.dev with flags := t.dev.flags } ∧
        (∀ f : Flag, getFlag t.dev.flags f = (getFlag s.dev.flags f && !(decide (f = .txfrs)))) ∧
        t.history = s.history ++
          [.xact (encode s.cfg (.rdu32 .sysStatus)) (regHeader s.cfg .sysStatus false) got .ok,
           .xact (encode s.cfg (.wru32 .sysStatus (flagMask s.cfg .txfrs)))
             (regHeader s.cfg .sysStatus true ++ le32 (flagMask s.cfg .txfrs)) [] .ok]) ∧
    (getFlag s.dev.flags .txfrs = false →
      ∃ t got, step s = .next t ∧ t.pos = .send4 ∧ t.regs.polls = s.regs.polls + 1 ∧ t.dev = s.dev ∧
        t.history = s.history ++
          [.xact (encode s.cfg (.rdu32 .sysStatus)) (regHeader s.cfg .sysStatus false) got .ok])

/-- R234: a `send` whose `TXFRS` never comes: after the three transactions that program and start it come exactly 10000
status reads and nothing else, and it returns `Timeout` with one warning in the log, the lifecycle and the device as the
start left them, the seven flags as they were. -/
def Obligations.SendTimesOut : Prop :=
  ∀ (s : State) (data : List Byte) (cs : List Call), s.cfg.wf = true → s.pos = .idle → s.lifecycle = .ready →
    s.calls = .send data :: cs → s.turns = [] → s.bus.plan = .ok → data.length ≤ 1024 →
    getFlag s.dev.flags .txfrs = false →
    ∃ u v t start reads, Host.Core.run core 4 s = .next u ∧ Host.Core.run core 10001 u = .next v ∧
      v.pos = .send5 ∧ v.regs.polls = 10000 ∧ step v = .next t ∧
      u.history = s.history ++ start ∧ start.countP isTransaction = 3 ∧ u.dev.flags = s.dev.flags ∧
      t.result = some (.error .timeout) ∧ t.pos = .idle ∧ t.lifecycle = .ready ∧ t.dev = u.dev ∧
      t.diag = s.diag ++ [.transmitFailure] ∧ t.history = u.history ++ reads ∧ reads.length = 10000 ∧
      ∀ e, e ∈ reads → ∃ got,
        e = .xact (encode s.cfg (.rdu32 .sysStatus)) (regHeader s.cfg .sysStatus false) got .ok

/-- R241: one poll of `recv`. It counts, reads the status once, changes nothing in the device, and goes on by the two
tests in their order: `RXFCG` first, then either error flag, else the loop again; no other flag is looked at. -/
def Obligations.RecvPollBranches : Prop :=
  ∀ s : State, s.cfg.wf = true → s.pos = .recv2 → s.regs.polls < s.regs.bound → s.turns = [] → s.bus.plan = .ok →
    ∃ t got, step s = .next t ∧ t.regs.polls = s.regs.polls + 1 ∧ t.dev = s.dev ∧ t.lifecycle = s.lifecycle ∧
      t.regs.outBuffer = s.regs.outBuffer ∧
      t.pos = (if getFlag s.dev.flags .rxfcg then .recv2Info
        else if getFlag s.dev.flags .rxfce || getFlag s.dev.flags .rxphe then .recv2ErrClear else .recv2) ∧
      t.history = s.history ++
        [.xact (encode s.cfg (.rdu32 .sysStatus)) (regHeader s.cfg .sysStatus false) got .ok]

/-- From R243 and R192: the good path. From a poll that sees `RXFCG`, four moves read the length and the payload, copy
`min(L -sat 2, |outBuffer|)` bytes, leave the rest of the buffer, clear `RXFR` and `RXFCG` and no other flag, and return
the count; the receiver is not enabled again. That the transceiver mode is left as it was, whatever it was, is the model's
reading (log entry 32, DEDUCED): after a stale flag R243 and R323 have `IDLE` where the pseudocode and R45 have `RX`. -/
def Obligations.RecvGoodPath : Prop :=
  ∀ s : State, s.cfg.wf = true → s.pos = .recv2 → s.regs.polls < s.regs.bound → s.turns = [] → s.bus.plan = .ok →
    getFlag s.dev.flags .rxfcg = true →
    let n := min ((s.dev.rxFinfo.extractLsb' 0 10).toNat - 2) s.regs.outBuffer.length
    ∃ t got fin copy w word, Host.Core.run core 4 s = .next t ∧ t.result = some (.count n) ∧ t.pos = .idle ∧
      t.lifecycle = s.lifecycle ∧ t.regs.outBuffer.length = s.regs.outBuffer.length ∧
      (∀ k, k < n → t.regs.outBuffer[k]? = some (rxByte s.dev k)) ∧
      (∀ k, n ≤ k → t.regs.outBuffer[k]? = s.regs.outBuffer[k]?) ∧
      t.dev = { s.dev with flags := t.dev.flags } ∧
      (∀ f : Flag, getFlag t.dev.flags f =
        (getFlag s.dev.flags f && !(decide (f = .rxfr) || decide (f = .rxfcg)))) ∧
      t.history = s.history ++
        [.xact (encode s.cfg (.rdu32 .sysStatus)) (regHeader s.cfg .sysStatus false) got .ok,
         .xact (encode s.cfg (.rdu32 .rxFinfo)) (regHeader s.cfg .rxFinfo false) fin .ok,
         .xact (encode s.cfg (.rd .rxBuffer n)) (regHeader s.cfg .rxBuffer false) copy .ok,
         .xact (encode s.cfg (.wru32 .sysStatus w)) (regHeader s.cfg .sysStatus true ++ le32 w) [] .ok] ∧
      w = clearValue s.cfg word (flagMask s.cfg .rxfr ||| flagMask s.cfg .rxfcg) ∧ got = le32 word

/-- R244: the error path. From a poll that sees an error flag and no `RXFCG`, three moves clear `RXFCE` and `RXPHE` and
no other flag, enable the receiver again, and are back at the loop test with one poll used; after the last poll the
timeout step follows directly. -/
def Obligations.RecvErrorPath : Prop :=
  ∀ s : State, s.cfg.wf = true → s.pos = .recv2 → s.regs.polls < s.regs.bound → s.turns = [] → s.bus.plan = .ok →
    getFlag s.dev.flags .rxfcg = false →
    (getFlag s.dev.flags .rxfce = true ∨ getFlag s.dev.flags .rxphe = true) →
    ∃ t got w, Host.Core.run core 3 s = .next t ∧ t.pos = .recv2 ∧ t.result = s.result ∧
      t.regs.polls = s.regs.polls + 1 ∧ t.regs.outBuffer = s.regs.outBuffer ∧ t.lifecycle = s.lifecycle ∧
      t.dev = { s.dev with flags := t.dev.flags, trx := if s.dev.trx = .idle then .rx else .unknown } ∧
      (∀ f : Flag, getFlag t.dev.flags f =
        (getFlag s.dev.flags f && !(decide (f = .rxfce) || decide (f = .rxphe)))) ∧
      t.history = s.history ++
        [.xact (encode s.cfg (.rdu32 .sysStatus)) (regHeader s.cfg .sysStatus false) got .ok,
         .xact (encode s.cfg (.wru32 .sysStatus w)) (regHeader s.cfg .sysStatus true ++ le32 w) [] .ok,
         .xact (encode s.cfg .fcRx) [fcByte s.cfg.cmd.rx.toNat] [] .ok] ∧
      w = clearValue s.cfg t.regs.s (flagMask s.cfg .rxfce ||| flagMask s.cfg .rxphe) ∧ got = le32 t.regs.s ∧
      (t.regs.polls = t.regs.bound → ∃ u, step t = .next u ∧ u.pos = .recv3)

/-- R245: the timeout path. With the budget used up, two moves issue one `FC.IDLE` and return `Timeout`, the caller's
buffer and the flags untouched; if that transaction fails, the result is `TransportError` instead. And how `recv` comes to
its loop test (R240 step 1, R198, R242): the call and one `FC.RX`, no poll made, the budget `maxPolls`, the buffer the
caller's; with a budget of 0 the `FC.IDLE` follows at once, two transactions in all (R246 (a)). -/
def Obligations.RecvTimesOut : Prop :=
  (∀ s : State, s.cfg.wf = true → s.pos = .recv2 → s.regs.bound ≤ s.regs.polls → s.turns = [] → s.bus.plan = .ok →
    ∃ t, Host.Core.run core 2 s = .next t ∧ t.result = some (.error .timeout) ∧ t.pos = .idle ∧
      t.lifecycle = s.lifecycle ∧ t.regs.outBuffer = s.regs.outBuffer ∧ t.dev = { s.dev with trx := .idle } ∧
      t.history = s.history ++ [.xact (encode s.cfg .fcIdle) [fcByte s.cfg.cmd.idle.toNat] [] .ok]) ∧
  (∀ (s : State) (k e : Nat) (ts : List Turn), s.cfg.wf = true → s.pos = .recv3 → s.turns = .host (.fail k e) :: ts →
    ∃ t, step s = .next t ∧ t.result = some (.error (.transport e)) ∧ t.pos = .idle ∧ t.lifecycle = s.lifecycle) ∧
  ∀ (s : State) (out : List Byte) (maxPolls : Nat) (cs : List Call), s.cfg.wf = true → s.pos = .idle →
    s.lifecycle = .ready → s.calls = .recv out maxPolls :: cs → s.turns = [] → s.bus.plan = .ok →
    let enable := HistEvent.xact (encode s.cfg .fcRx) [fcByte s.cfg.cmd.rx.toNat] [] .ok
    (∃ t, Host.Core.run core 2 s = .next t ∧ t.pos = .recv2 ∧ t.regs.polls = 0 ∧ t.regs.bound = maxPolls ∧
      t.regs.outBuffer = out ∧ t.result = none ∧ t.lifecycle = .ready ∧ t.calls = cs ∧
      t.turns = [] ∧ t.bus.plan = .ok ∧
      t.dev = { s.dev with trx := if s.dev.trx = .idle then .rx else .unknown } ∧ t.history = s.history ++ [enable]) ∧
    (maxPolls = 0 →
      ∃ t, Host.Core.run core 4 s = .next t ∧ t.result = some (.error .timeout) ∧ t.pos = .idle ∧
        t.lifecycle = .ready ∧ t.regs.outBuffer = out ∧ t.dev = { s.dev with trx := .idle } ∧
        t.history = s.history ++ [enable, .xact (encode s.cfg .fcIdle) [fcByte s.cfg.cmd.idle.toNat] [] .ok])

/-- R250: `force_idle` issues the idle command exactly once and returns success, with the transceiver idle and nothing
else of the device changed; a transport error is passed through unchanged, after that same one transaction. -/
def Obligations.ForceIdleIssuesOneIdle : Prop :=
  (∀ (s : State) (cs : List Call), s.cfg.wf = true → s.pos = .idle → s.lifecycle = .ready →
    s.calls = .forceIdle :: cs → s.turns = [] → s.bus.plan = .ok →
    ∃ t, Host.Core.run core 2 s = .next t ∧ t.result = some .ok ∧ t.pos = .idle ∧ t.lifecycle = .ready ∧
      t.dev = { s.dev with trx := .idle } ∧
      t.history = s.history ++ [.xact (encode s.cfg .fcIdle) [fcByte s.cfg.cmd.idle.toNat] [] .ok]) ∧
  ∀ (s : State) (k e : Nat) (ts : List Turn), s.cfg.wf = true → s.pos = .forceIdle1 →
    s.turns = .host (.fail k e) :: ts →
    ∃ t sent, step s = .next t ∧ t.result = some (.error (.transport e)) ∧ t.pos = .idle ∧ t.lifecycle = s.lifecycle ∧
      t.history = s.history ++ [.xact (encode s.cfg .fcIdle) sent [] (.error e)]

/-- From R275 and R301: a driver operation starts exactly in the lifecycle state that allows it, without touching the device or the
wire, and is refused in any other; `new_handle` makes an `Uninitialized` handle of a consumed one, without a transaction,
and is refused on any other; a transaction by itself is refused on a handle that is not `Ready`; so from reset `init` is
the only call that is taken; and the lifecycle changes in no other way than `init` to `Ready`, a lost `init` to
`Consumed`, and `new_handle`. The model's own, beside what the rules state: the calls of a transaction by itself and their
refusal off a `Ready` handle, at reset too (log entry 28, DESIGN CHOICE); where `new_handle` is taken and where it is
refused (log entry 9, DEDUCED); that an abandoned `init` is a lost one (log entry 10, DEDUCED). -/
def Obligations.LifecycleGuardsTheOperations : Prop :=
  (∀ (s : State) (c : Call) (cs : List Call), s.pos = .idle → s.calls = c :: cs → s.turns = [] →
    let starts := fun (p : Pos) (allowed : Lifecycle) =>
      (s.lifecycle = allowed →
        ∃ t, step s = .next t ∧ t.pos = p ∧ t.lifecycle = s.lifecycle ∧ t.dev = s.dev ∧ t.history = s.history) ∧
      (s.lifecycle ≠ allowed → step s = .refused .opNotAllowed)
    (c = .init → starts .init1 .uninitialized) ∧
    (∀ data, c = .send data → starts .send1 .ready) ∧
    (∀ out maxPolls, c = .recv out maxPolls → starts .recv1 .ready) ∧
    (c = .forceIdle → starts .forceIdle1 .ready) ∧
    (c = .newHandle → s.lifecycle = .consumed →
      ∃ t, step s = .next t ∧ t.lifecycle = .uninitialized ∧ t.pos = .idle ∧ t.result = some .ok ∧ t.dev = s.dev ∧
        t.history = s.history) ∧
    (c = .newHandle → s.lifecycle ≠ .consumed → step s = .refused .opNotAllowed) ∧
    (∀ i, c = .instr i → s.lifecycle ≠ .ready → step s = .refused .opNotAllowed) ∧
    (∀ ops, c = .wire ops → s.lifecycle ≠ .ready → step s = .refused .opNotAllowed)) ∧
  (∀ (c : Call) (cs : List Call),
    ((∃ t, step { State.reset with calls := c :: cs } = .next t) ↔ c = .init) ∧
    (c ≠ .init → step { State.reset with calls := c :: cs } = .refused .opNotAllowed)) ∧
  ∀ s t : State, Inv s → step s = .next t → t.lifecycle ≠ s.lifecycle →
    (s.lifecycle = .uninitialized ∧ s.pos = .init8 ∧ t.lifecycle = .ready ∧ t.result = some .ok) ∨
    (s.lifecycle = .uninitialized ∧ inInit s.pos = true ∧ t.lifecycle = .consumed ∧ t.pos = .idle ∧
      t.result ≠ some .ok) ∨
    (s.lifecycle = .consumed ∧ s.pos = .idle ∧ t.lifecycle = .uninitialized ∧ t.history = s.history)

/-- From R252: an operation abandoned between two steps stops there and returns nothing, the device, the bus and the
history as they were; abandoned inside a transaction, it stops likewise, with chip-select high. The model's choice: that
a transaction cut by the caller is recorded as abandoned (log entry 19, DESIGN CHOICE). -/
def Obligations.AbandonedOperationStops : Prop :=
  (∀ (s : State) (ts : List Turn), s.turns = .abandon :: ts → s.pos ≠ .idle →
    ∃ t, step s = .next t ∧ t.pos = .idle ∧ t.result = none ∧ t.dev = s.dev ∧ t.bus = s.bus ∧
      t.history = s.history) ∧
  ∀ (s t : State) (ops : List SubOp) (sent got : List Byte) (added : List HistEvent),
    step s = .next t → t.history = s.history ++ added → .xact ops sent got .abandoned ∈ added →
    t.pos = .idle ∧ t.result = none ∧ t.bus.cs = .high ∧ t.bus.flight = none

/-- R191 and R192: the two length computations, with the tables' values at the top of the range. -/
def Obligations.FrameLengthArithmetic : Prop :=
  (∀ n : Nat, (txLength n).toNat = (n + 2) % 1024) ∧
  (txLength 1021).toNat = 1023 ∧ (txLength 1022).toNat = 0 ∧ (txLength 1023).toNat = 1 ∧ (txLength 1024).toNat = 2 ∧
  (∀ s : State,
    let t := recvLengths s
    t.regs.len = s.regs.rval.extractLsb' 0 10 ∧
    t.regs.p = (if 2 ≤ (s.regs.rval.extractLsb' 0 10).toNat then (s.regs.rval.extractLsb' 0 10).toNat - 2 else 0) ∧
    t.regs.n = min t.regs.p s.regs.outBuffer.length ∧ t.regs.p ≤ 1021)

end
end

