-- ==== Sys2Proof/Laws/Bytes.lean ====
section
/-! SUPPORT. The byte-order and byte-list operations: lengths and round trips. -/

namespace Sys2Proof.Machine

@[simp] theorem le32_length (v : BitVec 32) : (le32 v).length = 4 := rfl

@[simp] theorem euiBytes_length (v : BitVec 64) : (euiBytes v).length = 8 := rfl

@[simp] theorem patch_nil (old : List Byte) : patch old [] = old := rfl

theorem patch_length (old data : List Byte) (h : data.length ≤ old.length) : (patch old data).length = old.length := by
  simp [patch]; omega

theorem patch_all (old data : List Byte) (h : old.length ≤ data.length) : patch old data = data := by
  simp [patch, List.drop_eq_nil_of_le h]

@[simp] theorem bytesFrom_length (f : Nat → Byte) (start n : Nat) : (bytesFrom f start n).length = n := by
  induction n generalizing start with
  | zero => rfl
  | succ n ih => simp [bytesFrom, ih]

theorem bytesFrom_getElem? (f : Nat → Byte) (start n k : Nat) (h : k < n) :
    (bytesFrom f start n)[k]? = some (f (start + k)) := by
  induction n generalizing start k with
  | zero => omega
  | succ n ih =>
    cases k with
    | zero => simp [bytesFrom]
    | succ k => simp [bytesFrom, ih (start + 1) k (by omega)]; congr 1; omega

theorem bytesFrom_take (f : Nat → Byte) (start n k : Nat) (h : k ≤ n) :
    (bytesFrom f start n).take k = bytesFrom f start k := by
  induction n generalizing start k with
  | zero => obtain rfl : k = 0 := by omega
            rfl
  | succ n ih =>
    cases k with
    | zero => rfl
    | succ k => simp [bytesFrom, ih (start + 1) k (by omega)]

theorem bytesFrom_eq (f g : Nat → Byte) (start n : Nat) (h : ∀ k, k < n → f (start + k) = g (start + k)) :
    bytesFrom f start n = bytesFrom g start n := by
  induction n generalizing start with
  | zero => rfl
  | succ n ih =>
    simp only [bytesFrom]
    rw [ih (start + 1) fun k hk => by simpa [Nat.add_assoc, Nat.add_comm 1] using h (k + 1) (by omega)]
    simpa using h 0 (by omega)

/-- Byte `k` of an assembled value (R132). -/
theorem extract_unle32 (b : List Byte) :
    (unle32 b).extractLsb' 0 8 = b.getD 0 0 ∧ (unle32 b).extractLsb' 8 8 = b.getD 1 0 ∧
      (unle32 b).extractLsb' 16 8 = b.getD 2 0 ∧ (unle32 b).extractLsb' 24 8 = b.getD 3 0 := by
  refine ⟨?_, ?_, ?_, ?_⟩ <;>
    · ext i hi
      interval_cases i <;> simp [unle32]

/-- Four bytes assembled and split again are the same four bytes (R134). -/
theorem le32_unle32 (b : List Byte) (h : b.length = 4) : le32 (unle32 b) = b := by
  obtain ⟨h0, h1, h2, h3⟩ := extract_unle32 b
  match b, h with
  | [b0, b1, b2, b3], _ => simp [le32, h0, h1, h2, h3]

/-- A value split and assembled again is the same value (R134). -/
theorem unle32_le32 (v : BitVec 32) : unle32 (le32 v) = v := by
  ext i hi
  interval_cases i <;> simp [unle32, le32]

/-- Byte `k` of an assembled `EUI_64`. -/
theorem extract_euiOfBytes (b : List Byte) :
    ((euiOfBytes b).extractLsb' 0 8 = b.getD 0 0 ∧ (euiOfBytes b).extractLsb' 8 8 = b.getD 1 0 ∧
      (euiOfBytes b).extractLsb' 16 8 = b.getD 2 0 ∧ (euiOfBytes b).extractLsb' 24 8 = b.getD 3 0) ∧
    ((euiOfBytes b).extractLsb' 32 8 = b.getD 4 0 ∧ (euiOfBytes b).extractLsb' 40 8 = b.getD 5 0 ∧
      (euiOfBytes b).extractLsb' 48 8 = b.getD 6 0 ∧ (euiOfBytes b).extractLsb' 56 8 = b.getD 7 0) := by
  refine ⟨⟨?_, ?_, ?_, ?_⟩, ⟨?_, ?_, ?_, ?_⟩⟩ <;>
    · ext i hi
      interval_cases i <;> simp [euiOfBytes]

/-- Eight bytes stored in `EUI_64` are the bytes it holds (R30). -/
theorem euiBytes_euiOfBytes (b : List Byte) (h : b.length = 8) : euiBytes (euiOfBytes b) = b := by
  obtain ⟨⟨h0, h1, h2, h3⟩, ⟨h4, h5, h6, h7⟩⟩ := extract_euiOfBytes b
  match b, h with
  | [b0, b1, b2, b3, b4, b5, b6, b7], _ => simp [euiBytes, h0, h1, h2, h3, h4, h5, h6, h7]

/-- The bytes of `EUI_64` determine it. -/
theorem euiOfBytes_euiBytes (v : BitVec 64) : euiOfBytes (euiBytes v) = v := by
  ext i hi
  interval_cases i <;> simp [euiOfBytes, euiBytes]

/-- Bit `8k + j` of an assembled value is bit `j` of byte `k` (R75). -/
theorem unle32_getLsbD (b : List Byte) (k j : Nat) (hk : k < 4) (hj : j < 8) :
    (unle32 b).getLsbD (8 * k + j) = (b.getD k 0).getLsbD j := by
  interval_cases k <;> interval_cases j <;> simp [unle32]

end Sys2Proof.Machine
end

