-- ==== Sys2Proof/Laws/Encoding.lean ====
section
/-! SUPPORT. The encoders bit by bit, and the decoder on what they produce. -/

namespace Sys2Proof

open Sys2Proof.Machine

theorem headerByte0_getLsbD (fileId sub : Nat) (wr : Bool) (i : Nat) :
    (headerByte0 fileId sub wr).getLsbD i =
      (decide (i < 8) && ((decide (i = 7) && wr) || decide (i = 6) ||
        (decide (1 ≤ i) && decide (i ≤ 5) && fileId.testBit (i - 1)) || (decide (i = 0) && sub.testBit 6))) := by
  simp only [headerByte0, BitVec.getLsbD_ofNat, Nat.testBit_or, Nat.testBit_shiftLeft, Nat.testBit_and,
    Nat.testBit_shiftRight]
  by_cases hi : i < 8
  · interval_cases i <;> cases wr <;> simp +decide [Nat.testBit_succ]
  · simp [hi]

theorem headerByte1_getLsbD (sub : Nat) (i : Nat) :
    (headerByte1 sub).getLsbD i = (decide (2 ≤ i) && decide (i < 8) && sub.testBit (i - 2)) := by
  simp only [headerByte1, BitVec.getLsbD_ofNat, Nat.testBit_shiftLeft, Nat.testBit_and]
  by_cases hi : i < 8
  · interval_cases i <;> simp +decide [Nat.testBit_succ]
  · simp [hi]

theorem fcByte_getLsbD (code : Nat) (i : Nat) :
    (fcByte code).getLsbD i =
      (decide (i = 7) || (decide (1 ≤ i) && decide (i ≤ 5) && code.testBit (i - 1)) || decide (i = 0)) := by
  simp only [fcByte, BitVec.getLsbD_ofNat, Nat.testBit_or, Nat.testBit_shiftLeft, Nat.testBit_and]
  by_cases hi : i < 8
  · interval_cases i <;> simp +decide [Nat.testBit_succ]
  · simp [hi]; omega

/-! ### The fields of what the header encoder makes (R104) -/

theorem hdrWr_headerByte0 (fileId sub : Nat) (wr : Bool) : hdrWr (headerByte0 fileId sub wr) = wr := by
  rw [hdrWr, headerByte0_getLsbD]; simp

theorem hdrFull_headerByte0 (fileId sub : Nat) (wr : Bool) : hdrFull (headerByte0 fileId sub wr) = true := by
  rw [hdrFull, headerByte0_getLsbD]; simp

theorem hdrFid_headerByte0 (fid : BitVec 5) (sub : Nat) (wr : Bool) : hdrFid (headerByte0 fid.toNat sub wr) = fid := by
  ext i hi
  simp only [hdrFid, BitVec.getElem_extractLsb', headerByte0_getLsbD, BitVec.testBit_toNat]
  interval_cases i <;> simp

theorem hdrSubHigh_headerByte0 (fileId : Nat) (sub : BitVec 7) (wr : Bool) :
    hdrSubHigh (headerByte0 fileId sub.toNat wr) = sub.extractLsb' 6 1 := by
  ext i hi
  simp only [hdrSubHigh, BitVec.getElem_extractLsb', headerByte0_getLsbD, BitVec.testBit_toNat]
  interval_cases i; simp

theorem hdrSubLow_headerByte1 (sub : BitVec 7) : hdrSubLow (headerByte1 sub.toNat) = sub.extractLsb' 0 6 := by
  ext i hi
  simp only [hdrSubLow, BitVec.getElem_extractLsb', headerByte1_getLsbD, BitVec.testBit_toNat]
  interval_cases i <;> simp

theorem hdrMode_headerByte1 (sub : Nat) : hdrMode (headerByte1 sub) = 0 := by
  ext i hi
  simp only [hdrMode, BitVec.getElem_extractLsb', headerByte1_getLsbD]
  interval_cases i <;> simp

theorem joinSub_parts (sub : BitVec 7) : joinSub (sub.extractLsb' 6 1) (sub.extractLsb' 0 6) = sub := by
  ext i hi
  interval_cases i <;> simp [joinSub]

theorem joinSub_high (h : BitVec 1) (l : BitVec 6) : (joinSub h l).extractLsb' 6 1 = h := by
  ext i hi
  interval_cases i; simp [joinSub]

/-! ### The fields of what the fast-command encoder makes (R106) -/

theorem fcCode_fcByte (code : Nat) : fcCode (fcByte code) = BitVec.ofNat 5 code := by
  ext i hi
  rw [← BitVec.getLsbD_eq_getElem, ← BitVec.getLsbD_eq_getElem, fcCode, BitVec.getLsbD_extractLsb', fcByte_getLsbD,
    BitVec.getLsbD_ofNat]
  interval_cases i <;> simp

theorem hdrFull_fcByte (code : Nat) : hdrFull (fcByte code) = false := by
  rw [hdrFull, fcByte_getLsbD]; simp

theorem isFastByte_fcByte (code : Nat) : isFastByte (fcByte code) = true := by
  simp only [isFastByte, hdrFull_fcByte, fcByte_getLsbD]; simp

/-! ### Reserved encodings -/

theorem hdrSubLow_or_mode (b : Byte) (k : Nat) (hk : k < 4) : hdrSubLow (b ||| BitVec.ofNat 8 k) = hdrSubLow b := by
  ext i hi
  simp only [hdrSubLow, BitVec.getElem_extractLsb', BitVec.getLsbD_or, BitVec.getLsbD_ofNat]
  interval_cases k <;> interval_cases i <;> simp +decide

theorem hdrMode_or_mode (sub : Nat) (k : Nat) (hk : k < 4) :
    hdrMode (headerByte1 sub ||| BitVec.ofNat 8 k) = BitVec.ofNat 2 k := by
  ext i hi
  simp only [hdrMode, BitVec.getElem_extractLsb', BitVec.getLsbD_or, headerByte1_getLsbD, BitVec.getLsbD_ofNat]
  interval_cases k <;> interval_cases i <;> simp +decide

/-! ### The catalog -/

theorem mem_allRegs (r : Reg) : r ∈ allRegs := by cases r <;> simp [allRegs]

/-- Under distinct addresses a register's address finds that register (R11, R111). -/
theorem catalogLookup_regAddr (cfg : Config) (h : cfg.wf = true) (r : Reg) :
    catalogLookup cfg (regAddr cfg r).fileId (regAddr cfg r).subAddress = some r := by
  simp only [Config.wf, Bool.and_eq_true] at h
  have hnd : (allRegs.map (regAddr cfg)).Nodup := by simpa [regmapDistinct] using h.1.1
  have hsome : (catalogLookup cfg (regAddr cfg r).fileId (regAddr cfg r).subAddress).isSome = true := by
    rw [catalogLookup, List.find?_isSome]
    exact ⟨r, mem_allRegs r, by simp⟩
  obtain ⟨r', hr'⟩ := Option.isSome_iff_exists.mp hsome
  have heq : regAddr cfg r' = regAddr cfg r := by simpa [catalogLookup] using List.find?_some hr'
  rw [hr', List.inj_on_of_nodup_map hnd (mem_allRegs r') (mem_allRegs r) heq]

/-- A register found has exactly the address looked up (R78). -/
theorem catalogLookup_some (cfg : Config) (fid : BitVec 5) (sub : BitVec 7) (r : Reg)
    (h : catalogLookup cfg fid sub = some r) : regAddr cfg r = ⟨fid, sub⟩ := by
  simpa [catalogLookup] using List.find?_some h

/-! ### Slots of the encoder's sub-operations -/

theorem writeBytes_map (data : List Byte) : writeBytes (data.map .write) = some data := by
  induction data with
  | nil => rfl
  | cons b data ih => simp [writeBytes, ih]

theorem readCount_replicate (n : Nat) : readCount (List.replicate n .read) = some n := by
  induction n with
  | zero => rfl
  | succ n ih => simp [List.replicate_succ, readCount, ih]

end Sys2Proof
end

