-- ==== Sys2Proof/Laws/Flags.lean ====
section
/-! SUPPORT. The status word bit by bit, and the flag operations flag by flag. -/

namespace Sys2Proof.Machine

theorem getFlag_flagsOf (v : Flag → Bool) (f : Flag) : getFlag (flagsOf v) f = v f := by cases f <;> rfl

theorem getFlag_clearFlags (cfg : Config) (fl : Flags) (w : BitVec 32) (f : Flag) :
    getFlag (clearFlags cfg fl w) f = (getFlag fl f && !(w.getLsbD (flagPosition cfg f))) :=
  getFlag_flagsOf _ f

theorem getFlag_setFlag (fl : Flags) (f g : Flag) : getFlag (setFlag fl f) g = (getFlag fl g || decide (g = f)) :=
  getFlag_flagsOf _ g

theorem getFlag_noFlags (f : Flag) : getFlag noFlags f = false := getFlag_flagsOf _ f

/-- Flags that agree at every name are equal. -/
theorem flags_ext (a b : Flags) (h : ∀ f, getFlag a f = getFlag b f) : a = b := by
  cases a; cases b
  have h0 := h .txfrs
  have h1 := h .rxfr
  have h2 := h .rxfcg
  have h3 := h .rxfce
  have h4 := h .rxphe
  have h5 := h .rxpto
  have h6 := h .rxsfdto
  simp only [getFlag] at h0 h1 h2 h3 h4 h5 h6
  subst h0 h1 h2 h3 h4 h5 h6
  rfl

theorem flagPosition_lt (cfg : Config) (f : Flag) : flagPosition cfg f < 32 := by
  cases f <;> exact Fin.isLt _

/-- Distinct flags have distinct positions (R11). -/
theorem flagPosition_inj (cfg : Config) (h : cfg.wf = true) (f g : Flag)
    (he : flagPosition cfg f = flagPosition cfg g) : f = g := by
  simp only [Config.wf, Bool.and_eq_true] at h
  have h2 : (allFlags.map (flagPosition cfg)).Nodup := by simpa [flagposDistinct] using h.1.2
  have hmem : ∀ f : Flag, f ∈ allFlags := by intro f; cases f <;> simp [allFlags]
  exact List.inj_on_of_nodup_map h2 (hmem f) (hmem g) he

theorem flagMask_getLsbD (cfg : Config) (f : Flag) (i : Nat) :
    (flagMask cfg f).getLsbD i = (decide (i < 32) && decide (flagPosition cfg f = i)) := by
  rw [flagMask, BitVec.getLsbD_twoPow]
  by_cases h : flagPosition cfg f = i
  · simp [h]
  · simp [h]

theorem flagBits_getLsbD (cfg : Config) (v : Flag → Bool) (fs : List Flag) (i : Nat) :
    (flagBits cfg v fs).getLsbD i = (decide (i < 32) && fs.any fun f => v f && decide (flagPosition cfg f = i)) := by
  induction fs with
  | nil => simp [flagBits]
  | cons f fs ih =>
    simp only [flagBits, BitVec.getLsbD_or, ih, List.any_cons, Bool.and_or_distrib_left]
    congr 1
    cases v f <;> simp [flagMask_getLsbD]

/-- The bit of a flag in the status word is the flag (R170). -/
theorem statusWord_flag (cfg : Config) (h : cfg.wf = true) (fl : Flags) (free : BitVec 32) (f : Flag) :
    (statusWord cfg fl free).getLsbD (flagPosition cfg f) = getFlag fl f := by
  have hmem : f ∈ allFlags := by cases f <;> simp [allFlags]
  have hall : (allMask cfg).getLsbD (flagPosition cfg f) = true := by
    rw [allMask, flagBits_getLsbD]
    simp only [flagPosition_lt, decide_true, Bool.true_and, List.any_eq_true]
    exact ⟨f, hmem, by simp⟩
  have hbits : (flagBits cfg (getFlag fl) allFlags).getLsbD (flagPosition cfg f) = getFlag fl f := by
    rw [flagBits_getLsbD]
    simp only [flagPosition_lt, decide_true, Bool.true_and]
    rw [Bool.eq_iff_iff, List.any_eq_true]
    constructor
    · rintro ⟨g, -, hg⟩
      simp only [Bool.and_eq_true, decide_eq_true_eq] at hg
      rw [flagPosition_inj cfg h f g hg.2.symm]
      exact hg.1
    · exact fun hf => ⟨f, hmem, by simp [hf]⟩
  simp [statusWord, hbits, hall]

/-- A bit that is no flag's is the draw's (R33). -/
theorem statusWord_other (cfg : Config) (fl : Flags) (free : BitVec 32) (i : Nat)
    (h : ∀ f, flagPosition cfg f ≠ i) : (statusWord cfg fl free).getLsbD i = free.getLsbD i := by
  by_cases hi : i < 32
  · simp only [statusWord, allMask, BitVec.getLsbD_or, BitVec.getLsbD_and, BitVec.getLsbD_not, flagBits_getLsbD]
    simp [h, hi, allFlags]
  · rw [BitVec.getLsbD_of_ge _ _ (by omega), BitVec.getLsbD_of_ge _ _ (by omega)]

/-- The host's test reads the flag's bit (R171). -/
theorem testFlag_eq (cfg : Config) (s : BitVec 32) (f : Flag) : testFlag cfg s f = s.getLsbD (flagPosition cfg f) := by
  simp only [testFlag, flagMask, BitVec.and_twoPow]
  split
  · rename_i h
    have : BitVec.twoPow 32 (flagPosition cfg f) ≠ 0 := by
      intro he
      have := congrArg (fun v => v.getLsbD (flagPosition cfg f)) he
      simp [flagPosition_lt] at this
    simpa [h] using this
  · rename_i h; simp [h]

end Sys2Proof.Machine
end

