-- ==== Sys2Proof/Laws/Memory.lean ====
section
/-! SUPPORT. Buffer memory: read after write, and the canonical form. -/

namespace Sys2Proof.Machine

/-- A read of the address just written gives the byte written. -/
theorem memRead_memWrite_same (m : Memory) (a : Nat) (b : Byte) : memRead (memWrite m a b) a = some b := by
  induction m with
  | nil => simp [memWrite, memRead]
  | cons c m ih =>
    obtain ⟨k, c⟩ := c
    simp only [memWrite]
    split
    · simp [memRead]
    · split
      · simp [memRead]
      · rename_i h; simp [memRead, h, ih]

/-- A write leaves every other address alone. -/
theorem memRead_memWrite_other (m : Memory) (a x : Nat) (b : Byte) (h : x ≠ a) :
    memRead (memWrite m a b) x = memRead m x := by
  induction m with
  | nil => simp [memWrite, memRead, h]
  | cons c m ih =>
    obtain ⟨k, c⟩ := c
    simp only [memWrite]
    split
    · simp [memRead, h]
    · split
      · rename_i h1 h2; subst h2; simp [memRead, h]
      · simp [memRead, ih]

/-- A run of bytes written: inside it the bytes, outside it nothing changed. -/
theorem memRead_memWriteBytes (m : Memory) (a x : Nat) (bs : List Byte) :
    memRead (memWriteBytes m a bs) x =
      if a ≤ x ∧ x < a + bs.length then bs[x - a]? else memRead m x := by
  induction bs generalizing m a with
  | nil => simp [memWriteBytes]
  | cons b bs ih =>
    simp only [memWriteBytes, ih, List.length_cons]
    by_cases hx : x = a
    · subst hx; simp [memRead_memWrite_same]
    · rw [memRead_memWrite_other _ _ _ _ hx]
      by_cases hin : a + 1 ≤ x ∧ x < a + 1 + bs.length
      · have : x - a = (x - (a + 1)) + 1 := by omega
        rw [if_pos hin, if_pos (by omega), this, List.getElem?_cons_succ]
      · rw [if_neg hin, if_neg (by omega)]

theorem memWfFrom_memWrite (m : Memory) (lo a : Nat) (b : Byte) (hlo : lo ≤ a) (ha : a < bufCap)
    (h : memWfFrom lo m = true) : memWfFrom lo (memWrite m a b) = true := by
  induction m generalizing lo with
  | nil => simp [memWrite, memWfFrom, hlo, ha]
  | cons c m ih =>
    obtain ⟨k, c⟩ := c
    simp only [memWfFrom, Bool.and_eq_true, decide_eq_true_eq] at h
    obtain ⟨⟨h1, h2⟩, h3⟩ := h
    simp only [memWrite]
    split
    · simp [memWfFrom, hlo, ha, h2, h3]; omega
    · split
      · rename_i hk; subst hk; simp [memWfFrom, h1, h2, h3]
      · simp [memWfFrom, h1, h2, ih (k + 1) (by omega) h3]

/-- A write below the capacity keeps the canonical form. -/
theorem memWf_memWrite (m : Memory) (a : Nat) (b : Byte) (ha : a < bufCap) (h : memWf m = true) :
    memWf (memWrite m a b) = true :=
  memWfFrom_memWrite m 0 a b (Nat.zero_le a) ha h

/-- A run of writes that ends below the capacity keeps the canonical form. -/
theorem memWf_memWriteBytes (m : Memory) (a : Nat) (bs : List Byte) (ha : a + bs.length ≤ bufCap)
    (h : memWf m = true) : memWf (memWriteBytes m a bs) = true := by
  induction bs generalizing m a with
  | nil => exact h
  | cons b bs ih =>
    simp only [List.length_cons] at ha
    exact ih _ _ (by omega) (memWf_memWrite m a b (by omega) h)

/-- The empty memory has the canonical form. -/
theorem memWf_nil : memWf [] = true := rfl

theorem memRead_none_below (m : Memory) (lo x : Nat) (h : memWfFrom lo m = true) (hx : x < lo) :
    memRead m x = none := by
  induction m generalizing lo with
  | nil => rfl
  | cons c m ih =>
    obtain ⟨k, c⟩ := c
    simp only [memWfFrom, Bool.and_eq_true, decide_eq_true_eq] at h
    rw [memRead, if_neg (by omega), ih (k + 1) h.2 (by omega)]

/-- In the canonical form equal contents are equal data. -/
theorem memory_ext (m m' : Memory) (lo : Nat) (h : memWfFrom lo m = true) (h' : memWfFrom lo m' = true)
    (he : ∀ x, memRead m x = memRead m' x) : m = m' := by
  induction m generalizing m' lo with
  | nil =>
    cases m' with
    | nil => rfl
    | cons c m' => exact absurd (he c.1) (by simp [memRead])
  | cons c m ih =>
    obtain ⟨k, b⟩ := c
    cases m' with
    | nil => exact absurd (he k) (by simp [memRead])
    | cons c' m' =>
      obtain ⟨k', b'⟩ := c'
      simp only [memWfFrom, Bool.and_eq_true, decide_eq_true_eq] at h h'
      have hk : k = k' := by
        rcases Nat.lt_trichotomy k k' with hlt | rfl | hlt
        · have := he k
          rw [memRead, memRead, if_pos rfl, if_neg (by omega), memRead_none_below m' (k' + 1) k h'.2 (by omega)] at this
          cases this
        · rfl
        · have := he k'
          rw [memRead, memRead, if_neg (by omega), if_pos rfl, memRead_none_below m (k + 1) k' h.2 (by omega)] at this
          cases this
      subst hk
      have hb : b = b' := by simpa [memRead] using he k
      subst hb
      congr 1
      refine ih m' (k + 1) h.2 h'.2 fun x => ?_
      by_cases hx : x = k
      · subst hx
        rw [memRead_none_below m _ x h.2 (by omega), memRead_none_below m' _ x h'.2 (by omega)]
      · simpa [memRead, hx] using he x

end Sys2Proof.Machine
end

