-- ==== Sys2Proof/Laws/State.lean ====
section
/-! SUPPORT. The state's updates, field by field: each named update against each field of State. -/

namespace Sys2Proof.Machine

@[simp] theorem drawn_cfg (s : State) : (drawn s).cfg = s.cfg := rfl
@[simp] theorem drawn_lifecycle (s : State) : (drawn s).lifecycle = s.lifecycle := rfl
@[simp] theorem drawn_pos (s : State) : (drawn s).pos = s.pos := rfl
@[simp] theorem drawn_regs (s : State) : (drawn s).regs = s.regs := rfl
@[simp] theorem drawn_result (s : State) : (drawn s).result = s.result := rfl
@[simp] theorem drawn_bus (s : State) : (drawn s).bus = s.bus := rfl
@[simp] theorem drawn_dec (s : State) : (drawn s).dec = s.dec := rfl
@[simp] theorem drawn_dev (s : State) : (drawn s).dev = s.dev := rfl
@[simp] theorem drawn_history (s : State) : (drawn s).history = s.history := rfl
@[simp] theorem drawn_diag (s : State) : (drawn s).diag = s.diag := rfl
@[simp] theorem drawn_calls (s : State) : (drawn s).calls = s.calls := rfl
@[simp] theorem drawn_turns (s : State) : (drawn s).turns = s.turns := rfl
@[simp] theorem drawn_drawPool (s : State) : (drawn s).drawPool = s.drawPool.tail := rfl
@[simp] theorem drawn_drawCtr (s : State) : (drawn s).drawCtr = s.drawCtr + 1 := rfl

@[simp] theorem csLow_cfg (ops : List SubOp) (s : State) : (csLow ops s).cfg = s.cfg := rfl
@[simp] theorem csLow_lifecycle (ops : List SubOp) (s : State) : (csLow ops s).lifecycle = s.lifecycle := rfl
@[simp] theorem csLow_pos (ops : List SubOp) (s : State) : (csLow ops s).pos = s.pos := rfl
@[simp] theorem csLow_regs (ops : List SubOp) (s : State) : (csLow ops s).regs = s.regs := rfl
@[simp] theorem csLow_result (ops : List SubOp) (s : State) : (csLow ops s).result = s.result := rfl
@[simp] theorem csLow_bus (ops : List SubOp) (s : State) :
    (csLow ops s).bus = { s.bus with cs := .low, flight := some { subops := ops, slotsDone := 0 } } := rfl
@[simp] theorem csLow_dec (ops : List SubOp) (s : State) :
    (csLow ops s).dec = { s.dec with phase := .hdr0, offset := 0, stage := [] } := rfl
@[simp] theorem csLow_dev (ops : List SubOp) (s : State) : (csLow ops s).dev = s.dev := rfl
@[simp] theorem csLow_history (ops : List SubOp) (s : State) : (csLow ops s).history = s.history := rfl
@[simp] theorem csLow_diag (ops : List SubOp) (s : State) : (csLow ops s).diag = s.diag := rfl
@[simp] theorem csLow_calls (ops : List SubOp) (s : State) : (csLow ops s).calls = s.calls := rfl
@[simp] theorem csLow_turns (ops : List SubOp) (s : State) : (csLow ops s).turns = s.turns := rfl
@[simp] theorem csLow_drawPool (ops : List SubOp) (s : State) : (csLow ops s).drawPool = s.drawPool := rfl
@[simp] theorem csLow_drawCtr (ops : List SubOp) (s : State) : (csLow ops s).drawCtr = s.drawCtr := rfl

@[simp] theorem release_cfg (s : State) : (release s).cfg = s.cfg := rfl
@[simp] theorem release_lifecycle (s : State) : (release s).lifecycle = s.lifecycle := rfl
@[simp] theorem release_pos (s : State) : (release s).pos = s.pos := rfl
@[simp] theorem release_regs (s : State) : (release s).regs = s.regs := rfl
@[simp] theorem release_result (s : State) : (release s).result = s.result := rfl
@[simp] theorem release_bus (s : State) : (release s).bus = { s.bus with cs := .high, flight := none } := rfl
@[simp] theorem release_dec (s : State) : (release s).dec = { s.dec with phase := .idle } := rfl
@[simp] theorem release_dev (s : State) : (release s).dev = s.dev := rfl
@[simp] theorem release_history (s : State) : (release s).history = s.history := rfl
@[simp] theorem release_diag (s : State) : (release s).diag = s.diag := rfl
@[simp] theorem release_calls (s : State) : (release s).calls = s.calls := rfl
@[simp] theorem release_turns (s : State) : (release s).turns = s.turns := rfl
@[simp] theorem release_drawPool (s : State) : (release s).drawPool = s.drawPool := rfl
@[simp] theorem release_drawCtr (s : State) : (release s).drawCtr = s.drawCtr := rfl

@[simp] theorem raiseError_cfg (e : Err) (s : State) : (raiseError e s).cfg = s.cfg := rfl
@[simp] theorem raiseError_lifecycle (e : Err) (s : State) : (raiseError e s).lifecycle = lifecycleAfterLoss s := rfl
@[simp] theorem raiseError_pos (e : Err) (s : State) : (raiseError e s).pos = .idle := rfl
@[simp] theorem raiseError_regs (e : Err) (s : State) : (raiseError e s).regs = s.regs := rfl
@[simp] theorem raiseError_result (e : Err) (s : State) : (raiseError e s).result = some (.error e) := rfl
@[simp] theorem raiseError_bus (e : Err) (s : State) : (raiseError e s).bus = s.bus := rfl
@[simp] theorem raiseError_dec (e : Err) (s : State) : (raiseError e s).dec = s.dec := rfl
@[simp] theorem raiseError_dev (e : Err) (s : State) : (raiseError e s).dev = s.dev := rfl
@[simp] theorem raiseError_history (e : Err) (s : State) : (raiseError e s).history = s.history := rfl
@[simp] theorem raiseError_diag (e : Err) (s : State) : (raiseError e s).diag = s.diag := rfl
@[simp] theorem raiseError_calls (e : Err) (s : State) : (raiseError e s).calls = s.calls := rfl
@[simp] theorem raiseError_turns (e : Err) (s : State) : (raiseError e s).turns = s.turns := rfl
@[simp] theorem raiseError_drawPool (e : Err) (s : State) : (raiseError e s).drawPool = s.drawPool := rfl
@[simp] theorem raiseError_drawCtr (e : Err) (s : State) : (raiseError e s).drawCtr = s.drawCtr := rfl

@[simp] theorem returnOk_cfg (r : OpResult) (s : State) : (returnOk r s).cfg = s.cfg := rfl
@[simp] theorem returnOk_lifecycle (r : OpResult) (s : State) : (returnOk r s).lifecycle = s.lifecycle := rfl
@[simp] theorem returnOk_pos (r : OpResult) (s : State) : (returnOk r s).pos = .idle := rfl
@[simp] theorem returnOk_regs (r : OpResult) (s : State) : (returnOk r s).regs = s.regs := rfl
@[simp] theorem returnOk_result (r : OpResult) (s : State) : (returnOk r s).result = some r := rfl
@[simp] theorem returnOk_bus (r : OpResult) (s : State) : (returnOk r s).bus = s.bus := rfl
@[simp] theorem returnOk_dec (r : OpResult) (s : State) : (returnOk r s).dec = s.dec := rfl
@[simp] theorem returnOk_dev (r : OpResult) (s : State) : (returnOk r s).dev = s.dev := rfl
@[simp] theorem returnOk_history (r : OpResult) (s : State) : (returnOk r s).history = s.history := rfl
@[simp] theorem returnOk_diag (r : OpResult) (s : State) : (returnOk r s).diag = s.diag := rfl
@[simp] theorem returnOk_calls (r : OpResult) (s : State) : (returnOk r s).calls = s.calls := rfl
@[simp] theorem returnOk_turns (r : OpResult) (s : State) : (returnOk r s).turns = s.turns := rfl
@[simp] theorem returnOk_drawPool (r : OpResult) (s : State) : (returnOk r s).drawPool = s.drawPool := rfl
@[simp] theorem returnOk_drawCtr (r : OpResult) (s : State) : (returnOk r s).drawCtr = s.drawCtr := rfl

@[simp] theorem dropOperation_cfg (s : State) : (dropOperation s).cfg = s.cfg := rfl
@[simp] theorem dropOperation_lifecycle (s : State) : (dropOperation s).lifecycle = lifecycleAfterLoss s := rfl
@[simp] theorem dropOperation_pos (s : State) : (dropOperation s).pos = .idle := rfl
@[simp] theorem dropOperation_regs (s : State) : (dropOperation s).regs = s.regs := rfl
@[simp] theorem dropOperation_result (s : State) : (dropOperation s).result = none := rfl
@[simp] theorem dropOperation_bus (s : State) : (dropOperation s).bus = s.bus := rfl
@[simp] theorem dropOperation_dec (s : State) : (dropOperation s).dec = s.dec := rfl
@[simp] theorem dropOperation_dev (s : State) : (dropOperation s).dev = s.dev := rfl
@[simp] theorem dropOperation_history (s : State) : (dropOperation s).history = s.history := rfl
@[simp] theorem dropOperation_diag (s : State) : (dropOperation s).diag = s.diag := rfl
@[simp] theorem dropOperation_calls (s : State) : (dropOperation s).calls = s.calls := rfl
@[simp] theorem dropOperation_turns (s : State) : (dropOperation s).turns = s.turns := rfl
@[simp] theorem dropOperation_drawPool (s : State) : (dropOperation s).drawPool = s.drawPool := rfl
@[simp] theorem dropOperation_drawCtr (s : State) : (dropOperation s).drawCtr = s.drawCtr := rfl

@[simp] theorem goTo_cfg (p : Pos) (s : State) : (goTo p s).cfg = s.cfg := rfl
@[simp] theorem goTo_lifecycle (p : Pos) (s : State) : (goTo p s).lifecycle = s.lifecycle := rfl
@[simp] theorem goTo_pos (p : Pos) (s : State) : (goTo p s).pos = p := rfl
@[simp] theorem goTo_regs (p : Pos) (s : State) : (goTo p s).regs = s.regs := rfl
@[simp] theorem goTo_result (p : Pos) (s : State) : (goTo p s).result = s.result := rfl
@[simp] theorem goTo_bus (p : Pos) (s : State) : (goTo p s).bus = s.bus := rfl
@[simp] theorem goTo_dec (p : Pos) (s : State) : (goTo p s).dec = s.dec := rfl
@[simp] theorem goTo_dev (p : Pos) (s : State) : (goTo p s).dev = s.dev := rfl
@[simp] theorem goTo_history (p : Pos) (s : State) : (goTo p s).history = s.history := rfl
@[simp] theorem goTo_diag (p : Pos) (s : State) : (goTo p s).diag = s.diag := rfl
@[simp] theorem goTo_calls (p : Pos) (s : State) : (goTo p s).calls = s.calls := rfl
@[simp] theorem goTo_turns (p : Pos) (s : State) : (goTo p s).turns = s.turns := rfl
@[simp] theorem goTo_drawPool (p : Pos) (s : State) : (goTo p s).drawPool = s.drawPool := rfl
@[simp] theorem goTo_drawCtr (p : Pos) (s : State) : (goTo p s).drawCtr = s.drawCtr := rfl

@[simp] theorem delayMs_cfg (ms : Nat) (s : State) : (delayMs ms s).cfg = s.cfg := rfl
@[simp] theorem delayMs_lifecycle (ms : Nat) (s : State) : (delayMs ms s).lifecycle = s.lifecycle := rfl
@[simp] theorem delayMs_pos (ms : Nat) (s : State) : (delayMs ms s).pos = s.pos := rfl
@[simp] theorem delayMs_regs (ms : Nat) (s : State) : (delayMs ms s).regs = s.regs := rfl
@[simp] theorem delayMs_result (ms : Nat) (s : State) : (delayMs ms s).result = s.result := rfl
@[simp] theorem delayMs_bus (ms : Nat) (s : State) : (delayMs ms s).bus = s.bus := rfl
@[simp] theorem delayMs_dec (ms : Nat) (s : State) : (delayMs ms s).dec = s.dec := rfl
@[simp] theorem delayMs_dev (ms : Nat) (s : State) : (delayMs ms s).dev = s.dev := rfl
@[simp] theorem delayMs_history (ms : Nat) (s : State) : (delayMs ms s).history = s.history ++ [.delay ms] := rfl
@[simp] theorem delayMs_diag (ms : Nat) (s : State) : (delayMs ms s).diag = s.diag := rfl
@[simp] theorem delayMs_calls (ms : Nat) (s : State) : (delayMs ms s).calls = s.calls := rfl
@[simp] theorem delayMs_turns (ms : Nat) (s : State) : (delayMs ms s).turns = s.turns := rfl
@[simp] theorem delayMs_drawPool (ms : Nat) (s : State) : (delayMs ms s).drawPool = s.drawPool := rfl
@[simp] theorem delayMs_drawCtr (ms : Nat) (s : State) : (delayMs ms s).drawCtr = s.drawCtr := rfl

@[simp] theorem emitDiag_cfg (d : Diag) (s : State) : (emitDiag d s).cfg = s.cfg := rfl
@[simp] theorem emitDiag_lifecycle (d : Diag) (s : State) : (emitDiag d s).lifecycle = s.lifecycle := rfl
@[simp] theorem emitDiag_pos (d : Diag) (s : State) : (emitDiag d s).pos = s.pos := rfl
@[simp] theorem emitDiag_regs (d : Diag) (s : State) : (emitDiag d s).regs = s.regs := rfl
@[simp] theorem emitDiag_result (d : Diag) (s : State) : (emitDiag d s).result = s.result := rfl
@[simp] theorem emitDiag_bus (d : Diag) (s : State) : (emitDiag d s).bus = s.bus := rfl
@[simp] theorem emitDiag_dec (d : Diag) (s : State) : (emitDiag d s).dec = s.dec := rfl
@[simp] theorem emitDiag_dev (d : Diag) (s : State) : (emitDiag d s).dev = s.dev := rfl
@[simp] theorem emitDiag_history (d : Diag) (s : State) : (emitDiag d s).history = s.history := rfl
@[simp] theorem emitDiag_diag (d : Diag) (s : State) : (emitDiag d s).diag = s.diag ++ [d] := rfl
@[simp] theorem emitDiag_calls (d : Diag) (s : State) : (emitDiag d s).calls = s.calls := rfl
@[simp] theorem emitDiag_turns (d : Diag) (s : State) : (emitDiag d s).turns = s.turns := rfl
@[simp] theorem emitDiag_drawPool (d : Diag) (s : State) : (emitDiag d s).drawPool = s.drawPool := rfl
@[simp] theorem emitDiag_drawCtr (d : Diag) (s : State) : (emitDiag d s).drawCtr = s.drawCtr := rfl

@[simp] theorem startAt_cfg (p : Pos) (s : State) : (startAt p s).cfg = s.cfg := rfl
@[simp] theorem startAt_lifecycle (p : Pos) (s : State) : (startAt p s).lifecycle = s.lifecycle := rfl
@[simp] theorem startAt_pos (p : Pos) (s : State) : (startAt p s).pos = p := rfl
@[simp] theorem startAt_regs (p : Pos) (s : State) : (startAt p s).regs = s.regs := rfl
@[simp] theorem startAt_result (p : Pos) (s : State) : (startAt p s).result = none := rfl
@[simp] theorem startAt_bus (p : Pos) (s : State) : (startAt p s).bus = s.bus := rfl
@[simp] theorem startAt_dec (p : Pos) (s : State) : (startAt p s).dec = s.dec := rfl
@[simp] theorem startAt_dev (p : Pos) (s : State) : (startAt p s).dev = s.dev := rfl
@[simp] theorem startAt_history (p : Pos) (s : State) : (startAt p s).history = s.history := rfl
@[simp] theorem startAt_diag (p : Pos) (s : State) : (startAt p s).diag = s.diag := rfl
@[simp] theorem startAt_calls (p : Pos) (s : State) : (startAt p s).calls = s.calls := rfl
@[simp] theorem startAt_turns (p : Pos) (s : State) : (startAt p s).turns = s.turns := rfl
@[simp] theorem startAt_drawPool (p : Pos) (s : State) : (startAt p s).drawPool = s.drawPool := rfl
@[simp] theorem startAt_drawCtr (p : Pos) (s : State) : (startAt p s).drawCtr = s.drawCtr := rfl

@[simp] theorem loadHeader_cfg (r : Reg) (wr : Bool) (s : State) : (loadHeader r wr s).cfg = s.cfg := rfl
@[simp] theorem loadHeader_lifecycle (r : Reg) (wr : Bool) (s : State) :
    (loadHeader r wr s).lifecycle = s.lifecycle := rfl
@[simp] theorem loadHeader_pos (r : Reg) (wr : Bool) (s : State) : (loadHeader r wr s).pos = s.pos := rfl
@[simp] theorem loadHeader_result (r : Reg) (wr : Bool) (s : State) : (loadHeader r wr s).result = s.result := rfl
@[simp] theorem loadHeader_bus (r : Reg) (wr : Bool) (s : State) : (loadHeader r wr s).bus = s.bus := rfl
@[simp] theorem loadHeader_dec (r : Reg) (wr : Bool) (s : State) : (loadHeader r wr s).dec = s.dec := rfl
@[simp] theorem loadHeader_dev (r : Reg) (wr : Bool) (s : State) : (loadHeader r wr s).dev = s.dev := rfl
@[simp] theorem loadHeader_history (r : Reg) (wr : Bool) (s : State) : (loadHeader r wr s).history = s.history := rfl
@[simp] theorem loadHeader_diag (r : Reg) (wr : Bool) (s : State) : (loadHeader r wr s).diag = s.diag := rfl
@[simp] theorem loadHeader_calls (r : Reg) (wr : Bool) (s : State) : (loadHeader r wr s).calls = s.calls := rfl
@[simp] theorem loadHeader_turns (r : Reg) (wr : Bool) (s : State) : (loadHeader r wr s).turns = s.turns := rfl
@[simp] theorem loadHeader_drawPool (r : Reg) (wr : Bool) (s : State) :
    (loadHeader r wr s).drawPool = s.drawPool := rfl
@[simp] theorem loadHeader_drawCtr (r : Reg) (wr : Bool) (s : State) : (loadHeader r wr s).drawCtr = s.drawCtr := rfl

@[simp] theorem fillOutBuffer_cfg (s : State) : (fillOutBuffer s).cfg = s.cfg := rfl
@[simp] theorem fillOutBuffer_lifecycle (s : State) : (fillOutBuffer s).lifecycle = s.lifecycle := rfl
@[simp] theorem fillOutBuffer_pos (s : State) : (fillOutBuffer s).pos = s.pos := rfl
@[simp] theorem fillOutBuffer_regs (s : State) :
    (fillOutBuffer s).regs = { s.regs with outBuffer := patch s.regs.outBuffer s.regs.rbytes } := rfl
@[simp] theorem fillOutBuffer_result (s : State) : (fillOutBuffer s).result = s.result := rfl
@[simp] theorem fillOutBuffer_bus (s : State) : (fillOutBuffer s).bus = s.bus := rfl
@[simp] theorem fillOutBuffer_dec (s : State) : (fillOutBuffer s).dec = s.dec := rfl
@[simp] theorem fillOutBuffer_dev (s : State) : (fillOutBuffer s).dev = s.dev := rfl
@[simp] theorem fillOutBuffer_history (s : State) : (fillOutBuffer s).history = s.history := rfl
@[simp] theorem fillOutBuffer_diag (s : State) : (fillOutBuffer s).diag = s.diag := rfl
@[simp] theorem fillOutBuffer_calls (s : State) : (fillOutBuffer s).calls = s.calls := rfl
@[simp] theorem fillOutBuffer_turns (s : State) : (fillOutBuffer s).turns = s.turns := rfl
@[simp] theorem fillOutBuffer_drawPool (s : State) : (fillOutBuffer s).drawPool = s.drawPool := rfl
@[simp] theorem fillOutBuffer_drawCtr (s : State) : (fillOutBuffer s).drawCtr = s.drawCtr := rfl

@[simp] theorem recvLengths_cfg (s : State) : (recvLengths s).cfg = s.cfg := rfl
@[simp] theorem recvLengths_lifecycle (s : State) : (recvLengths s).lifecycle = s.lifecycle := rfl
@[simp] theorem recvLengths_pos (s : State) : (recvLengths s).pos = s.pos := rfl
@[simp] theorem recvLengths_result (s : State) : (recvLengths s).result = s.result := rfl
@[simp] theorem recvLengths_bus (s : State) : (recvLengths s).bus = s.bus := rfl
@[simp] theorem recvLengths_dec (s : State) : (recvLengths s).dec = s.dec := rfl
@[simp] theorem recvLengths_dev (s : State) : (recvLengths s).dev = s.dev := rfl
@[simp] theorem recvLengths_history (s : State) : (recvLengths s).history = s.history := rfl
@[simp] theorem recvLengths_diag (s : State) : (recvLengths s).diag = s.diag := rfl
@[simp] theorem recvLengths_calls (s : State) : (recvLengths s).calls = s.calls := rfl
@[simp] theorem recvLengths_turns (s : State) : (recvLengths s).turns = s.turns := rfl
@[simp] theorem recvLengths_drawPool (s : State) : (recvLengths s).drawPool = s.drawPool := rfl
@[simp] theorem recvLengths_drawCtr (s : State) : (recvLengths s).drawCtr = s.drawCtr := rfl

@[simp] theorem raiseFlag_cfg (f : Flag) (s : State) : (raiseFlag f s).cfg = s.cfg := rfl
@[simp] theorem raiseFlag_lifecycle (f : Flag) (s : State) : (raiseFlag f s).lifecycle = s.lifecycle := rfl
@[simp] theorem raiseFlag_pos (f : Flag) (s : State) : (raiseFlag f s).pos = s.pos := rfl
@[simp] theorem raiseFlag_regs (f : Flag) (s : State) : (raiseFlag f s).regs = s.regs := rfl
@[simp] theorem raiseFlag_result (f : Flag) (s : State) : (raiseFlag f s).result = s.result := rfl
@[simp] theorem raiseFlag_bus (f : Flag) (s : State) : (raiseFlag f s).bus = s.bus := rfl
@[simp] theorem raiseFlag_dec (f : Flag) (s : State) : (raiseFlag f s).dec = s.dec := rfl
@[simp] theorem raiseFlag_dev (f : Flag) (s : State) :
    (raiseFlag f s).dev = { s.dev with flags := setFlag s.dev.flags f, trx := trxAfterEvent s.dev.trx } := rfl
@[simp] theorem raiseFlag_history (f : Flag) (s : State) : (raiseFlag f s).history = s.history := rfl
@[simp] theorem raiseFlag_diag (f : Flag) (s : State) : (raiseFlag f s).diag = s.diag := rfl
@[simp] theorem raiseFlag_calls (f : Flag) (s : State) : (raiseFlag f s).calls = s.calls := rfl
@[simp] theorem raiseFlag_turns (f : Flag) (s : State) : (raiseFlag f s).turns = s.turns := rfl
@[simp] theorem raiseFlag_drawPool (f : Flag) (s : State) : (raiseFlag f s).drawPool = s.drawPool := rfl
@[simp] theorem raiseFlag_drawCtr (f : Flag) (s : State) : (raiseFlag f s).drawCtr = s.drawCtr := rfl

@[simp] theorem scrambleRx_cfg (s : State) : (scrambleRx s).cfg = s.cfg := rfl
@[simp] theorem scrambleRx_lifecycle (s : State) : (scrambleRx s).lifecycle = s.lifecycle := rfl
@[simp] theorem scrambleRx_pos (s : State) : (scrambleRx s).pos = s.pos := rfl
@[simp] theorem scrambleRx_regs (s : State) : (scrambleRx s).regs = s.regs := rfl
@[simp] theorem scrambleRx_result (s : State) : (scrambleRx s).result = s.result := rfl
@[simp] theorem scrambleRx_bus (s : State) : (scrambleRx s).bus = s.bus := rfl
@[simp] theorem scrambleRx_dec (s : State) : (scrambleRx s).dec = s.dec := rfl
@[simp] theorem scrambleRx_dev (s : State) :
    (scrambleRx s).dev = { s.dev with rxFinfo := drawWord s, rxBuffer := [], rxDraw := s.drawCtr } := rfl
@[simp] theorem scrambleRx_history (s : State) : (scrambleRx s).history = s.history := rfl
@[simp] theorem scrambleRx_diag (s : State) : (scrambleRx s).diag = s.diag := rfl
@[simp] theorem scrambleRx_calls (s : State) : (scrambleRx s).calls = s.calls := rfl
@[simp] theorem scrambleRx_turns (s : State) : (scrambleRx s).turns = s.turns := rfl
@[simp] theorem scrambleRx_drawPool (s : State) : (scrambleRx s).drawPool = s.drawPool.tail := rfl
@[simp] theorem scrambleRx_drawCtr (s : State) : (scrambleRx s).drawCtr = s.drawCtr + 1 := rfl

@[simp] theorem drawRxfr_cfg (s : State) : (drawRxfr s).cfg = s.cfg := rfl
@[simp] theorem drawRxfr_lifecycle (s : State) : (drawRxfr s).lifecycle = s.lifecycle := rfl
@[simp] theorem drawRxfr_pos (s : State) : (drawRxfr s).pos = s.pos := rfl
@[simp] theorem drawRxfr_regs (s : State) : (drawRxfr s).regs = s.regs := rfl
@[simp] theorem drawRxfr_result (s : State) : (drawRxfr s).result = s.result := rfl
@[simp] theorem drawRxfr_bus (s : State) : (drawRxfr s).bus = s.bus := rfl
@[simp] theorem drawRxfr_dec (s : State) : (drawRxfr s).dec = s.dec := rfl
@[simp] theorem drawRxfr_history (s : State) : (drawRxfr s).history = s.history := rfl
@[simp] theorem drawRxfr_diag (s : State) : (drawRxfr s).diag = s.diag := rfl
@[simp] theorem drawRxfr_calls (s : State) : (drawRxfr s).calls = s.calls := rfl
@[simp] theorem drawRxfr_turns (s : State) : (drawRxfr s).turns = s.turns := rfl
@[simp] theorem drawRxfr_drawPool (s : State) : (drawRxfr s).drawPool = s.drawPool.tail := rfl
@[simp] theorem drawRxfr_drawCtr (s : State) : (drawRxfr s).drawCtr = s.drawCtr + 1 := rfl

@[simp] theorem deliverFrame_cfg (len : BitVec 10) (bytes : List Byte) (s : State) :
    (deliverFrame len bytes s).cfg = s.cfg := rfl
@[simp] theorem deliverFrame_lifecycle (len : BitVec 10) (bytes : List Byte) (s : State) :
    (deliverFrame len bytes s).lifecycle = s.lifecycle := rfl
@[simp] theorem deliverFrame_pos (len : BitVec 10) (bytes : List Byte) (s : State) :
    (deliverFrame len bytes s).pos = s.pos := rfl
@[simp] theorem deliverFrame_regs (len : BitVec 10) (bytes : List Byte) (s : State) :
    (deliverFrame len bytes s).regs = s.regs := rfl
@[simp] theorem deliverFrame_result (len : BitVec 10) (bytes : List Byte) (s : State) :
    (deliverFrame len bytes s).result = s.result := rfl
@[simp] theorem deliverFrame_bus (len : BitVec 10) (bytes : List Byte) (s : State) :
    (deliverFrame len bytes s).bus = s.bus := rfl
@[simp] theorem deliverFrame_dec (len : BitVec 10) (bytes : List Byte) (s : State) :
    (deliverFrame len bytes s).dec = s.dec := rfl
@[simp] theorem deliverFrame_history (len : BitVec 10) (bytes : List Byte) (s : State) :
    (deliverFrame len bytes s).history = s.history := rfl
@[simp] theorem deliverFrame_diag (len : BitVec 10) (bytes : List Byte) (s : State) :
    (deliverFrame len bytes s).diag = s.diag := rfl
@[simp] theorem deliverFrame_calls (len : BitVec 10) (bytes : List Byte) (s : State) :
    (deliverFrame len bytes s).calls = s.calls := rfl
@[simp] theorem deliverFrame_turns (len : BitVec 10) (bytes : List Byte) (s : State) :
    (deliverFrame len bytes s).turns = s.turns := rfl
@[simp] theorem deliverFrame_drawPool (len : BitVec 10) (bytes : List Byte) (s : State) :
    (deliverFrame len bytes s).drawPool = s.drawPool.tail := rfl
@[simp] theorem deliverFrame_drawCtr (len : BitVec 10) (bytes : List Byte) (s : State) :
    (deliverFrame len bytes s).drawCtr = s.drawCtr + 1 := rfl

end Sys2Proof.Machine
end

