-- ==== Sys2Proof/Laws/Transport.lean ====
section
/-! SUPPORT. What a transaction can do, said once: slot by slot, then in closed form for a delivered read, write and fast
command, and as one inversion lemma for all of them. -/

namespace Sys2Proof.Machine

open Host (Outcome)

/-! ### Slots in a row -/

theorem deliverSlots_append (xs ys : List Slot) (s : State) :
    deliverSlots (xs ++ ys) s =
      ((deliverSlots ys (deliverSlots xs s).1).1, (deliverSlots xs s).2 ++ (deliverSlots ys (deliverSlots xs s).1).2) := by
  induction xs generalizing s with
  | nil => rfl
  | cons x xs ih => simp [deliverSlots, ih]

/-- The state after `k` slots that left the decoder as `d`. -/
def slotsTaken (k : Nat) (d : Decoder) (s : State) : State :=
  { s with
    bus := { s.bus with flight := s.bus.flight.map fun f => { f with slotsDone := f.slotsDone + k } }
    dec := d }

@[simp] theorem slotsTaken_dec (k : Nat) (d : Decoder) (s : State) : (slotsTaken k d s).dec = d := rfl

@[simp] theorem slotsTaken_plan (k : Nat) (d : Decoder) (s : State) : (slotsTaken k d s).bus.plan = s.bus.plan := rfl
@[simp] theorem slotsTaken_cfg (k : Nat) (d : Decoder) (s : State) : (slotsTaken k d s).cfg = s.cfg := rfl
@[simp] theorem slotsTaken_dev (k : Nat) (d : Decoder) (s : State) : (slotsTaken k d s).dev = s.dev := rfl
@[simp] theorem csLow_plan (ops : List SubOp) (s : State) : (csLow ops s).bus.plan = s.bus.plan := rfl

theorem slotsTaken_zero (s : State) : slotsTaken 0 s.dec s = s := by
  obtain ⟨⟩ := s
  rename_i bus _ _ _ _ _ _ _ _
  obtain ⟨cs, flight, plan, ret⟩ := bus
  cases flight <;> rfl

theorem slotsTaken_slotsTaken (j k : Nat) (d e : Decoder) (s : State) :
    slotsTaken j d (slotsTaken k e s) = slotsTaken (k + j) d s := by
  obtain ⟨⟩ := s
  rename_i bus _ _ _ _ _ _ _ _
  obtain ⟨cs, flight, plan, ret⟩ := bus
  cases flight <;> simp [slotsTaken, Nat.add_assoc]

/-- The write data phase: the bytes are staged (R112). -/
theorem deliverSlots_writeData (r : Reg) (data : List Byte) (s : State) (hp : s.dec.phase = .data)
    (hw : s.dec.wr = true) (hr : s.dec.reg = some r) (hl : s.dec.offset + data.length ≤ regLength r) :
    deliverSlots (data.map .write) s =
      (slotsTaken data.length
        { s.dec with offset := s.dec.offset + data.length, stage := s.dec.stage ++ data } s, []) := by
  induction data generalizing s with
  | nil => simpa [deliverSlots] using (slotsTaken_zero s).symm
  | cons b data ih =>
    simp only [List.length_cons] at hl
    have h1 : deliverSlot (.write b) s =
        (slotsTaken 1 { s.dec with offset := s.dec.offset + 1, stage := s.dec.stage ++ [b] } s, none) := by
      simp only [deliverSlot, deviceSlot, hp, hr, dataSlot, hw]
      rw [if_neg (by omega)]
      simp [slotsTaken]
    have h2 := ih (slotsTaken 1 { s.dec with offset := s.dec.offset + 1, stage := s.dec.stage ++ [b] } s) hp hw hr
      (by simp only [slotsTaken_dec]; omega)
    simp only [List.map_cons, deliverSlots, h1, h2, slotsTaken_slotsTaken, slotsTaken_dec]
    simp [Nat.add_comm data.length, Nat.add_assoc]

/-- The read data phase: the bytes of the snapshot (R112). -/
theorem deliverSlots_readData (r : Reg) (n : Nat) (s : State) (hp : s.dec.phase = .data)
    (hw : s.dec.wr = false) (hr : s.dec.reg = some r) (hl : s.dec.offset + n ≤ regLength r)
    (hs : s.dec.offset + n ≤ s.dec.snap.length) :
    deliverSlots (List.replicate n .read) s =
      (slotsTaken n { s.dec with offset := s.dec.offset + n } s, (s.dec.snap.drop s.dec.offset).take n) := by
  induction n generalizing s with
  | zero => simpa [deliverSlots] using (slotsTaken_zero s).symm
  | succ n ih =>
    have h1 : deliverSlot .read s =
        (slotsTaken 1 { s.dec with offset := s.dec.offset + 1 } s, some (s.dec.snap.getD s.dec.offset 0)) := by
      simp only [deliverSlot, deviceSlot, hp, hr, dataSlot, hw]
      rw [if_neg (by omega)]
      simp [slotsTaken]
    have h2 := ih (slotsTaken 1 { s.dec with offset := s.dec.offset + 1 } s) hp hw hr
      (by simp only [slotsTaken_dec]; omega) (by simp only [slotsTaken_dec]; omega)
    have hd : s.dec.snap.drop s.dec.offset = s.dec.snap[s.dec.offset] :: s.dec.snap.drop (s.dec.offset + 1) :=
      List.drop_eq_getElem_cons (by omega)
    simp only [List.replicate_succ, deliverSlots, h1, h2, slotsTaken_slotsTaken, slotsTaken_dec, hd, List.take_succ_cons]
    simp [Nat.add_comm n, Nat.add_assoc, List.getElem?_eq_getElem (show s.dec.offset < s.dec.snap.length by omega)]

/-! ### The header -/

/-- The decoder after a header that reaches its data phase, before the snapshot (R110, R111). -/
def headerTaken (r : Reg) (wr : Bool) (fid : BitVec 5) (sub : BitVec 7) (d : Decoder) : Decoder :=
  { d with phase := .data, wr := wr, fid := fid, sub := sub, mode := 0, reg := some r }

/-- The decoder after the first header byte (R110). -/
def headerStarted (wr : Bool) (fid : BitVec 5) (sub : BitVec 7) (d : Decoder) : Decoder :=
  { d with
    phase := .hdr1, wr := wr, fid := fid, sub := joinSub (sub.extractLsb' 6 1) (d.sub.extractLsb' 0 6) }

/-- The first header byte (R110). -/
theorem deliverSlot_header0 (fid : BitVec 5) (sub : BitVec 7) (wr : Bool) (s : State) (hp : s.dec.phase = .hdr0) :
    deliverSlot (.write (headerByte0 fid.toNat sub.toNat wr)) s =
      (slotsTaken 1 (headerStarted wr fid sub s.dec) s, none) := by
  simp only [deliverSlot, deviceSlot, hp, slot0, hdrFull_headerByte0, hdrWr_headerByte0, hdrFid_headerByte0,
    hdrSubHigh_headerByte0, if_true, slotsTaken, headerStarted]

/-- The second header byte, of a register whose access right allows the direction (R111). -/
theorem deliverSlot_header1 (r : Reg) (wr : Bool) (d : Decoder) (t : State) (hwf : t.cfg.wf = true)
    (hd : t.dec = headerStarted wr (regAddr t.cfg r).fileId (regAddr t.cfg r).subAddress d)
    (ha : accessAllowed r wr = true) :
    deliverSlot (.write (headerByte1 (regAddr t.cfg r).subAddress.toNat)) t =
      (enterData (slotsTaken 1
        (headerTaken r wr (regAddr t.cfg r).fileId (regAddr t.cfg r).subAddress d) t), none) := by
  have hs : slot1 t.cfg t.dec (.write (headerByte1 (regAddr t.cfg r).subAddress.toNat)) =
      headerTaken r wr (regAddr t.cfg r).fileId (regAddr t.cfg r).subAddress d := by
    simp only [slot1, hd, headerStarted, joinSub_high, hdrSubLow_headerByte1, joinSub_parts, hdrMode_headerByte1,
      headerPhase, catalogLookup_regAddr t.cfg hwf r, ha, headerTaken]
    simp
  have hph : t.dec.phase = .hdr1 := by rw [hd]; rfl
  simp only [deliverSlot, deviceSlot, hph, hs]
  cases wr <;> cases r <;> simp [enterData, headerTaken, sample, slotsTaken, drawWord, drawn]

/-- The slots of a register's header. -/
theorem map_regHeader (cfg : Config) (r : Reg) (wr : Bool) :
    (regHeader cfg r wr).map Slot.write =
      [.write (headerByte0 (regAddr cfg r).fileId.toNat (regAddr cfg r).subAddress.toNat wr),
       .write (headerByte1 (regAddr cfg r).subAddress.toNat)] := rfl

/-- A whole header of a register whose access right allows the direction (R111). -/
theorem deliverSlots_header (r : Reg) (wr : Bool) (s : State) (hwf : s.cfg.wf = true)
    (hp : s.dec.phase = .hdr0) (ha : accessAllowed r wr = true) :
    deliverSlots ((regHeader s.cfg r wr).map .write) s =
      (enterData (slotsTaken 2 (headerTaken r wr (regAddr s.cfg r).fileId (regAddr s.cfg r).subAddress s.dec) s), []) := by
  have h1 := deliverSlot_header1 r wr s.dec
    (slotsTaken 1 (headerStarted wr (regAddr s.cfg r).fileId (regAddr s.cfg r).subAddress s.dec) s) hwf rfl ha
  have hc : (slotsTaken 1 (headerStarted wr (regAddr s.cfg r).fileId (regAddr s.cfg r).subAddress s.dec) s).cfg =
    s.cfg := rfl
  rw [hc] at h1
  simp only [map_regHeader, deliverSlots, deliverSlot_header0 _ _ _ _ hp, h1, slotsTaken_slotsTaken]
  rfl

/-! ### Whole transactions in closed form -/

theorem regBytes_length (cfg : Config) (d : Device) (free : BitVec 32) (r : Reg) (h : readable r = true) :
    (regBytes cfg d free r).length = regLength r := by
  cases r <;> simp [regBytes, regLength, bufCap, readable] at *

theorem enterData_read (r : Reg) (k : Nat) (fid : BitVec 5) (sub : BitVec 7) (d : Decoder) (s : State) :
    enterData (slotsTaken k (headerTaken r false fid sub d) s) =
      slotsTaken k { headerTaken r false fid sub d with snap := regBytes s.cfg s.dev (drawWord s) r } (sampled r s) := by
  cases r <;> rfl

theorem enterData_write (r : Reg) (k : Nat) (fid : BitVec 5) (sub : BitVec 7) (d : Decoder) (s : State) :
    enterData (slotsTaken k (headerTaken r true fid sub d) s) = slotsTaken k (headerTaken r true fid sub d) s := rfl

theorem expand_header (cfg : Config) (r : Reg) (wr : Bool) (ops : List SubOp) :
    expand (.write (regHeader cfg r wr) :: ops) = (regHeader cfg r wr).map .write ++ expand ops := rfl

theorem sentBytes_append (xs ys : List Slot) : sentBytes (xs ++ ys) = sentBytes xs ++ sentBytes ys := by
  induction xs with
  | nil => rfl
  | cons x xs ih => cases x <;> simp [sentBytes, ih]

theorem sentBytes_write (data : List Byte) : sentBytes (data.map .write) = data := by
  induction data with
  | nil => rfl
  | cons b data ih => simp [sentBytes, ih]

theorem sentBytes_read (n : Nat) : sentBytes (List.replicate n .read) = [] := by
  induction n with
  | zero => rfl
  | succ n ih => simp [List.replicate_succ, sentBytes, ih]

/-- A read that is carried whole: the first bytes of the snapshot, nothing changed in the device (R130). -/
theorem xact_read (r : Reg) (n : Nat) (s : State) (hwf : s.cfg.wf = true) (hplan : s.bus.plan = .ok)
    (hr : readable r = true) (hn : n ≤ regLength r) :
    ∃ d, xact [.write (regHeader s.cfg r false), .read n] s =
      .next (completed [.write (regHeader s.cfg r false), .read n] (regHeader s.cfg r false)
        ((regBytes s.cfg s.dev (drawWord s) r).take n) .ok d (sampled r s)) := by
  have hlen := regBytes_length s.cfg s.dev (drawWord s) r hr
  have hh := deliverSlots_header r false (csLow [.write (regHeader s.cfg r false), .read n] s) hwf rfl hr
  simp only [csLow_cfg, enterData_read] at hh
  have hd := deliverSlots_readData r n
    (slotsTaken 2
      { headerTaken r false (regAddr s.cfg r).fileId (regAddr s.cfg r).subAddress
          (csLow [.write (regHeader s.cfg r false), .read n] s).dec with
        snap := regBytes s.cfg s.dev (drawWord s) r }
      (sampled r (csLow [.write (regHeader s.cfg r false), .read n] s)))
    rfl rfl rfl (by simpa [headerTaken] using hn) (by simp [headerTaken, hlen]; exact hn)
  simp only [xact, hplan, delivered, expand, subOpSlots, List.append_nil, deliverSlots_append, hh]
  have hdw : drawWord (csLow [.write (regHeader s.cfg r false), .read n] s) = drawWord s := rfl
  simp only [csLow_dev, hdw, hd]
  refine ⟨{ headerTaken r false (regAddr s.cfg r).fileId (regAddr s.cfg r).subAddress
          (csLow [.write (regHeader s.cfg r false), .read n] s).dec with
        snap := regBytes s.cfg s.dev (drawWord s) r, offset := n }, ?_⟩
  cases r <;>
    simp [receive, csHigh, endOfTransaction, slotsTaken, headerTaken, csLow, sampled, hplan, release, completed, drawn,
      expand, subOpSlots, sentBytes_append, sentBytes_write, sentBytes_read]

theorem delivered_eq (p : Plan) (xs : List Slot) : delivered p xs = xs.take (deliveredCount p xs.length) := by
  cases p <;> simp [delivered, deliveredCount, List.take_eq_take_iff]

@[simp] theorem afterPlan_dec (p : Plan) (s : State) : (afterPlan p s).dec = s.dec := by cases p <;> rfl
@[simp] theorem afterPlan_dev (p : Plan) (s : State) : (afterPlan p s).dev = s.dev := by cases p <;> rfl
@[simp] theorem afterPlan_cfg (p : Plan) (s : State) : (afterPlan p s).cfg = s.cfg := by cases p <;> rfl

/-- The device after a committed write of the bytes that arrived; a cut header changes nothing (R84, R131). -/
def afterWrite (r : Reg) (data : List Byte) (s : State) : State :=
  { s with dev := if deliveredCount s.bus.plan (2 + data.length) < 2 then s.dev
      else commitWrite s.cfg r (arrived s.bus.plan data) s.dev }

theorem commitWrite_nil (cfg : Config) (r : Reg) (d : Device) : commitWrite cfg r [] d = d := by
  cases r <;> simp [commitWrite, euiOfBytes_euiBytes, unle32_le32, memWriteBytes]
  · have : clearFlags cfg d.flags (unle32 []) = d.flags :=
      flags_ext _ _ fun f => by simp [getFlag_clearFlags, unle32]
    rw [this]

/-- What HOST receives of a transaction with no `Read` sub-operation. -/
theorem receive_noRead (ops : List SubOp) (t : State) (h : readBytesAsked ops = 0) :
    receive ops [] t =
      afterPlan t.bus.plan { t with
        regs := { t.regs with rbytes := [] }
        bus := { t.bus with plan := .ok, ret := planRet t.bus.plan }
        history := t.history ++ [.xact ops
          (sentBytes ((expand ops).take (deliveredCount t.bus.plan (expand ops).length))) [] (planRet t.bus.plan)] } := by
  have htake : ∀ n, (expand ops).take (min n (expand ops).length) = (expand ops).take n := fun n => by
    rw [List.take_eq_take_iff]; omega
  cases hp : t.bus.plan <;>
    simp [receive, hp, h, afterPlan, planRet, bytesFrom, deliveredCount, htake]

theorem deliveredCount_le (p : Plan) (k : Nat) : deliveredCount p k ≤ k := by
  cases p <;> simp [deliveredCount]

/-- The end of a write transaction whose data phase was reached (R113). -/
theorem csHigh_data (r : Reg) (s : State) (hp : s.dec.phase = .data) (hw : s.dec.wr = true) (hr : s.dec.reg = some r) :
    csHigh s = .next (release { s with dev := commitWrite s.cfg r s.dec.stage s.dev }) := by
  simp [csHigh, endOfTransaction, hp, hw, hr]

/-- The end of a transaction cut inside its header: nothing happens (R113). -/
theorem csHigh_header (s : State) (hp : s.dec.phase = .hdr0 ∨ s.dec.phase = .hdr1) : csHigh s = .next (release s) := by
  rcases hp with hp | hp <;> simp [csHigh, endOfTransaction, hp]

/-- The slots of a header cut short leave the decoder waiting for the rest of it (R110). -/
theorem deliverSlots_cutHeader (cfg : Config) (r : Reg) (wr : Bool) (xs : List Slot) (m : Nat) (s : State) (h : m < 2)
    (hp : s.dec.phase = .hdr0) :
    ∃ d, deliverSlots (((regHeader cfg r wr).map Slot.write ++ xs).take m) s = (slotsTaken m d s, []) ∧
      (d.phase = .hdr0 ∨ d.phase = .hdr1) := by
  rw [map_regHeader]
  interval_cases m
  · exact ⟨s.dec, by simpa [deliverSlots] using (slotsTaken_zero s).symm, .inl hp⟩
  · refine ⟨headerStarted wr (regAddr cfg r).fileId (regAddr cfg r).subAddress s.dec, ?_, .inr rfl⟩
    simp [deliverSlots, deliverSlot_header0 _ _ _ s hp]

/-- A write under any plan: carried whole, or the prefix that arrived (R84, R131). -/
theorem xact_write (r : Reg) (data : List Byte) (s : State) (hwf : s.cfg.wf = true)
    (hr : writable r = true) (hn : data.length ≤ regLength r) :
    ∃ d, xact [.write (regHeader s.cfg r true), .write data] s =
      .next (completed [.write (regHeader s.cfg r true), .write data]
        ((regHeader s.cfg r true ++ data).take (deliveredCount s.bus.plan (2 + data.length))) [] (planRet s.bus.plan) d
        (afterPlan s.bus.plan (afterWrite r data s))) := by
  obtain ⟨ops, hops⟩ : ∃ ops, [SubOp.write (regHeader s.cfg r true), .write data] = ops := ⟨_, rfl⟩
  obtain ⟨m, hm⟩ : ∃ m, deliveredCount s.bus.plan (2 + data.length) = m := ⟨_, rfl⟩
  have hmle : m ≤ 2 + data.length := hm ▸ deliveredCount_le _ _
  have hx : expand ops = (regHeader s.cfg r true).map .write ++ data.map .write := by
    simp [← hops, expand, subOpSlots]
  have hlen : (expand ops).length = 2 + data.length := by rw [hx]; simp [regHeader]; omega
  have hsent : sentBytes ((expand ops).take m) = (regHeader s.cfg r true ++ data).take m := by
    rw [hx, ← List.map_append, ← List.map_take, sentBytes_write]
  have hask : readBytesAsked ops = 0 := by rw [← hops]; rfl
  rw [hops, xact, delivered_eq, hlen, hm]
  by_cases h2 : m < 2
  · obtain ⟨d, hd, hph⟩ := deliverSlots_cutHeader s.cfg r true (data.map .write) m (csLow ops s) h2 rfl
    refine ⟨d, ?_⟩
    rw [hx, hd]
    simp only
    rw [receive_noRead ops _ hask]
    rw [csHigh_header _ (by simpa using hph)]
    simp only [slotsTaken_plan, csLow_plan, hlen, hm, hsent, afterWrite, h2, if_true]
    cases hp : s.bus.plan <;> simp [afterPlan, release, completed, slotsTaken, csLow]
  · have hh := deliverSlots_header r true (csLow ops s) hwf rfl hr
    simp only [csLow_cfg, enterData_write] at hh
    have htake : (expand ops).take m = (regHeader s.cfg r true).map .write ++ (data.take (m - 2)).map .write := by
      rw [hx, List.take_append]
      rw [List.take_of_length_le (by simp [regHeader]; omega)]
      simp [regHeader, List.map_take]
    have hd := deliverSlots_writeData r (data.take (m - 2))
      (slotsTaken 2
        (headerTaken r true (regAddr s.cfg r).fileId (regAddr s.cfg r).subAddress (csLow ops s).dec) (csLow ops s))
      rfl rfl rfl (by simp [headerTaken]; omega)
    rw [htake, deliverSlots_append, hh]
    simp only [hd, List.append_nil]
    rw [receive_noRead ops _ hask]
    have harr : arrived s.bus.plan data = data.take (m - 2) := by rw [arrived, hm]
    refine ⟨{ headerTaken r true (regAddr s.cfg r).fileId (regAddr s.cfg r).subAddress (csLow ops s).dec with
      offset := (data.take (m - 2)).length, stage := data.take (m - 2) }, ?_⟩
    rw [csHigh_data r _ (by simp [headerTaken]) (by simp [headerTaken]) (by simp [headerTaken])]
    simp only [slotsTaken_plan, csLow_plan, hlen, hm, hsent, afterWrite, h2, if_false, harr]
    cases hp : s.bus.plan <;> simp [afterPlan, release, completed, slotsTaken, csLow, headerTaken]

/-- The end of a delivered fast command (R113). -/
theorem csHigh_fast (s : State) (hp : s.dec.phase = .fast) :
    csHigh s =
      match command s.cfg s.dec.code s.dev with
      | .next out => .next (release { s with dev := out.1, history := s.history ++ out.2 })
      | .fault r => .fault r
      | .refused r => .refused r := by
  simp only [csHigh, endOfTransaction, hp, commitCommand]
  cases command s.cfg s.dec.code s.dev <;> rfl

/-- A fast command under any plan: delivered, it is committed; undelivered, nothing happens (R84, R150). -/
theorem xact_fast (code : Nat) (s : State) :
    ∃ d, xact [.write [fcByte code]] s =
      if deliveredCount s.bus.plan 1 = 0 then
        .next (completed [.write [fcByte code]] [] [] (planRet s.bus.plan) d (afterPlan s.bus.plan s))
      else
        match command s.cfg (BitVec.ofNat 5 code) s.dev with
        | .next out =>
          let t := completed [.write [fcByte code]] [fcByte code] [] (planRet s.bus.plan) d (afterPlan s.bus.plan s)
          .next { t with dev := out.1, history := t.history ++ out.2 }
        | .fault r => .fault r
        | .refused r => .refused r := by
  obtain ⟨ops, hops⟩ : ∃ ops, [SubOp.write [fcByte code]] = ops := ⟨_, rfl⟩
  have hx : expand ops = [.write (fcByte code)] := by rw [← hops]; rfl
  have hask : readBytesAsked ops = 0 := by rw [← hops]; rfl
  obtain ⟨m, hm⟩ : ∃ m, deliveredCount s.bus.plan 1 = m := ⟨_, rfl⟩
  have hmle : m ≤ 1 := hm ▸ deliveredCount_le _ _
  have hlen : (expand ops).length = 1 := by rw [hx]; rfl
  rw [hops, xact, delivered_eq, hlen, hm, hx]
  obtain rfl | rfl : m = 0 ∨ m = 1 := by omega
  · refine ⟨{ s.dec with phase := .hdr0, offset := 0, stage := [] }, ?_⟩
    simp only [List.take_zero, deliverSlots]
    rw [receive_noRead ops _ hask, csHigh_header _ (by simp)]
    simp only [csLow_plan, hx, List.length_cons, List.length_nil, Nat.zero_add, hm, if_true, List.take_zero, sentBytes]
    cases hp : s.bus.plan <;> simp [afterPlan, release, completed, csLow]
  · have h1 : deliverSlots [.write (fcByte code)] (csLow ops s) =
        (slotsTaken 1 { s.dec with phase := .fast, code := BitVec.ofNat 5 code, offset := 0, stage := [] }
          (csLow ops s), []) := by
      simp [deliverSlots, deliverSlot, deviceSlot, csLow, slot0, hdrFull_fcByte, isFastByte_fcByte, fcCode_fcByte,
        slotsTaken]
    simp only [List.take_succ_cons, List.take_zero, h1]
    rw [receive_noRead ops _ hask, csHigh_fast _ (by simp)]
    simp only [slotsTaken_plan, csLow_plan, hx, List.length_cons, List.length_nil, Nat.zero_add, hm,
      List.take_succ_cons, List.take_zero, sentBytes,
      afterPlan_dec, afterPlan_cfg, afterPlan_dev, slotsTaken_dec, slotsTaken_cfg, slotsTaken_dev, csLow_cfg, csLow_dev]
    refine ⟨{ s.dec with phase := .fast, code := BitVec.ofNat 5 code, offset := 0, stage := [] }, ?_⟩
    cases command s.cfg (BitVec.ofNat 5 code) s.dev with
    | next r => cases hp : s.bus.plan <;> simp [afterPlan, release, completed, slotsTaken, csLow]
    | fault r => simp
    | refused r => simp

end Sys2Proof.Machine
end

