-- ==== Sys2Proof/Laws/Inversion.lean ====
section
/-! SUPPORT. Everything a transaction can do, in one inversion lemma: what HOST keeps, what the bus is, and the only
effects on the device, each with the bytes on the wire that explain it. -/

namespace Sys2Proof

/-- A first byte of a full header is what the encoder makes of its fields (R103, R104). -/
theorem headerByte0_fields (b0 : Byte) (sub : BitVec 7) (h : hdrFull b0 = true)
    (hs : sub.extractLsb' 6 1 = hdrSubHigh b0) : b0 = headerByte0 (hdrFid b0).toNat sub.toNat (hdrWr b0) := by
  have h6 : sub.getLsbD 6 = b0.getLsbD 0 := by
    have := congrArg (fun v => v.getLsbD 0) hs
    simpa [hdrSubHigh] using this
  ext i hi
  rw [← BitVec.getLsbD_eq_getElem, ← BitVec.getLsbD_eq_getElem, headerByte0_getLsbD]
  simp only [hdrFull] at h
  simp only [BitVec.testBit_toNat, hdrFid, hdrWr, BitVec.getLsbD_extractLsb', h6]
  interval_cases i <;> simp [h]

/-- A second header byte in standard mode is what the encoder makes of its field (R103, R104). -/
theorem headerByte1_fields (b1 : Byte) (sub : BitVec 7) (h : hdrMode b1 = 0)
    (hs : sub.extractLsb' 0 6 = hdrSubLow b1) : b1 = headerByte1 sub.toNat := by
  have hm : ∀ i, i < 2 → b1.getLsbD i = false := fun i hi => by
    have := congrArg (fun v => v.getLsbD i) h
    simpa [hdrMode, hi] using this
  have hl : ∀ i, i < 6 → sub.getLsbD i = b1.getLsbD (2 + i) := fun i hi => by
    have := congrArg (fun v => v.getLsbD i) hs
    simpa [hdrSubLow, hi] using this
  ext i hi
  rw [← BitVec.getLsbD_eq_getElem, ← BitVec.getLsbD_eq_getElem, headerByte1_getLsbD, BitVec.testBit_toNat]
  by_cases h2 : i < 2
  · rw [hm i h2]; simp; omega
  · rw [hl (i - 2) (by omega), show 2 + (i - 2) = i from by omega]; simp; omega

/-- A fast-command byte is what the encoder makes of its code (R106). -/
theorem fcByte_fields (b : Byte) (h : isFastByte b = true) (hf : hdrFull b = false) :
    b = fcByte (fcCode b).toNat := by
  simp only [isFastByte, hdrFull, Bool.and_eq_true, Bool.not_eq_true'] at h hf
  ext i hi
  rw [← BitVec.getLsbD_eq_getElem, ← BitVec.getLsbD_eq_getElem, fcByte_getLsbD, BitVec.testBit_toNat, fcCode]
  interval_cases i <;> simp_all

theorem joinSub_low (h : BitVec 1) (l : BitVec 6) : (joinSub h l).extractLsb' 0 6 = l := by
  ext i hi
  interval_cases i <;> simp [joinSub]

end Sys2Proof

namespace Sys2Proof.Machine

open Host (Outcome)

/-- `t` differs from `s` in the decoder, the flight and the draws only. -/
def OnlyDecoder (s t : State) : Prop :=
  ∃ d f pool ctr, t = { s with dec := d, bus := { s.bus with flight := f }, drawPool := pool, drawCtr := ctr }

theorem OnlyDecoder.refl (s : State) : OnlyDecoder s s := ⟨s.dec, s.bus.flight, s.drawPool, s.drawCtr, rfl⟩

theorem OnlyDecoder.trans {s t u : State} (h : OnlyDecoder s t) (h' : OnlyDecoder t u) : OnlyDecoder s u := by
  obtain ⟨d, f, p, c, rfl⟩ := h
  obtain ⟨d', f', p', c', rfl⟩ := h'
  exact ⟨d', f', p', c', rfl⟩

theorem OnlyDecoder.cfg {s t : State} (h : OnlyDecoder s t) : t.cfg = s.cfg := by
  obtain ⟨d, f, p, c, rfl⟩ := h
  rfl

/-- What the decoder's latches promise in each phase, given the bytes sent so far: a data phase follows the header of
its register, of the right access, and has staged exactly the bytes after it (R110 to R112). -/
def DecoderFits (cfg : Config) (sent : List Byte) (d : Decoder) : Prop :=
  match d.phase with
  | .data => ∃ r, d.reg = some r ∧ accessAllowed r d.wr = true ∧ d.stage.length ≤ d.offset ∧ d.offset ≤ regLength r ∧
      sent = regHeader cfg r d.wr ++ d.stage
  | .hdr0 => sent = [] ∧ d.stage = [] ∧ d.offset = 0
  | .hdr1 => (∃ b0, sent = [b0] ∧ hdrFull b0 = true ∧ d.wr = hdrWr b0 ∧ d.fid = hdrFid b0 ∧
      d.sub.extractLsb' 6 1 = hdrSubHigh b0) ∧ d.stage = [] ∧ d.offset = 0
  | .fast => sent = [fcByte d.code.toNat]
  | .idle => True
  | .reject _ => True

theorem slot0_fits (cfg : Config) (sent : List Byte) (d : Decoder) (x : Slot) (hp : d.phase = .hdr0)
    (h : DecoderFits cfg sent d) : DecoderFits cfg (sent ++ sentBytes [x]) (slot0 d x) := by
  simp only [DecoderFits, hp] at h
  obtain ⟨rfl, hs, ho⟩ := h
  cases x with
  | write b =>
    simp only [slot0]
    split
    · rename_i hf
      exact ⟨⟨b, rfl, hf, rfl, rfl, joinSub_high _ _⟩, hs, ho⟩
    · rename_i hf
      split
      · rename_i hfast
        have := fcByte_fields b hfast (by simpa using hf)
        simpa [DecoderFits, sentBytes] using this
      · simp [DecoderFits]
  | read => simp [slot0, DecoderFits]
  | duplex b => simp [slot0, DecoderFits]

theorem slot1_fits (cfg : Config) (sent : List Byte) (d : Decoder) (x : Slot) (hp : d.phase = .hdr1)
    (h : DecoderFits cfg sent d) : DecoderFits cfg (sent ++ sentBytes [x]) (slot1 cfg d x) := by
  simp only [DecoderFits, hp] at h
  obtain ⟨⟨b0, rfl, hf, hw, hfid, hsub⟩, hs, ho⟩ := h
  cases x with
  | write b =>
    simp only [slot1, headerPhase]
    split
    · simp [DecoderFits]
    · rename_i hmode
      split
      · simp [DecoderFits]
      · rename_i r hr
        by_cases ha : accessAllowed r d.wr = true
        · simp only [DecoderFits, ha, if_true, Option.some.injEq, exists_eq_left', true_and, hs, ho, List.append_nil,
            List.length_nil, Nat.zero_le, sentBytes, List.singleton_append]
          have haddr := catalogLookup_some cfg _ _ r hr
          have hj : (joinSub (d.sub.extractLsb' 6 1) (hdrSubLow b)).extractLsb' 6 1 = hdrSubHigh b0 := by
            rw [joinSub_high, hsub]
          rw [regHeader, haddr, hw, hfid]
          rw [← headerByte0_fields b0 _ hf hj,
            ← headerByte1_fields b _ (by simpa using hmode) (joinSub_low _ _)]
        · simp [DecoderFits, ha]
  | read => simp [slot1, DecoderFits]
  | duplex b => simp [slot1, DecoderFits]

theorem dataSlot_fits (cfg : Config) (sent : List Byte) (r : Reg) (d : Decoder) (x : Slot) (hp : d.phase = .data)
    (hr : d.reg = some r) (h : DecoderFits cfg sent d) :
    DecoderFits cfg (sent ++ sentBytes [x]) (dataSlot r d x).1 := by
  simp only [DecoderFits, hp, hr] at h
  obtain ⟨r', hr', ha, hs, ho, hsent⟩ := h
  obtain rfl : r = r' := by simpa using hr'
  simp only [dataSlot]
  split
  · simp [DecoderFits]
  · rename_i hne
    split
    · simp only [DecoderFits, hp]
      exact ⟨r, hr, ha, by omega, by omega, by simpa [sentBytes] using hsent⟩
    · simp only [DecoderFits, hp]
      exact ⟨r, hr, ha, by simp; omega, by omega, by simp [sentBytes, hsent]⟩
    · simp [DecoderFits]

theorem enterData_onlyDecoder (s : State) : OnlyDecoder s (enterData s) := by
  unfold enterData
  split
  · rename_i r _ _ _
    exact ⟨(sample r s).dec, s.bus.flight, (sample r s).drawPool, (sample r s).drawCtr, by cases r <;> rfl⟩
  · exact .refl s

theorem enterData_fits (cfg : Config) (sent : List Byte) (s : State) (h : DecoderFits cfg sent s.dec) :
    DecoderFits cfg sent (enterData s).dec := by
  unfold enterData
  split
  · rename_i r hp hw hr
    simp only [DecoderFits, hp] at h
    cases r <;> simp only [sample, drawn, DecoderFits, hp] <;> exact h
  · exact h

theorem deliverSlot_onlyDecoder (x : Slot) (s : State) : OnlyDecoder s (deliverSlot x s).1 := by
  have h : OnlyDecoder s (deviceSlot x s).1 := by
    unfold deviceSlot
    split
    · exact .refl s
    · exact ⟨_, s.bus.flight, s.drawPool, s.drawCtr, rfl⟩
    · exact .trans ⟨_, s.bus.flight, s.drawPool, s.drawCtr, rfl⟩ (enterData_onlyDecoder _)
    · split
      · exact ⟨_, s.bus.flight, s.drawPool, s.drawCtr, rfl⟩
      · exact .refl s
    · exact ⟨_, s.bus.flight, s.drawPool, s.drawCtr, rfl⟩
    · exact .refl s
  exact h.trans ⟨_, _, _, _, rfl⟩

theorem deliverSlot_fits (sent : List Byte) (x : Slot) (s : State) (h : DecoderFits s.cfg sent s.dec) :
    DecoderFits s.cfg (sent ++ sentBytes [x]) (deliverSlot x s).1.dec := by
  change DecoderFits s.cfg (sent ++ sentBytes [x]) (deviceSlot x s).1.dec
  unfold deviceSlot
  split
  · rename_i hp; simp [DecoderFits, hp]
  · rename_i hp; exact slot0_fits _ _ _ _ hp h
  · rename_i hp; exact enterData_fits _ _ _ (slot1_fits _ _ _ _ hp h)
  · rename_i hp
    split
    · rename_i r hr; exact dataSlot_fits _ _ r _ _ hp hr h
    · rename_i hr
      simp only [DecoderFits, hp, hr] at h
      obtain ⟨_, hr', _⟩ := h
      cases hr'
  · simp [DecoderFits]
  · rename_i hp; simp [DecoderFits, hp]

/-- Slots touch the decoder only, and keep its promise. -/
theorem deliverSlots_inv (sent : List Byte) (xs : List Slot) (s : State) (h : DecoderFits s.cfg sent s.dec) :
    OnlyDecoder s (deliverSlots xs s).1 ∧ DecoderFits s.cfg (sent ++ sentBytes xs) (deliverSlots xs s).1.dec := by
  induction xs generalizing s sent with
  | nil => exact ⟨.refl s, by simpa [sentBytes, deliverSlots] using h⟩
  | cons x xs ih =>
    have ho := deliverSlot_onlyDecoder x s
    have hd := deliverSlot_fits sent x s h
    rw [← ho.cfg] at hd
    have := ih _ _ hd
    rw [ho.cfg, List.append_assoc, ← sentBytes_append, List.singleton_append] at this
    exact ⟨ho.trans this.1, this.2⟩

/-- The only effects a transaction has on the device, each with the bytes sent that explain it, and what the history
gains: none, a committed write after the register's header, or a fast command (R81, R83, R113). -/
def DeviceEffect (cfg : Config) (sent : List Byte) (d d' : Device) (hist : List HistEvent) : Prop :=
  (d' = d ∧ hist = []) ∨
  (∃ r data, writable r = true ∧ data.length ≤ regLength r ∧ sent = regHeader cfg r true ++ data ∧
    d' = commitWrite cfg r data d ∧ hist = []) ∨
  (∃ code : BitVec 5, sent = [fcByte code.toNat] ∧ command cfg code d = .next (d', hist))

/-- What a fast command can do to the device: a new transceiver mode, or all flags cleared (R152 to R157). -/
theorem command_cases (cfg : Config) (code : BitVec 5) (d d' : Device) (hist : List HistEvent)
    (h : command cfg code d = .next (d', hist)) :
    (code = cfg.cmd.tx ∧ d.trx = .idle ∧ 2 ≤ (frameLength d.txFctrl).toNat ∧ d' = { d with trx := .tx } ∧
      hist = [.airTx (airFrame d)]) ∨
    (code = cfg.cmd.tx ∧ (d.trx ≠ .idle ∨ (frameLength d.txFctrl).toNat < 2) ∧ d' = { d with trx := .unknown } ∧
      hist = []) ∨
    (code = cfg.cmd.rx ∧ d' = { d with trx := if d.trx = .idle then .rx else .unknown } ∧ hist = []) ∨
    (code = cfg.cmd.idle ∧ d' = { d with trx := .idle } ∧ hist = []) ∨
    (code = cfg.cmd.clrirq ∧ d' = { d with flags := noFlags } ∧ hist = []) := by
  unfold command at h
  split at h
  · rename_i hc
    unfold commandTx at h
    split at h
    · rename_i ht
      split at h
      · rename_i hl; cases h; exact .inl ⟨hc, ht, hl, rfl, rfl⟩
      · rename_i hl; cases h; exact .inr (.inl ⟨hc, .inr (by omega), rfl, rfl⟩)
    all_goals rename_i ht; cases h; exact .inr (.inl ⟨hc, .inl (by simp [ht]), rfl, rfl⟩)
  split at h
  · rename_i hc
    unfold commandRx at h
    split at h <;> rename_i ht <;> cases h <;> exact .inr (.inr (.inl ⟨hc, by simp [ht], rfl⟩))
  split at h
  · rename_i hc; cases h; exact .inr (.inr (.inr (.inl ⟨hc, rfl, rfl⟩)))
  split at h
  · cases h
  split at h
  · rename_i hc; cases h; exact .inr (.inr (.inr (.inr ⟨hc, rfl, rfl⟩)))
  · cases h

/-- The end of a transaction: the device's effect and what the history gains; nothing else (R113). -/
theorem endOfTransaction_inv (sent : List Byte) (s t : State) (hf : DecoderFits s.cfg sent s.dec)
    (h : endOfTransaction s = .next t) :
    ∃ dev hist, DeviceEffect s.cfg sent s.dev dev hist ∧ t = { s with dev := dev, history := s.history ++ hist } := by
  unfold endOfTransaction at h
  split at h
  · rename_i hp
    simp only [DecoderFits, hp] at hf
    obtain ⟨r, hr, ha, hs, ho, hsent⟩ := hf
    split at h
    · rename_i r' hw hr'
      obtain rfl : r = r' := by simpa [hr] using hr'
      cases h
      refine ⟨_, [], .inr (.inl ⟨r, s.dec.stage, ?_, by omega, ?_, rfl, rfl⟩), by simp⟩
      · simpa [accessAllowed, hw] using ha
      · rw [hsent, hw]
    · cases h; exact ⟨s.dev, [], .inl ⟨rfl, rfl⟩, by simp⟩
  · rename_i hp
    simp only [DecoderFits, hp] at hf
    unfold commitCommand at h
    split at h
    · rename_i out ho
      cases h
      exact ⟨out.1, out.2, .inr (.inr ⟨s.dec.code, hf, ho⟩), rfl⟩
    · cases h
    · cases h
  · cases h
  all_goals cases h; exact ⟨s.dev, [], .inl ⟨rfl, rfl⟩, by simp⟩

/-- What HOST receives, whatever the plan: the read buffers, the status, the record. -/
theorem receive_inv (ops : List SubOp) (got : List Byte) (s : State) :
    ∃ bytes ctr, receive ops got s =
      { s with
        regs := { s.regs with rbytes := bytes }
        bus := { s.bus with plan := .ok, ret := planRet s.bus.plan }
        drawCtr := ctr
        history := s.history ++
          [.xact ops (sentBytes (delivered s.bus.plan (expand ops))) bytes (planRet s.bus.plan)] } := by
  unfold receive
  split <;> rename_i hp <;> rw [hp] <;> exact ⟨_, _, rfl⟩

/-- Everything a transaction can do. -/
theorem xact_inv (ops : List SubOp) (s t : State) (h : xact ops s = .next t) :
    ∃ dec dev bytes hist pool ctr, dec.phase = .idle ∧
      DeviceEffect s.cfg (sentBytes (delivered s.bus.plan (expand ops))) s.dev dev hist ∧
      t = { s with
        regs := { s.regs with rbytes := bytes }
        bus := { cs := .high, flight := none, plan := .ok, ret := planRet s.bus.plan }
        dec := dec
        dev := dev
        history := s.history ++
          (.xact ops (sentBytes (delivered s.bus.plan (expand ops))) bytes (planRet s.bus.plan) :: hist)
        drawPool := pool
        drawCtr := ctr } := by
  have hlow : DecoderFits (csLow ops s).cfg [] (csLow ops s).dec := ⟨rfl, rfl, rfl⟩
  have hd := deliverSlots_inv [] (delivered s.bus.plan (expand ops)) (csLow ops s) hlow
  simp only [xact] at h
  generalize deliverSlots (delivered s.bus.plan (expand ops)) (csLow ops s) = out at h hd
  obtain ⟨u, got⟩ := out
  obtain ⟨⟨d, f, pool, ctr, rfl⟩, hfit⟩ := hd
  obtain ⟨bytes, ctr', hr⟩ := receive_inv ops got
    { csLow ops s with dec := d, bus := { (csLow ops s).bus with flight := f }, drawPool := pool, drawCtr := ctr }
  rw [hr] at h
  unfold csHigh at h
  split at h
  · rename_i v hv
    obtain ⟨dev, hist, heff, rfl⟩ := endOfTransaction_inv _ _ v (by exact hfit) hv
    cases h
    exact ⟨{ d with phase := .idle }, dev, bytes, hist, pool, ctr', rfl, by simpa using heff, by simp [release, csLow]⟩
  · cases h
  · cases h

/-- What `settle` adds to a transaction: nothing, a raised error, an operation dropped (R251, R252). -/
theorem settle_cases (s : State) :
    (s.bus.ret = .ok ∧ settle s = s) ∨ (∃ e, s.bus.ret = .error e ∧ settle s = raiseError (.transport e) s) ∨
      (s.bus.ret = .abandoned ∧ settle s = dropOperation s) := by
  unfold settle
  cases h : s.bus.ret with
  | ok => exact .inl ⟨rfl, rfl⟩
  | error e => exact .inr (.inl ⟨e, rfl, rfl⟩)
  | abandoned => exact .inr (.inr ⟨rfl, rfl⟩)

/-- How a transaction under a plan ends the operation around it. -/
def planResult (p : Plan) (s : State) : Lifecycle × Pos × Option OpResult :=
  match p with
  | .ok => (s.lifecycle, s.pos, s.result)
  | .fail _ e => (lifecycleAfterLoss s, .idle, some (.error (.transport e)))
  | .cut _ => (lifecycleAfterLoss s, .idle, none)

/-- Everything a transaction with its implicit test can do. -/
theorem transact_inv (ops : List SubOp) (s t : State) (h : transact ops s = .next t) :
    ∃ dec dev bytes hist pool ctr, dec.phase = .idle ∧
      DeviceEffect s.cfg (sentBytes (delivered s.bus.plan (expand ops))) s.dev dev hist ∧
      t = { s with
        lifecycle := (planResult s.bus.plan s).1
        pos := (planResult s.bus.plan s).2.1
        regs := { s.regs with rbytes := bytes }
        result := (planResult s.bus.plan s).2.2
        bus := { cs := .high, flight := none, plan := .ok, ret := planRet s.bus.plan }
        dec := dec
        dev := dev
        history := s.history ++
          (.xact ops (sentBytes (delivered s.bus.plan (expand ops))) bytes (planRet s.bus.plan) :: hist)
        drawPool := pool
        drawCtr := ctr } := by
  unfold transact at h
  split at h
  · rename_i u hu
    cases h
    obtain ⟨dec, dev, bytes, hist, pool, ctr, hph, heff, rfl⟩ := xact_inv ops s u hu
    refine ⟨dec, dev, bytes, hist, pool, ctr, hph, heff, ?_⟩
    cases s.bus.plan <;> rfl
  · cases h
  · cases h

end Sys2Proof.Machine
end

