-- ==== Sys2Proof/Laws/Exec.lean ====
section
/-! SUPPORT. The meanings in closed form: a read under any plan, and each instruction through its transaction. -/

namespace Sys2Proof.Machine

open Host (Outcome)

/-- The end of a read transaction: nothing happens (R113). -/
theorem csHigh_read (s : State) (hp : s.dec.phase = .data) (hw : s.dec.wr = false) : csHigh s = .next (release s) := by
  simp [csHigh, endOfTransaction, hp, hw]

/-- A read under any plan: never refused, nothing changed in the device (R81, R84). -/
theorem xact_read_any (r : Reg) (n : Nat) (s : State) (hwf : s.cfg.wf = true) (hr : readable r = true)
    (hn : n ≤ regLength r) :
    ∃ d got pool ctr, xact [.write (regHeader s.cfg r false), .read n] s =
      .next (completed [.write (regHeader s.cfg r false), .read n]
        ((regHeader s.cfg r false).take (deliveredCount s.bus.plan (2 + n))) got (planRet s.bus.plan) d
        { s with drawPool := pool, drawCtr := ctr }) := by
  obtain ⟨ops, hops⟩ : ∃ ops, [SubOp.write (regHeader s.cfg r false), .read n] = ops := ⟨_, rfl⟩
  obtain ⟨m, hm⟩ : ∃ m, deliveredCount s.bus.plan (2 + n) = m := ⟨_, rfl⟩
  have hmle : m ≤ 2 + n := hm ▸ deliveredCount_le _ _
  have hx : expand ops = (regHeader s.cfg r false).map .write ++ List.replicate n .read := by
    simp [← hops, expand, subOpSlots]
  have hlen : (expand ops).length = 2 + n := by rw [hx]; simp [regHeader]; omega
  have hdel : delivered s.bus.plan (expand ops) = (expand ops).take m := by rw [delivered_eq, hlen, hm]
  rw [hops, xact, hdel]
  by_cases h2 : m < 2
  · obtain ⟨d, hd, hph⟩ := deliverSlots_cutHeader s.cfg r false (List.replicate n .read) m (csLow ops s) h2 rfl
    have hsent : sentBytes ((expand ops).take m) = (regHeader s.cfg r false).take m := by
      rw [hx, map_regHeader]; interval_cases m <;> rfl
    rw [← hx] at hd
    rw [hd]
    obtain ⟨got, ctr, hrec⟩ := receive_inv ops [] (slotsTaken m d (csLow ops s))
    refine ⟨d, got, s.drawPool, ctr, ?_⟩
    simp only [slotsTaken_plan, csLow_plan, hdel, hsent] at hrec
    rw [hrec, csHigh_header _ (by simpa using hph), hm]
    simp [release, completed, slotsTaken, csLow]
  · have hh := deliverSlots_header r false (csLow ops s) hwf rfl hr
    simp only [csLow_cfg, enterData_read] at hh
    have htake : (expand ops).take m = (regHeader s.cfg r false).map .write ++ List.replicate (m - 2) .read := by
      rw [hx, List.take_append, List.take_of_length_le (by simp [regHeader]; omega)]
      simp [regHeader]
      omega
    have hsent : sentBytes ((expand ops).take m) = (regHeader s.cfg r false).take m := by
      rw [htake, sentBytes_append, sentBytes_write, sentBytes_read, List.append_nil,
        List.take_of_length_le (by simp [regHeader]; omega)]
    have hlenb := regBytes_length s.cfg s.dev (drawWord s) r hr
    have hd := deliverSlots_readData r (m - 2)
      (slotsTaken 2
        { headerTaken r false (regAddr s.cfg r).fileId (regAddr s.cfg r).subAddress (csLow ops s).dec with
          snap := regBytes s.cfg s.dev (drawWord s) r }
        (sampled r (csLow ops s)))
      rfl rfl rfl (by simp [headerTaken]; omega) (by simp [headerTaken, hlenb]; omega)
    have hdw : drawWord (csLow ops s) = drawWord s := rfl
    rw [htake, deliverSlots_append, hh]
    simp only [csLow_dev, hdw, hd, List.nil_append]
    obtain ⟨got, ctr, hrec⟩ := receive_inv ops
      (((regBytes s.cfg s.dev (drawWord s) r).drop 0).take (m - 2))
      (slotsTaken (m - 2)
        { headerTaken r false (regAddr s.cfg r).fileId (regAddr s.cfg r).subAddress (csLow ops s).dec with
          snap := regBytes s.cfg s.dev (drawWord s) r, offset := m - 2 }
        (slotsTaken 2
          { headerTaken r false (regAddr s.cfg r).fileId (regAddr s.cfg r).subAddress (csLow ops s).dec with
            snap := regBytes s.cfg s.dev (drawWord s) r }
          (sampled r (csLow ops s))))
    have hplan : (sampled r (csLow ops s)).bus.plan = s.bus.plan := by cases r <;> rfl
    simp only [slotsTaken_plan, hplan, hdel, hsent] at hrec
    refine ⟨{ headerTaken r false (regAddr s.cfg r).fileId (regAddr s.cfg r).subAddress (csLow ops s).dec with
      snap := regBytes s.cfg s.dev (drawWord s) r, offset := m - 2 }, got, (sampled r s).drawPool, ctr, ?_⟩
    simp only [headerTaken, csLow_dec, slotsTaken_dec, Nat.zero_add] at hrec ⊢
    rw [hrec, csHigh_read _ rfl rfl, hm]
    cases r <;> simp [release, completed, slotsTaken, csLow, sampled, drawn]

/-! ### Rejection (R113) -/

/-- A decoder that has rejected takes no further notice. -/
theorem deliverSlots_reject (why : Refusal) (xs : List Slot) (s : State) (h : s.dec.phase = .reject why) :
    (deliverSlots xs s).1.dec.phase = .reject why := by
  induction xs generalizing s with
  | nil => exact h
  | cons x xs ih =>
    refine ih _ ?_
    simp only [deliverSlot, deviceSlot, h]

/-- A transaction in which the slots `pre` make the decoder reject is refused, whatever follows. -/
theorem transact_reject (why : Refusal) (ops : List SubOp) (pre xs : List Slot) (s : State)
    (hd : delivered s.bus.plan (expand ops) = pre ++ xs)
    (hr : (deliverSlots pre (csLow ops s)).1.dec.phase = .reject why) : transact ops s = .refused why := by
  have h := deliverSlots_reject why xs _ hr
  have hx : xact ops s = .refused why := by
    rw [xact, hd, deliverSlots_append]
    obtain ⟨bytes, ctr, hrec⟩ := receive_inv ops
      ((deliverSlots pre (csLow ops s)).2 ++ (deliverSlots xs (deliverSlots pre (csLow ops s)).1).2)
      (deliverSlots xs (deliverSlots pre (csLow ops s)).1).1
    simp only [hrec, csHigh, endOfTransaction, h]
  simp [transact, hx]

/-! ### The implicit test (R251) -/

/-- A transaction that succeeded, with its implicit test: the same state. -/
theorem settle_completed (ops : List SubOp) (sent got : List Byte) (d : Decoder) (s : State) :
    settle (completed ops sent got .ok d s) = completed ops sent got .ok d s := rfl

/-- How a transaction that is cut short ends. -/
theorem CutShort.planRet_eq {p : Plan} {k : Nat} {ret : XRet} (h : CutShort p k ret) : planRet p = ret := by
  rcases h with ⟨e, rfl, rfl⟩ | ⟨rfl, rfl⟩ <;> rfl

/-- How many slots of a transaction that is cut short arrive. -/
theorem CutShort.deliveredCount_eq {p : Plan} {k : Nat} {ret : XRet} (h : CutShort p k ret) (n : Nat) :
    deliveredCount p n = min k n := by
  rcases h with ⟨e, rfl, rfl⟩ | ⟨rfl, rfl⟩ <;> rfl

/-- The implicit test ends the operation around a transaction that was cut short. -/
theorem CutShort.settle_endedBy {p : Plan} {k : Nat} {ret : XRet} (h : CutShort p k ret) (t : State)
    (hr : t.bus.ret = planRet p) (hcs : t.bus.cs = .high) : EndedBy ret (settle t) := by
  rcases h with ⟨e, rfl, rfl⟩ | ⟨rfl, rfl⟩ <;> simp only [planRet] at hr <;>
    simp [settle, hr, EndedBy, raiseError, dropOperation, hcs]

/-- A transaction that is not refused, with its implicit test. -/
theorem transact_next (ops : List SubOp) (s t : State) (h : xact ops s = .next t) :
    transact ops s = .next (settle t) := by
  simp [transact, h]

/-! ### The register transactions (R130 to R133) -/

/-- `RD` carried whole. -/
theorem execRd_ok (r : Reg) (n : Nat) (s : State) (hwf : s.cfg.wf = true) (hplan : s.bus.plan = .ok)
    (hr : readable r = true) (hn : n ≤ regLength r) :
    ∃ d, execRd r n s =
      .next (completed (encode s.cfg (.rd r n)) (regHeader s.cfg r false)
        ((regBytes s.cfg s.dev (drawWord s) r).take n) .ok d (sampled r (loadHeader r false s))) := by
  obtain ⟨d, hd⟩ := xact_read r n (loadHeader r false s) hwf hplan hr hn
  exact ⟨d, transact_next _ _ _ hd⟩

/-- `RD` under any plan: never refused, nothing changed in the device. -/
theorem execRd_any (r : Reg) (n : Nat) (s : State) (hwf : s.cfg.wf = true) (hr : readable r = true)
    (hn : n ≤ regLength r) :
    ∃ d got pool ctr, execRd r n s =
      .next (settle (completed (encode s.cfg (.rd r n))
        ((regHeader s.cfg r false).take (deliveredCount s.bus.plan (2 + n))) got (planRet s.bus.plan) d
        { loadHeader r false s with drawPool := pool, drawCtr := ctr })) := by
  obtain ⟨d, got, pool, ctr, hd⟩ := xact_read_any r n (loadHeader r false s) hwf hr hn
  exact ⟨d, got, pool, ctr, transact_next _ _ _ hd⟩

/-- `WR` under any plan. -/
theorem execWr_any (r : Reg) (data : List Byte) (s : State) (hwf : s.cfg.wf = true)
    (hr : writable r = true) (hn : data.length ≤ regLength r) :
    ∃ d, execWr r data s =
      .next (settle (completed (encode s.cfg (.wr r data))
        ((regHeader s.cfg r true ++ data).take (deliveredCount s.bus.plan (2 + data.length))) []
        (planRet s.bus.plan) d (afterPlan s.bus.plan (afterWrite r data (loadHeader r true s))))) := by
  obtain ⟨d, hd⟩ := xact_write r data (loadHeader r true s) hwf hr hn
  exact ⟨d, transact_next _ _ _ hd⟩

/-- `WR` carried whole. -/
theorem execWr_ok (r : Reg) (data : List Byte) (s : State) (hwf : s.cfg.wf = true) (hplan : s.bus.plan = .ok)
    (hr : writable r = true) (hn : data.length ≤ regLength r) :
    ∃ d, execWr r data s =
      .next (completed (encode s.cfg (.wr r data)) (regHeader s.cfg r true ++ data) [] .ok d
        { loadHeader r true s with dev := commitWrite s.cfg r data s.dev }) := by
  obtain ⟨d, hd⟩ := execWr_any r data s hwf hr hn
  have hdev : afterWrite r data (loadHeader r true s) =
      { loadHeader r true s with dev := commitWrite s.cfg r data s.dev } := by
    have hp : (loadHeader r true s).bus.plan = .ok := hplan
    simp only [afterWrite, hp, deliveredCount, arrived]
    rw [if_neg (by omega), List.take_of_length_le (by omega)]
    rfl
  rw [hdev, hplan] at hd
  simp only [deliveredCount, planRet, afterPlan, settle_completed] at hd
  rw [List.take_of_length_le (by simp [regHeader]; omega)] at hd
  exact ⟨d, hd⟩

/-! ### The fast commands (R150 to R157) -/

/-- A fast command under any plan. -/
theorem issue_any (code : Nat) (s : State) :
    ∃ d, issue code s =
      if deliveredCount s.bus.plan 1 = 0 then
        .next (settle (completed [.write [fcByte code]] [] [] (planRet s.bus.plan) d
          (afterPlan s.bus.plan { s with regs := { s.regs with cmd := fcByte code } })))
      else
        match command s.cfg (BitVec.ofNat 5 code) s.dev with
        | .next out =>
          let t := completed [.write [fcByte code]] [fcByte code] [] (planRet s.bus.plan) d
            (afterPlan s.bus.plan { s with regs := { s.regs with cmd := fcByte code } })
          .next (settle { t with dev := out.1, history := t.history ++ out.2 })
        | .fault r => .fault r
        | .refused r => .refused r := by
  obtain ⟨d, hd⟩ := xact_fast code { s with regs := { s.regs with cmd := fcByte code } }
  refine ⟨d, ?_⟩
  simp only [issue, transact]
  rw [hd]
  by_cases h0 : deliveredCount s.bus.plan 1 = 0
  · rw [if_pos h0, if_pos h0]
  · rw [if_neg h0, if_neg h0]
    cases command s.cfg (BitVec.ofNat 5 code) s.dev <;> rfl

/-- A fast command carried whole. -/
theorem issue_ok (code : Nat) (s : State) (hplan : s.bus.plan = .ok) (dev : Device) (hist : List HistEvent)
    (hc : command s.cfg (BitVec.ofNat 5 code) s.dev = .next (dev, hist)) :
    ∃ d, issue code s =
      .next
        { completed [.write [fcByte code]] [fcByte code] [] .ok d
            { s with regs := { s.regs with cmd := fcByte code } } with
          dev := dev
          history := s.history ++ .xact [.write [fcByte code]] [fcByte code] [] .ok :: hist } := by
  obtain ⟨d, hd⟩ := issue_any code s
  rw [hplan, hc] at hd
  refine ⟨d, hd.trans ?_⟩
  simp [deliveredCount, settle, completed, afterPlan, planRet]

/-- The codes of a well-formed `CMD` are told apart (R108; log entry 4). -/
theorem command_named (cfg : Config) (hwf : cfg.wf = true) (d : Device) :
    command cfg cfg.cmd.tx d = .next (commandTx d) ∧ command cfg cfg.cmd.rx d = .next (commandRx d) ∧
    command cfg cfg.cmd.idle d = .next (commandIdle d) ∧
    command cfg cfg.cmd.drxdb d = .refused .delayedDoubleBufferedRx ∧
    command cfg cfg.cmd.clrirq d = .next (commandClrirq d) := by
  simp only [Config.wf, Bool.and_eq_true, cmdDistinct, decide_eq_true_eq, List.nodup_cons, List.mem_cons,
    List.not_mem_nil, or_false, not_or] at hwf
  obtain ⟨-, ⟨h12, h13, h14, h15⟩, ⟨h23, h24, h25⟩, ⟨h34, h35⟩, h45, -⟩ := hwf
  refine ⟨?_, ?_, ?_, ?_, ?_⟩ <;>
    simp [command, Ne.symm h12, Ne.symm h13, Ne.symm h14, Ne.symm h15, Ne.symm h23, Ne.symm h24, Ne.symm h25,
      Ne.symm h34, Ne.symm h35, Ne.symm h45]

/-- A code sent as a natural number comes back as itself. -/
theorem ofNat_code (c : BitVec 5) : BitVec.ofNat 5 c.toNat = c := by simp

/-! ### Any instruction (one inversion lemma) -/

/-- Everything an instruction can do: the record of its own encoding, one device effect, the working registers of the
encoder and of the wrapper; nothing else (R136). -/
def ExecEffect (i : Instr) (s t : State) : Prop :=
  ∃ h0 h1 c bytes v dec dev hist pool ctr, dec.phase = .idle ∧
    DeviceEffect s.cfg (sentBytes (delivered s.bus.plan (expand (encode s.cfg i)))) s.dev dev hist ∧
    t = { s with
      lifecycle := (planResult s.bus.plan s).1
      pos := (planResult s.bus.plan s).2.1
      regs := { s.regs with hdr0 := h0, hdr1 := h1, cmd := c, rbytes := bytes, rval := v }
      result := (planResult s.bus.plan s).2.2
      bus := { cs := .high, flight := none, plan := .ok, ret := planRet s.bus.plan }
      dec := dec
      dev := dev
      history := s.history ++ (.xact (encode s.cfg i) (sentBytes (delivered s.bus.plan (expand (encode s.cfg i))))
        bytes (planRet s.bus.plan) :: hist)
      drawPool := pool
      drawCtr := ctr }

theorem exec_inv (i : Instr) (s t : State) (h : exec i s = .next t) : ExecEffect i s t := by
  have hfast : ∀ code, issue code s = .next t → encode s.cfg i = [.write [fcByte code]] → ExecEffect i s t := fun code hi he => by
    obtain ⟨dec, dev, bytes, hist, pool, ctr, hph, heff, ht⟩ := transact_inv _ _ t hi
    rw [← he] at heff ht
    exact ⟨_, _, _, _, _, dec, dev, hist, pool, ctr, hph, heff, ht⟩
  cases i with
  | rd reg n =>
    obtain ⟨dec, dev, bytes, hist, pool, ctr, hph, heff, ht⟩ := transact_inv _ _ t h
    exact ⟨_, _, _, _, _, dec, dev, hist, pool, ctr, hph, heff, ht⟩
  | wr reg data =>
    obtain ⟨dec, dev, bytes, hist, pool, ctr, hph, heff, ht⟩ := transact_inv _ _ t h
    exact ⟨_, _, _, _, _, dec, dev, hist, pool, ctr, hph, heff, ht⟩
  | wru32 reg v =>
    obtain ⟨dec, dev, bytes, hist, pool, ctr, hph, heff, ht⟩ := transact_inv _ _ t h
    exact ⟨_, _, _, _, _, dec, dev, hist, pool, ctr, hph, heff, ht⟩
  | rdu32 reg =>
    simp only [exec, execRdu32] at h
    split at h
    · rename_i u hu
      obtain ⟨dec, dev, bytes, hist, pool, ctr, hph, heff, rfl⟩ := transact_inv _ _ u hu
      cases h
      simp only [assembleValue]
      split
      · exact ⟨_, _, _, _, _, dec, dev, hist, pool, ctr, hph, heff, rfl⟩
      · exact ⟨_, _, _, _, _, dec, dev, hist, pool, ctr, hph, heff, rfl⟩
      · exact ⟨_, _, _, _, _, dec, dev, hist, pool, ctr, hph, heff, rfl⟩
    · cases h
    · cases h
  | fc code => exact hfast _ h rfl
  | fcTx => exact hfast _ h rfl
  | fcRx => exact hfast _ h rfl
  | fcIdle => exact hfast _ h rfl
  | fcDrxdb => exact hfast _ h rfl
  | fcClrirq => exact hfast _ h rfl
  | reservedFaMode1 wr fid sub => cases h
  | reservedFaMode2 wr fid sub => cases h
  | reservedFaMode3 wr fid sub => cases h
  | reservedB000 low => cases h
  | reservedB010x0 mid => cases h
  | reservedFcUnassigned code => cases h

end Sys2Proof.Machine
end

