-- ==== Sys2Proof/Laws/Effects.lean ====
section
/-! SUPPORT. What a read samples and what a committed write changes, byte by byte and flag by flag. -/

namespace Sys2Proof.Machine

/-- Byte `k` of what a read samples. -/
theorem regBytes_getElem? (cfg : Config) (d : Device) (free : BitVec 32) (r : Reg) (k : Nat) (hr : readable r = true)
    (hk : k < regLength r) : (regBytes cfg d free r)[k]? = some (registerByte cfg d free r k) := by
  cases r with
  | rxBuffer => simpa [regBytes, registerByte] using bytesFrom_getElem? (rxByte d) 0 bufCap k hk
  | txBuffer => cases hr
  | devId => simp only [regLength] at hk; interval_cases k <;> rfl
  | eui64 => simp only [regLength] at hk; interval_cases k <;> rfl
  | sysCfg => simp only [regLength] at hk; interval_cases k <;> rfl
  | txFctrl => simp only [regLength] at hk; interval_cases k <;> rfl
  | sysStatus => simp only [regLength] at hk; interval_cases k <;> rfl
  | rxFinfo => simp only [regLength] at hk; interval_cases k <;> rfl

/-- Byte `k` after a patch: the new byte where one was sent, else the old one (R131). -/
theorem patch_getD (old data : List Byte) (k : Nat) (z : Byte) :
    (patch old data).getD k z = data.getD k (old.getD k z) := by
  simp only [patch, List.getD_eq_getElem?_getD, List.getElem?_append, List.getElem?_drop]
  by_cases h : k < data.length
  · simp [h]
  · have : data.length + (k - data.length) = k := by omega
    simp [h, this]

/-- Byte `k` of an assembled word (R132). -/
theorem extract_unle32_k (b : List Byte) (k : Nat) (hk : k < 4) : (unle32 b).extractLsb' (8 * k) 8 = b.getD k 0 := by
  obtain ⟨h0, h1, h2, h3⟩ := extract_unle32 b
  interval_cases k
  · exact h0
  · exact h1
  · exact h2
  · exact h3

/-- Byte `k` of an assembled `EUI_64` (R30). -/
theorem extract_euiOfBytes_k (b : List Byte) (k : Nat) (hk : k < 8) :
    (euiOfBytes b).extractLsb' (8 * k) 8 = b.getD k 0 := by
  obtain ⟨⟨h0, h1, h2, h3⟩, ⟨h4, h5, h6, h7⟩⟩ := extract_euiOfBytes b
  interval_cases k
  · exact h0
  · exact h1
  · exact h2
  · exact h3
  · exact h4
  · exact h5
  · exact h6
  · exact h7

/-- Byte `k` of a split word (R75). -/
theorem le32_getD (v : BitVec 32) (k : Nat) (hk : k < 4) : (le32 v).getD k 0 = v.extractLsb' (8 * k) 8 := by
  interval_cases k <;> rfl

/-- Byte `k` of `EUI_64` (R74). -/
theorem euiBytes_getD (v : BitVec 64) (k : Nat) (hk : k < 8) : (euiBytes v).getD k 0 = v.extractLsb' (8 * k) 8 := by
  interval_cases k <;> rfl

/-- The bit of the assembled word at a flag's position is the bit of the byte that holds it (R173). -/
theorem unle32_bitAtFlag (cfg : Config) (data : List Byte) (f : Flag) :
    (unle32 data).getLsbD (flagPosition cfg f) = bitAtFlag cfg data f := by
  have h := flagPosition_lt cfg f
  have := unle32_getLsbD data (flagPosition cfg f / 8) (flagPosition cfg f % 8) (by omega) (by omega)
  rwa [Nat.div_add_mod] at this

/-- A committed write does what the table of R131 says. -/
theorem commitWrite_effect (cfg : Config) (r : Reg) (data : List Byte) (d : Device) (hr : writable r = true) :
    WriteEffect cfg r data d (commitWrite cfg r data d) := by
  cases r with
  | eui64 =>
    refine ⟨rfl, fun k hk => ?_⟩
    simp only [commitWrite]
    rw [extract_euiOfBytes_k _ _ hk, patch_getD _ _ _ _, euiBytes_getD _ _ hk]
  | sysCfg =>
    refine ⟨rfl, fun k hk => ?_⟩
    simp only [commitWrite]
    rw [extract_unle32_k _ _ hk, patch_getD _ _ _ _, le32_getD _ _ hk]
  | txFctrl =>
    refine ⟨rfl, fun k hk => ?_⟩
    simp only [commitWrite]
    rw [extract_unle32_k _ _ hk, patch_getD _ _ _ _, le32_getD _ _ hk]
  | txBuffer =>
    refine ⟨rfl, fun k => ?_⟩
    simp only [commitWrite, txByte, memRead_memWriteBytes, List.getD_eq_getElem?_getD]
    by_cases h : k < data.length
    · simp [h]
    · simp [h]
  | sysStatus =>
    refine ⟨rfl, fun f => ?_⟩
    simp only [commitWrite]
    rw [getFlag_clearFlags, unle32_bitAtFlag]
  | devId => cases hr
  | rxFinfo => cases hr
  | rxBuffer => cases hr

end Sys2Proof.Machine
end

