-- ==== Sys2Proof/Laws/PerInstr.lean ====
section
/-! SUPPORT. Statements about every instruction as syntax, one lemma per constructor: bit 6 of the first byte tells how
long an encoding is (R119). -/

namespace Sys2Proof.Laws.EncodedFirstByte

open Sys2Proof Sys2Proof.Machine

/-- Under every configuration the encoding begins with a written byte; where its bit 6 is set a second written header
byte follows, and where it is clear nothing does. -/
def Statement (i : Instr) : Prop :=
  ∀ cfg : Config, ∃ b0 rest, expand (encode cfg i) = .write b0 :: rest ∧
    (hdrFull b0 = true → ∃ b1 body, rest = .write b1 :: body) ∧ (hdrFull b0 = false → rest = [])

/-- An encoding of two header bytes, the first with bit 6 set. -/
theorem of_header (i : Instr)
    (h : ∀ cfg : Config, ∃ fileId sub wr b1 body,
      expand (encode cfg i) = .write (headerByte0 fileId sub wr) :: .write b1 :: body) : Statement i := fun cfg => by
  obtain ⟨fileId, sub, wr, b1, body, he⟩ := h cfg
  refine ⟨_, _, he, fun _ => ⟨b1, body, rfl⟩, fun hf => ?_⟩
  rw [hdrFull_headerByte0] at hf
  cases hf

/-- An encoding of one byte with bit 6 clear. -/
theorem of_byte (i : Instr)
    (h : ∀ cfg : Config, ∃ b0, expand (encode cfg i) = [.write b0] ∧ hdrFull b0 = false) : Statement i := fun cfg => by
  obtain ⟨b0, he, hf⟩ := h cfg
  exact ⟨b0, [], he, fun ht => absurd ht (by simp [hf]), fun _ => rfl⟩

theorem rd (reg : Reg) (n : Nat) : Statement (.rd reg n) :=
  of_header _ fun _ => ⟨_, _, _, _, _, rfl⟩

theorem wr (reg : Reg) (data : List Byte) : Statement (.wr reg data) :=
  of_header _ fun _ => ⟨_, _, _, _, _, rfl⟩

theorem fc (code : Nat) : Statement (.fc code) :=
  of_byte _ fun _ => ⟨_, rfl, hdrFull_fcByte _⟩

theorem fcTx : Statement .fcTx :=
  of_byte _ fun _ => ⟨_, rfl, hdrFull_fcByte _⟩

theorem fcRx : Statement .fcRx :=
  of_byte _ fun _ => ⟨_, rfl, hdrFull_fcByte _⟩

theorem fcIdle : Statement .fcIdle :=
  of_byte _ fun _ => ⟨_, rfl, hdrFull_fcByte _⟩

theorem fcDrxdb : Statement .fcDrxdb :=
  of_byte _ fun _ => ⟨_, rfl, hdrFull_fcByte _⟩

theorem fcClrirq : Statement .fcClrirq :=
  of_byte _ fun _ => ⟨_, rfl, hdrFull_fcByte _⟩

theorem rdu32 (reg : Reg) : Statement (.rdu32 reg) :=
  of_header _ fun _ => ⟨_, _, _, _, _, rfl⟩

theorem wru32 (reg : Reg) (v : BitVec 32) : Statement (.wru32 reg v) :=
  of_header _ fun _ => ⟨_, _, _, _, _, rfl⟩

theorem reservedFaMode1 (wr : Bool) (fid : BitVec 5) (sub : BitVec 7) : Statement (.reservedFaMode1 wr fid sub) :=
  of_header _ fun _ => ⟨_, _, _, _, _, rfl⟩

theorem reservedFaMode2 (wr : Bool) (fid : BitVec 5) (sub : BitVec 7) : Statement (.reservedFaMode2 wr fid sub) :=
  of_header _ fun _ => ⟨_, _, _, _, _, rfl⟩

theorem reservedFaMode3 (wr : Bool) (fid : BitVec 5) (sub : BitVec 7) : Statement (.reservedFaMode3 wr fid sub) :=
  of_header _ fun _ => ⟨_, _, _, _, _, rfl⟩

theorem reservedB000 (low : BitVec 6) : Statement (.reservedB000 low) :=
  of_byte _ fun _ => ⟨_, rfl, by simp [hdrFull, reservedByte00]⟩

theorem reservedB010x0 (mid : BitVec 5) : Statement (.reservedB010x0 mid) :=
  of_byte _ fun _ => ⟨_, rfl, by simp [hdrFull, reservedByte10]⟩

theorem reservedFcUnassigned (code : BitVec 5) : Statement (.reservedFcUnassigned code) :=
  of_byte _ fun _ => ⟨_, rfl, hdrFull_fcByte _⟩

end Sys2Proof.Laws.EncodedFirstByte
end

