-- ==== Sys2Proof/Laws/PowerupWait.lean ====
section
/-! SUPPORT. How the post-power-up wait is seen in a history that grows at its end (R311). -/

namespace Sys2Proof.Machine

/-- A wait that was made stays made. -/
theorem powerupWaitIn_append (h g : List HistEvent) (hw : powerupWaitIn h = true) : powerupWaitIn (h ++ g) = true := by
  simp_all [powerupWaitIn]

/-- Once the wait is over, anything may follow. -/
theorem transactionsAfterWait_append (h g : List HistEvent) (ht : transactionsAfterWait h = true)
    (hw : powerupWaitIn h = true) : transactionsAfterWait (h ++ g) = true := by
  induction h with
  | nil => simp [powerupWaitIn] at hw
  | cons e h ih =>
    cases e with
    | delay ms =>
      by_cases hm : ms = tPowerupMs
      · simp [transactionsAfterWait, hm]
      · simp_all [transactionsAfterWait, powerupWaitIn, Ne.symm hm]
    | xact _ _ _ _ => simp [transactionsAfterWait] at ht
    | radio _ => simp_all [transactionsAfterWait, powerupWaitIn]
    | airTx _ => simp_all [transactionsAfterWait, powerupWaitIn]

/-- Entries that are no transaction may follow at any time. -/
theorem transactionsAfterWait_append_quiet (h g : List HistEvent) (ht : transactionsAfterWait h = true)
    (hg : ∀ e ∈ g, isTransaction e = false) : transactionsAfterWait (h ++ g) = true := by
  induction h with
  | nil =>
    induction g with
    | nil => rfl
    | cons e g ih => cases e <;> simp_all [transactionsAfterWait, isTransaction]
  | cons e h ih =>
    cases e with
    | delay ms => by_cases hm : ms = tPowerupMs <;> simp_all [transactionsAfterWait]
    | xact _ _ _ _ => simp [transactionsAfterWait] at ht
    | radio _ => exact ih ht
    | airTx _ => exact ih ht

end Sys2Proof.Machine
end

