-- ==== Sys2Proof/Laws/StepInversion.lean ====
section
/-! SUPPORT. Everything a step can do to what is not a working register: one inversion lemma for HOST's move, one for
RADIO's, one for the whole step. -/

namespace Sys2Proof.Machine

open Host (Outcome)

/-- `t` has the same configuration, device, bus, decoder and history as `s`, and may have said more to the log: what a
line does around its transaction. -/
def HostOnly (s t : State) : Prop :=
  t.cfg = s.cfg ∧ t.dev = s.dev ∧ t.bus = s.bus ∧ t.dec = s.dec ∧ t.history = s.history ∧ ∃ ms, t.diag = s.diag ++ ms

theorem HostOnly.refl (s : State) : HostOnly s s := ⟨rfl, rfl, rfl, rfl, rfl, [], by simp⟩

/-- The move performed a transaction (R80): its record, its one effect on the device, the quiet bus, and the implicit
test of a failure (R251). -/
def DidTransaction (s t : State) : Prop :=
  ∃ ops sent bytes ret hist, DeviceEffect s.cfg sent s.dev t.dev hist ∧
    t.history = s.history ++ .xact ops sent bytes ret :: hist ∧
    t.bus = { cs := .high, flight := none, plan := .ok, ret := ret } ∧ t.dec.phase = .idle ∧
    (∀ e, ret = .error e → t.result = some (.error (.transport e)) ∧ t.pos = .idle)

/-- The move performed no transaction: the device and the bus are as they were, at most delays are recorded. -/
def NoTransaction (s t : State) : Prop :=
  t.dev = s.dev ∧ t.dec = s.dec ∧ t.bus = s.bus ∧
    ∃ ds, t.history = s.history ++ ds ∧ ∀ e, e ∈ ds → ∃ ms, e = .delay ms

/-- What a move of HOST can do. -/
def HostEffect (s t : State) : Prop :=
  t.cfg = s.cfg ∧ (∃ ms, t.diag = s.diag ++ ms) ∧ (DidTransaction s t ∨ NoTransaction s t)

theorem NoTransaction.of_hostOnly {s t : State} (h : HostOnly s t) : HostEffect s t :=
  ⟨h.1, h.2.2.2.2.2, .inr ⟨h.2.1, h.2.2.2.1, h.2.2.1, [], by simp [h.2.2.2.2.1], by simp⟩⟩

/-- An instruction on a state that HOST has prepared. -/
theorem exec_hostEffect (i : Instr) (s u t : State) (hs : HostOnly s u) (h : exec i u = .next t) :
    HostEffect s t ∧ DidTransaction s t ∧ t.diag = u.diag := by
  obtain ⟨h0, h1, c, bytes, v, dec, dev, hist, pool, ctr, hph, heff, rfl⟩ := exec_inv i u t h
  obtain ⟨hc, hd, hb, hde, hh, ms, hm⟩ := hs
  refine ⟨⟨hc, ⟨ms, hm⟩, .inl ?_⟩, ?_, rfl⟩
  all_goals
    refine ⟨_, _, bytes, planRet u.bus.plan, hist, hc ▸ hd ▸ heff, congrArg (· ++ _) hh, rfl, hph, fun e he => ?_⟩
    cases hp : u.bus.plan <;> rw [hp] at he <;> cases he
    exact ⟨rfl, rfl⟩

/-- A raw transaction on a state that HOST has prepared. -/
theorem transact_hostEffect (ops : List SubOp) (s u t : State) (hs : HostOnly s u) (h : transact ops u = .next t) :
    HostEffect s t := by
  obtain ⟨dec, dev, bytes, hist, pool, ctr, hph, heff, rfl⟩ := transact_inv ops u t h
  obtain ⟨hc, hd, hb, hde, hh, ms, hm⟩ := hs
  refine ⟨hc, ⟨ms, hm⟩, .inl ⟨_, _, bytes, planRet u.bus.plan, hist, hc ▸ hd ▸ heff, congrArg (· ++ _) hh, rfl, hph, fun e he => ?_⟩⟩
  cases hp : u.bus.plan <;> rw [hp] at he <;> cases he
  exact ⟨rfl, rfl⟩

/-- A line that issues an instruction and goes on as `k` says. -/
theorem afterXact_hostEffect (i : Instr) (k : State → State) (s u t : State) (hs : HostOnly s u)
    (hk : ∀ v, HostOnly v (k v)) (h : afterXact (exec i u) k = .next t) : HostEffect s t := by
  unfold afterXact at h
  split at h
  · rename_i v hv
    obtain ⟨heff, ⟨ops, sent, bytes, ret, hist, hde, hh, hb, hp, he⟩, -⟩ := exec_hostEffect i s u v hs hv
    split at h
    · rename_i hret
      cases h
      obtain ⟨hc, hd, hbk, hdk, hhk, ms, hm⟩ := hk v
      obtain ⟨hcv, ⟨ms', hm'⟩, -⟩ := heff
      refine ⟨hc.trans hcv, ⟨ms' ++ ms, by rw [hm, hm', List.append_assoc]⟩, .inl
        ⟨ops, sent, bytes, ret, hist, hd ▸ hde, hhk.trans hh, hbk.trans hb, hdk ▸ hp, fun e hr => ?_⟩⟩
      rw [hb] at hret
      simp only at hret
      rw [hret] at hr
      cases hr
    · cases h; exact heff
    · cases h; exact heff
  · cases h
  · cases h

theorem goTo_hostOnly (p : Pos) (v : State) : HostOnly v (goTo p v) := HostOnly.refl v

theorem returnOk_hostOnly (r : OpResult) (v : State) : HostOnly v (returnOk r v) := HostOnly.refl v

theorem raiseError_hostOnly (e : Err) (v : State) : HostOnly v (raiseError e v) := HostOnly.refl v

theorem recvBranch_hostOnly (v : State) : HostOnly v (recvBranch v) := by
  unfold recvBranch
  split
  · exact HostOnly.refl v
  · split <;> exact HostOnly.refl v

/-- The copy of `recv`, which fills the caller's buffer before the test. -/
theorem recv2Data_hostEffect (s t : State) (h : recv2Data s = .next t) : HostEffect s t := by
  unfold recv2Data at h
  split at h
  · rename_i u hu
    have hx := exec_hostEffect (.rd .rxBuffer s.regs.n) s s u (.refl s) hu
    have hfill : HostEffect s (fillOutBuffer u) := hx.1
    have hgo : HostEffect s (goTo .recv2Clear (fillOutBuffer u)) ∨ u.bus.ret ≠ .ok := by
      by_cases hr : u.bus.ret = .ok
      · refine .inl ⟨hx.1.1, hx.1.2.1, .inl ?_⟩
        obtain ⟨ops, sent, bytes, ret, hist, hde, hh, hb, hp, he⟩ := hx.2.1
        refine ⟨ops, sent, bytes, ret, hist, hde, hh, hb, hp, fun e hr' => ?_⟩
        rw [hb] at hr
        simp only at hr
        rw [hr] at hr'
        cases hr'
      · exact .inr hr
    simp only [afterXact] at h
    split at h
    · rename_i hr
      cases h
      exact hgo.resolve_right fun hn => hn hr
    · cases h; exact hfill
    · cases h; exact hfill
  · cases h
  · cases h

/-- Every line of every operation. -/
theorem runLine_hostEffect (s t : State) (h : runLine s = .next t) : HostEffect s t := by
  have hdelay : ∀ p ms, Outcome.next (goTo p (delayMs ms s)) = (.next t : Outcome State Fault Refusal) →
      HostEffect s t := fun p ms h => by
    cases h
    exact ⟨rfl, ⟨[], by simp [goTo, delayMs]⟩, .inr ⟨rfl, rfl, rfl, [.delay ms], rfl, by simp⟩⟩
  have hpoll : ∀ (u : State) (k : State → State), HostOnly s u → (∀ v, HostOnly v (k v)) →
      poll u k = .next t → HostEffect s t := fun u k hu hk h =>
    afterXact_hostEffect (.rdu32 .sysStatus) (fun v => k { v with regs := { v.regs with s := v.regs.rval } }) s
      { u with regs := { u.regs with polls := u.regs.polls + 1 } } t hu
      (fun v => hk { v with regs := { v.regs with s := v.regs.rval } }) h
  unfold runLine at h
  split at h
  · cases h; exact NoTransaction.of_hostOnly (.refl s)
  · exact hdelay _ _ h
  · refine afterXact_hostEffect .fcIdle _ s _ t ?_ (fun v => ?_) h <;> exact HostOnly.refl _
  · exact hdelay _ _ h
  · refine afterXact_hostEffect (.rdu32 .devId) _ s _ t ?_ (fun v => ?_) h <;> exact HostOnly.refl _
  · unfold init5 at h
    split at h <;> cases h <;> exact NoTransaction.of_hostOnly (.refl s)
  · refine afterXact_hostEffect .fcClrirq _ s _ t ?_ (fun v => ?_) h <;> exact HostOnly.refl _
  · cases h
    exact ⟨rfl, ⟨_, rfl⟩, .inr ⟨rfl, rfl, rfl, [], by simp [goTo, emitDiag], by simp⟩⟩
  · cases h; exact NoTransaction.of_hostOnly (.refl s)
  · refine afterXact_hostEffect (.wr .txBuffer s.regs.data) _ s _ t ?_ (fun v => ?_) h <;> exact HostOnly.refl _
  · refine afterXact_hostEffect (.wru32 .txFctrl _) _ s _ t ?_ (fun v => ?_) h <;> exact HostOnly.refl _
  · refine afterXact_hostEffect .fcTx _ s _ t ?_ (fun v => ?_) h <;> exact HostOnly.refl _
  · unfold send4 at h
    split at h
    · refine hpoll s _ (.refl s) (fun v => ?_) h
      split <;> exact HostOnly.refl v
    · cases h; exact NoTransaction.of_hostOnly (.refl s)
  · refine afterXact_hostEffect (.wru32 .sysStatus _) _ s _ t ?_ (fun v => ?_) h <;> exact HostOnly.refl _
  · cases h
    exact ⟨rfl, ⟨_, rfl⟩, .inr ⟨rfl, rfl, rfl, [], by simp [raiseError, emitDiag], by simp⟩⟩
  · refine afterXact_hostEffect .fcRx _ s _ t ?_ (fun v => ?_) h <;> exact HostOnly.refl _
  · unfold recv2 at h
    split at h
    · exact hpoll s _ (.refl s) recvBranch_hostOnly h
    · cases h; exact NoTransaction.of_hostOnly (.refl s)
  · refine afterXact_hostEffect (.rdu32 .rxFinfo) _ s _ t ?_ (fun v => ?_) h <;> exact HostOnly.refl _
  · exact recv2Data_hostEffect s t h
  · refine afterXact_hostEffect (.wru32 .sysStatus _) _ s _ t ?_ (fun v => ?_) h <;> exact HostOnly.refl _
  · refine afterXact_hostEffect (.wru32 .sysStatus _) _ s _ t ?_ (fun v => ?_) h <;> exact HostOnly.refl _
  · refine afterXact_hostEffect .fcRx _ s _ t ?_ (fun v => ?_) h <;> exact HostOnly.refl _
  · refine afterXact_hostEffect .fcIdle _ s _ t ?_ (fun v => ?_) h <;> exact HostOnly.refl _
  · refine afterXact_hostEffect .fcIdle _ s _ t ?_ (fun v => ?_) h <;> exact HostOnly.refl _

/-- A call that needs a `Ready` handle is answered only on one, and then by what it runs. -/
theorem callReady_inv (run : State → Outcome State Fault Refusal) (s t : State) (h : callReady run s = .next t) :
    s.lifecycle = .ready ∧ run s = .next t := by
  unfold callReady at h
  split at h
  · rename_i hl; exact ⟨hl, h⟩
  · cases h
  · cases h

/-- HOST takes `init` on an `Uninitialized` handle, `new_handle` on a consumed one, and everything else on a `Ready` one
(R275, R301). -/
theorem takeCall_lifecycle (c : Call) (s t : State) (h : takeCall c s = .next t) :
    (c = .init ∧ s.lifecycle = .uninitialized) ∨ (c = .newHandle ∧ s.lifecycle = .consumed) ∨ s.lifecycle = .ready := by
  cases c with
  | newHandle =>
    simp only [takeCall, callNewHandle] at h
    split at h <;> cases h
    rename_i hl; exact .inr (.inl ⟨rfl, hl⟩)
  | init =>
    simp only [takeCall, callInit] at h
    split at h <;> cases h
    rename_i hl; exact .inl ⟨rfl, hl⟩
  | send _ => simp only [takeCall] at h; exact .inr (.inr (callReady_inv _ s t h).1)
  | recv _ _ => simp only [takeCall] at h; exact .inr (.inr (callReady_inv _ s t h).1)
  | forceIdle => simp only [takeCall] at h; exact .inr (.inr (callReady_inv _ s t h).1)
  | instr _ => simp only [takeCall] at h; exact .inr (.inr (callReady_inv _ s t h).1)
  | wire _ => simp only [takeCall] at h; exact .inr (.inr (callReady_inv _ s t h).1)

/-- Every call HOST can take. -/
theorem takeCall_hostEffect (c : Call) (s u t : State) (hs : HostOnly s u) (h : takeCall c u = .next t) :
    HostEffect s t := by
  have hready : ∀ start : State → State, HostOnly u (start u) → callReady (fun v => .next (start v)) u = .next t →
      HostEffect s t := fun start hk h => by
    cases (callReady_inv _ u t h).2
    obtain ⟨hc, hd, hb, hde, hh, ms, hm⟩ := hk
    obtain ⟨hc', hd', hb', hde', hh', ms', hm'⟩ := hs
    exact NoTransaction.of_hostOnly ⟨hc.trans hc', hd.trans hd', hb.trans hb', hde.trans hde', hh.trans hh',
      ms' ++ ms, by rw [hm, hm', List.append_assoc]⟩
  cases c with
  | newHandle =>
    simp only [takeCall, callNewHandle] at h
    split at h <;> cases h
    exact NoTransaction.of_hostOnly hs
  | init =>
    simp only [takeCall, callInit] at h
    split at h <;> cases h
    exact NoTransaction.of_hostOnly hs
  | send data => exact hready (startSend data) (HostOnly.refl u) h
  | recv outBuffer maxPolls => exact hready (startRecv outBuffer maxPolls) (HostOnly.refl u) h
  | forceIdle => exact hready (startAt .forceIdle1) (HostOnly.refl u) h
  | instr i =>
    simp only [takeCall] at h
    exact (exec_hostEffect i s { u with result := none } t hs (callReady_inv _ u t h).2).1
  | wire ops =>
    simp only [takeCall] at h
    replace h := (callReady_inv _ u t h).2
    simp only [runWire] at h
    split at h
    · exact (exec_hostEffect _ s { u with result := none } t hs h).1
    · exact transact_hostEffect ops s { u with result := none } t hs h

/-- Every move of HOST. -/
theorem hostMove_hostEffect (s t : State) (h : hostMove s = .next t) : HostEffect s t := by
  unfold hostMove at h
  split at h
  · split at h
    · cases h; exact NoTransaction.of_hostOnly (.refl s)
    · rename_i c cs hcs
      exact takeCall_hostEffect c s { s with calls := cs } t (HostOnly.refl s) h
  · exact runLine_hostEffect s t h

/-- Everything a step can do: HOST moves (with its turn and its transaction's plan taken off the schedule), RADIO moves,
or the operation is abandoned. -/
theorem step_inv (s t : State) (h : step s = .next t) :
    (s.turns = [] ∧ HostEffect s t) ∨
    (∃ p ts, s.turns = .host p :: ts ∧ HostEffect { s with turns := ts, bus := { s.bus with plan := p } } t) ∨
    (∃ ev ts, s.turns = .radio ev :: ts ∧ t = radioMove ev { s with turns := ts }) ∨
    (∃ ts, s.turns = .abandon :: ts ∧
      t = if s.pos = .idle then { s with turns := ts } else dropOperation { s with turns := ts }) := by
  simp only [step, agentMove] at h
  split at h
  · rename_i ht; exact .inl ⟨ht, hostMove_hostEffect s t h⟩
  · rename_i p ts ht; exact .inr (.inl ⟨p, ts, ht, hostMove_hostEffect _ t h⟩)
  · rename_i ev ts ht; cases h; exact .inr (.inr (.inl ⟨ev, ts, ht, rfl⟩))
  · rename_i ts ht; cases h; exact .inr (.inr (.inr ⟨ts, ht, rfl⟩))

/-- What a commit emits is no transaction. -/
theorem DeviceEffect.emits_no_transaction (cfg : Config) (sent : List Byte) (d d' : Device) (hist : List HistEvent)
    (h : DeviceEffect cfg sent d d' hist) : ∀ e ∈ hist, isTransaction e = false := by
  rcases h with ⟨-, rfl⟩ | ⟨_, _, _, _, _, _, rfl⟩ | ⟨code, -, hc⟩
  · simp
  · simp
  · rcases command_cases _ _ _ _ _ hc with
      ⟨_, _, _, _, rfl⟩ | ⟨_, _, _, rfl⟩ | ⟨_, _, rfl⟩ | ⟨_, _, rfl⟩ | ⟨_, _, rfl⟩ <;> simp [isTransaction]

/-- A step adds at most one transaction to the history, as the first of what it adds. -/
theorem step_adds_one_transaction (s t : State) (added : List HistEvent) (x : HistEvent) (h : step s = .next t)
    (hh : t.history = s.history ++ added) (hx : x ∈ added) (ht : isTransaction x = true) :
    ∃ rest, added = x :: rest := by
  have host : ∀ u : State, u.history = s.history → HostEffect u t → ∃ rest, added = x :: rest := by
    intro u hu ⟨_, _, he⟩
    rcases he with ⟨ops, sent, bytes, ret, hist, heff, h2, _⟩ | ⟨_, _, _, ds, hd, hn⟩
    · rw [hh, hu] at h2
      obtain rfl := List.append_cancel_left h2
      rcases List.mem_cons.1 hx with rfl | hx
      · exact ⟨_, rfl⟩
      · rw [heff.emits_no_transaction _ _ _ _ _ x hx] at ht; cases ht
    · rw [hh, hu] at hd
      obtain rfl := List.append_cancel_left hd
      obtain ⟨ms, rfl⟩ := hn x hx
      cases ht
  rcases step_inv s t h with ⟨_, h⟩ | ⟨p, ts, _, h⟩ | ⟨ev, ts, _, rfl⟩ | ⟨ts, _, rfl⟩
  · exact host _ rfl h
  · exact host { s with turns := ts, bus := { s.bus with plan := p } } rfl h
  · unfold radioMove at hh
    split at hh
    · have happly : ∀ u : State, (applyEvent ev u).history = u.history := by intro u; cases ev <;> rfl
      rw [happly] at hh
      obtain rfl := List.append_cancel_left hh
      obtain rfl := List.mem_singleton.1 hx
      cases ht
    · simp at hh; subst hh; simp at hx
  · split at hh <;> simp [dropOperation] at hh <;> subst hh <;> simp at hx

end Sys2Proof.Machine
end

