-- ==== Sys2Proof/Tests/Slice0.lean ====
section
/-! SUPPORT. Tests: well-formedness, the spec's words, single transactions and events (95_test_vectors.md), and a witness
for the hypotheses of every statement. -/

namespace Sys2Proof.Tests

open Sys2Proof Sys2Proof.Machine
open Host (Outcome)

/- The tests are evaluated one after another: many at once would need a thread each. -/
set_option Elab.async false

/-! ### Helpers: a device with every register known, a quiet machine around it -/

/-- The flags that are in the list. -/
def flagsIn (l : List Flag) : Flags := flagsOf l.contains

/-- A device with known registers: `SYS_CFG` holds the bytes 11 22 33 44, `EUI_64` the bytes 01 to 08. -/
def dev0 : Device where
  eui64 := 0x0807060504030201
  sysCfg := 0x44332211
  txFctrl := 0x00000005
  flags := flagsIn []
  rxFinfo := 0x00000006
  txBuffer := [(0, 0xAA), (1, 0xBB), (2, 0xCC)]
  rxBuffer := [(0, 0x11), (1, 0x22), (2, 0x33), (3, 0x44)]
  rxDraw := 0
  trx := .idle

/-- Every draw is 0, as in 95_test_vectors.md. -/
def quiet : State := { State.reset with dev := dev0, drawPool := List.replicate 4 0 }

/-- The machine with these flags set. -/
def withFlags (l : List Flag) (s : State) : State := { s with dev := { s.dev with flags := flagsIn l } }

/-- The machine with this transceiver mode. -/
def withTrx (t : Trx) (s : State) : State := { s with dev := { s.dev with trx := t } }

/-- The machine with this plan for the next transaction. -/
def withPlan (p : Plan) (s : State) : State := { s with bus := { s.bus with plan := p } }

/-- A `Ready` handle at a line of an operation, with a bound of 3 polls and a buffer of 6 bytes. -/
def atLine (p : Pos) (s : State) : State :=
  { s with lifecycle := .ready, pos := p, regs := { resetRegs with bound := 3, outBuffer := List.replicate 6 0xEE } }

/-- A handle in this lifecycle state with one call to come. -/
def calling (l : Lifecycle) (c : Call) (s : State) : State := { s with lifecycle := l, calls := [c] }

/-- The outcome is a next state with the property. -/
def ends (o : Outcome State Fault Refusal) (p : State → Bool) : Bool :=
  match o with
  | .next t => p t
  | .fault _ => false
  | .refused _ => false

/-- The outcome is this refusal. -/
def refuses (o : Outcome State Fault Refusal) (why : Refusal) : Bool :=
  match o with
  | .next _ => false
  | .fault _ => false
  | .refused r => r == why

/-- The flags of the device are exactly those of the list. -/
def hasFlags (l : List Flag) (t : State) : Bool := decide (t.dev.flags = flagsIn l)

/-- A raw transaction under the default parameters on the quiet machine. -/
def wire (bytes : List Byte) (reads : Nat) : Outcome State Fault Refusal :=
  transact (if reads = 0 then [.write bytes] else [.write bytes, .read reads]) quiet

/-- A configuration with `EUI_64` at the address of `DEV_ID`. -/
def sameAddress : Config :=
  { defaultConfig with regmap := { defaultRegMap with eui64 := ⟨0x00, 0x00⟩ } }

/-- A configuration with two flags at one position. -/
def sameBit : Config := { defaultConfig with flagpos := { defaultFlagPos with rxfr := 7 } }

/-- A configuration with two commands of one code. -/
def sameCode : Config := { defaultConfig with cmd := { defaultCmd with rx := 0x01 } }

/-! ### Well-formedness: a good term and an ill-formed one for each check -/

theorem test_wf_rd : wellFormed defaultConfig (.rd .rxBuffer 1024) = true ∧
    wellFormed defaultConfig (.rd .txBuffer 0) = false ∧ wellFormed defaultConfig (.rd .devId 5) = false := by decide

theorem test_wf_wr : wellFormed defaultConfig (.wr .sysCfg [1, 2, 3, 4]) = true ∧
    wellFormed defaultConfig (.wr .rxFinfo []) = false ∧
    wellFormed defaultConfig (.wr .sysCfg [1, 2, 3, 4, 5]) = false := by decide

theorem test_wf_wrappers : wellFormed defaultConfig (.rdu32 .rxFinfo) = true ∧
    wellFormed defaultConfig (.rdu32 .txBuffer) = false ∧ wellFormed defaultConfig (.wru32 .txBuffer 5) = true ∧
    wellFormed defaultConfig (.wru32 .devId 5) = false := by decide

theorem test_wf_unassigned : wellFormed defaultConfig (.reservedFcUnassigned 0x05) = true ∧
    wellFormed defaultConfig (.reservedFcUnassigned 0x0E) = false := by decide

theorem test_wf_config : defaultConfig.wf = true ∧ regmapDistinct sameAddress = false ∧
    flagposDistinct sameBit = false ∧ cmdDistinct sameCode = false ∧
    sameAddress.wf = false ∧ sameBit.wf = false ∧ sameCode.wf = false := by decide

/-! ### Encoding and decoding, by the words of V1, V2 and V3 -/

/-- V1, the table of arbitrary descriptors, the out-of-range ones among them. -/
theorem test_header_bytes :
    [headerByte0 0x1F 0x7F false, headerByte1 0x7F] = [0x7F, 0xFC] ∧
    [headerByte0 0x00 0x40 false, headerByte1 0x40] = [0x41, 0x00] ∧
    [headerByte0 0x15 0x2A true, headerByte1 0x2A] = [0xEA, 0xA8] ∧
    [headerByte0 0x20 0x00 false, headerByte1 0x00] = [0x40, 0x00] ∧
    [headerByte0 0x3F 0xFF true, headerByte1 0xFF] = [0xFF, 0xFC] := by decide

/-- V1, the read headers of the catalog: `RD` (0 1 FFFFF S, SSSSSS 00). -/
theorem test_decode_rd :
    decodeTableWord 16 0x4000 = some (.rd .devId 0) ∧ decodeTableWord 16 0x4010 = some (.rd .eui64 0) ∧
    decodeTableWord 16 0x4040 = some (.rd .sysCfg 0) ∧ decodeTableWord 16 0x4090 = some (.rd .txFctrl 0) ∧
    decodeTableWord 16 0x4110 = some (.rd .sysStatus 0) ∧ decodeTableWord 16 0x4130 = some (.rd .rxFinfo 0) ∧
    decodeTableWord 16 0x6400 = some (.rd .rxBuffer 0) ∧ decodeTableWord 16 0x6800 = some (.rd .txBuffer 0) := by decide

/-- V1, the write headers of the catalog: `WR` (1 1 FFFFF S, SSSSSS 00). -/
theorem test_decode_wr :
    decodeTableWord 16 0xC000 = some (.wr .devId []) ∧ decodeTableWord 16 0xC010 = some (.wr .eui64 []) ∧
    decodeTableWord 16 0xC040 = some (.wr .sysCfg []) ∧ decodeTableWord 16 0xC090 = some (.wr .txFctrl []) ∧
    decodeTableWord 16 0xC110 = some (.wr .sysStatus []) ∧ decodeTableWord 16 0xC130 = some (.wr .rxFinfo []) ∧
    decodeTableWord 16 0xE400 = some (.wr .rxBuffer []) ∧ decodeTableWord 16 0xE800 = some (.wr .txBuffer []) := by decide

/-- V2, the fast commands: 1 0 CCCCC 1. -/
theorem test_decode_fc :
    decodeTableWord 8 0x83 = some .fcTx ∧ decodeTableWord 8 0x85 = some .fcRx ∧ decodeTableWord 8 0x87 = some .fcIdle ∧
    decodeTableWord 8 0x89 = some .fcDrxdb ∧ decodeTableWord 8 0x9D = some .fcClrirq ∧
    decodeTableWord 8 0x81 = some (.reservedFcUnassigned 0x00) ∧
    decodeTableWord 8 0x9B = some (.reservedFcUnassigned 0x0D) ∧
    decodeTableWord 8 0xBF = some (.reservedFcUnassigned 0x1F) := by decide

/-- V2, the bytes of the generic command, code 33 reduced by the mask. -/
theorem test_encode_fc : fcByte 0x0E = 0x9D ∧ fcByte 31 = 0xBF ∧ fcByte 32 = 0x81 ∧ fcByte 33 = 0x83 ∧
    decode defaultConfig (expand (encode defaultConfig (.fc 33))) = .instr .fcTx := by decide

/-- V3, the reserved encodings. -/
theorem test_decode_reserved :
    decodeTableWord 8 0x00 = some (.reservedB000 0x00) ∧ decodeTableWord 8 0x3F = some (.reservedB000 0x3F) ∧
    decodeTableWord 8 0x80 = some (.reservedB010x0 0x00) ∧ decodeTableWord 8 0xBE = some (.reservedB010x0 0x1F) ∧
    decodeTableWord 16 0x4111 = some (.reservedFaMode1 false 0x00 0x44) ∧
    decodeTableWord 16 0x4112 = some (.reservedFaMode2 false 0x00 0x44) ∧
    decodeTableWord 16 0xFFFF = some (.reservedFaMode3 true 0x1F 0x7F) := by decide

/-- V3, the header inside `DEV_ID`, the header of no register, the cut header and the empty transaction. -/
theorem test_decode_no_instruction :
    decode defaultConfig [.write 0x40, .write 0x04] = .bad .notInCatalog ∧
    decode defaultConfig [.write 0x40, .write 0x08] = .bad .notInCatalog ∧
    decode defaultConfig [.write 0x87, .write 0x00] = .bad .slotAfterFast ∧
    decode defaultConfig [.write 0x41, .write 0x10, .write 0xAA] = .bad .slotDirection ∧
    decode defaultConfig [.write 0x41] = .incomplete ∧ decode defaultConfig [] = .incomplete := by decide

/-- S3 and V5: `WRU32` and `RDU32` as the transactions they expand to. -/
theorem test_decode_wrappers :
    expand (encode defaultConfig (.wru32 .txFctrl 0x00000005)) = [0xC0, 0x90, 0x05, 0x00, 0x00, 0x00].map .write ∧
    decode defaultConfig (expand (encode defaultConfig (.wru32 .sysCfg 0xDECA0302))) =
      .instr (.wr .sysCfg [0x02, 0x03, 0xCA, 0xDE]) ∧
    decode defaultConfig (expand (encode defaultConfig (.rdu32 .sysStatus))) = .instr (.rd .sysStatus 4) := by decide

/-- The next step after reset runs the placed word. -/
theorem test_first_instruction :
    ends (step (State.reset.withFetchWord 8 0x87)) (fun t => decide (t.dev.trx = .idle)) = true ∧
    ends (step (State.reset.withFetchWord 16 0x4000)) (fun t => decide (t.bus.ret = .ok)) = true ∧
    refuses (step (State.reset.withFetchWord 16 0x4111)) .reservedMode = true ∧
    refuses (step (State.reset.withFetchWord 8 0x89)) .delayedDoubleBufferedRx = true := by decide +kernel

/-! ### The device slot by slot (V3) -/

theorem test_refusals :
    refuses (wire [0x3F] 0) .reservedFirstByte = true ∧ refuses (wire [0x80] 0) .reservedFirstByte = true ∧
    refuses (wire [0x41, 0x12] 4) .reservedMode = true ∧ refuses (wire [0x40, 0x04] 1) .notInCatalog = true ∧
    refuses (wire [0x68, 0x00] 1) .accessRight = true ∧ refuses (wire [0xC0, 0x00, 0x01] 0) .accessRight = true ∧
    refuses (wire [0x41, 0x10] 5) .dataTooLong = true ∧ refuses (wire [0x8B] 0) .unassignedCode = true ∧
    refuses (wire [0x87, 0x00] 0) .slotAfterFast = true ∧ refuses (wire [0x41, 0x10, 0xAA] 0) .slotDirection = true := by
  decide +kernel

theorem test_cut_header : ends (wire [0x41] 0) (fun t => decide (t.dev = dev0)) = true ∧
    ends (wire [] 0) (fun t => decide (t.dev = dev0)) = true ∧
    ends (wire [0xC1, 0x10] 0) (fun t => decide (t.dev = dev0)) = true := by decide +kernel

/-- A duplex slot is of neither direction (log entry 16). -/
theorem test_duplex_rejected :
    refuses (transact [.transferInPlace [0x40, 0x00]] quiet) .slotDirection = true := by decide +kernel

/-! ### Single transactions (V4, V5, V6, V8, V11) -/

/-- V4 1: `RD DEV_ID, 2` gives the low-order bytes; V4 3: `RD EUI_64, 8`. -/
theorem test_rd : ends (execRd .devId 2 quiet) (fun t => decide (t.regs.rbytes = [0x02, 0x03])) = true ∧
    ends (execRd .eui64 8 quiet) (fun t => decide (t.regs.rbytes = [1, 2, 3, 4, 5, 6, 7, 8])) = true := by decide +kernel

/-- V4 2: a partial write of `SYS_CFG` replaces the low-order bytes. -/
theorem test_wr_partial :
    ends (execWr .sysCfg [0xAA, 0xBB] quiet) (fun t => decide (t.dev.sysCfg = 0x4433BBAA)) = true := by decide +kernel

/-- V4 4: a second, shorter write of `TX_BUFFER` leaves the rest. -/
theorem test_wr_buffer :
    ends (execWr .txBuffer [0x01] quiet)
      (fun t => decide (t.dev.txBuffer = [(0, 0x01), (1, 0xBB), (2, 0xCC)])) = true := by decide +kernel

/-- V5: the value of `RDU32 DEV_ID` and the record of the transaction. -/
theorem test_rdu32 :
    ends (execRdu32 .devId quiet) (fun t => decide (t.regs.rval = 0xDECA0302 ∧
      t.history = [.xact [.write [0x40, 0x00], .read 4] [0x40, 0x00] [0x02, 0x03, 0xCA, 0xDE] .ok])) = true := by
  decide +kernel

/-- V5: the bytes of `WRU32 TX_FCTRL, 5`. -/
theorem test_wru32 :
    ends (execWru32 .txFctrl 0x00000005 quiet) (fun t => decide (t.dev.txFctrl = 0x00000005 ∧
      t.history = [.xact [.write [0xC0, 0x90], .write [5, 0, 0, 0]] [0xC0, 0x90, 5, 0, 0, 0] [] .ok])) = true := by
  decide +kernel

/-- V6: one bit clears one flag; ones in undefined positions do nothing more. -/
theorem test_w1c :
    ends (execWru32 .sysStatus 0x00000080 (withFlags [.txfrs, .rxfce] quiet)) (hasFlags [.rxfce]) = true ∧
    ends (execWru32 .sysStatus 0xFFFFFFFF (withFlags allFlags quiet)) (hasFlags []) = true ∧
    ends (execWru32 .sysStatus 0x00000000 (withFlags allFlags quiet)) (hasFlags allFlags) = true := by decide +kernel

/-- V6: short writes. -/
theorem test_w1c_short :
    ends (execWr .sysStatus [0xFF] (withFlags [.txfrs, .rxfce, .rxpto] quiet)) (hasFlags [.rxfce, .rxpto]) = true ∧
    ends (execWr .sysStatus [0x00, 0xFF] (withFlags [.txfrs, .rxfce, .rxpto] quiet)) (hasFlags [.txfrs, .rxpto]) = true := by
  decide +kernel

/-- V6: the word a read of the status returns, every draw 0; `M_ALL`. -/
theorem test_status_read :
    ends (execRdu32 .sysStatus (withFlags [.rxfr, .rxfcg] quiet))
      (fun t => decide (t.regs.rval = 0x00006000) && hasFlags [.rxfr, .rxfcg] t) = true ∧
    allMask defaultConfig = 0x0420F080 := by decide +kernel

/-- V8: `FC.TX` from idle hands over the frame; only bits 9:0 of `TX_FCTRL` count. -/
theorem test_fc_tx :
    ends (execFcTx { quiet with dev := { dev0 with txFctrl := 0xFFFFFC05 } }) (fun t => decide (t.dev.trx = .tx ∧
      t.history = [.xact [.write [0x83]] [0x83] [] .ok, .airTx [0xAA, 0xBB, 0xCC]])) = true ∧
    ends (execFcTx { quiet with dev := { dev0 with txFctrl := 0x00000001 } }) (fun t => decide (t.dev.trx = .unknown ∧
      t.history = [.xact [.write [0x83]] [0x83] [] .ok])) = true := by decide +kernel

/-- V8: `FC.RX` from idle and out of turn. -/
theorem test_fc_rx : ends (execFcRx quiet) (fun t => decide (t.dev.trx = .rx)) = true ∧
    ends (execFcRx (withTrx .rx quiet)) (fun t => decide (t.dev.trx = .unknown)) = true := by decide +kernel

/-- V8: `FC.IDLE` leaves a stale flag. -/
theorem test_fc_idle :
    ends (execFcIdle (withFlags [.txfrs] (withTrx .tx quiet)))
      (fun t => decide (t.dev.trx = .idle) && hasFlags [.txfrs] t) = true := by decide +kernel

/-- V8: `FC.CLRIRQ` keeps the mode. -/
theorem test_fc_clrirq :
    ends (execFcClrirq (withFlags [.txfrs, .rxfce] (withTrx .rx quiet)))
      (fun t => decide (t.dev.trx = .rx) && hasFlags [] t) = true := by decide +kernel

/-- R150: code 35 is the idle command. -/
theorem test_fc_code : ends (execFc 35 (withTrx .rx quiet)) (fun t => decide (t.dev.trx = .idle)) = true := by
  decide +kernel

/-- V3, R156: `FC.DRXDB` by its mnemonic and by its code. -/
theorem test_fc_drxdb : refuses (execFcDrxdb quiet) .delayedDoubleBufferedRx = true ∧
    refuses (execFc 4 quiet) .delayedDoubleBufferedRx = true := by decide +kernel

/-- V11 2: a clearing write that fails after 2 and after 3 bytes. -/
theorem test_failed_clear :
    ends (execWru32 .sysStatus 0x80 (withPlan (.fail 2 9) (withFlags [.txfrs] quiet)))
      (fun t => decide (t.result = some (.error (.transport 9))) && hasFlags [.txfrs] t) = true ∧
    ends (execWru32 .sysStatus 0x80 (withPlan (.fail 3 9) (withFlags [.txfrs] quiet)))
      (fun t => decide (t.result = some (.error (.transport 9))) && hasFlags [] t) = true := by decide +kernel

/-! ### RADIO (V9) -/

theorem test_tx_done :
    decide ((radioMove .txDone (withTrx .tx quiet)).dev = { dev0 with flags := flagsIn [.txfrs] }) = true ∧
    decide (radioMove .txDone quiet = quiet) = true := by decide +kernel

theorem test_rx_good :
    decide ((radioMove (.rxGood 6 [0x11, 0x22, 0x33, 0x44]) (withTrx .rx quiet)).dev =
      { dev0 with flags := flagsIn [.rxfr, .rxfcg], rxDraw := 1 }) = true := by decide +kernel

theorem test_rx_fcs_error :
    decide ((radioMove .rxFcsError (withFlags [.rxpto] (withTrx .rx quiet))).dev =
      { dev0 with flags := flagsIn [.rxpto, .rxfce], rxFinfo := 0, rxBuffer := [], rxDraw := 1 }) = true := by
  decide +kernel

/-! ### The driver (V7, V10), one step each -/

/-- R301, R311: at reset a transaction, or a second `new_handle`, is refused; an order without the wait is noticed. -/
theorem test_init_first :
    refuses (step { State.reset with calls := [.instr .fcIdle] }) .opNotAllowed = true ∧
    refuses (step { State.reset with calls := [.wire [.write [0x87]]] }) .opNotAllowed = true ∧
    refuses (step { State.reset with calls := [.newHandle] }) .opNotAllowed = true ∧
    ends (step { State.reset with calls := [.init] }) (fun t => decide (t.pos = .init1)) = true ∧
    transactionsAfterWait [.delay 1, .xact [] [] [] .ok, .delay 5] = false := by decide +kernel

/-- V7: the length the second step of `send` writes. -/
theorem test_lengths : txLength 3 = 5 ∧ txLength 1021 = 1023 ∧ txLength 1022 = 0 ∧ payloadLength 1 = 0 ∧
    payloadLength 1023 = 1021 := by decide

/-- R153, R84: an `FC.TX` that is delivered and then fails or is cut has handed over its frame. -/
theorem test_failed_fc_tx :
    ends (execFcTx (withPlan (.fail 1 9) quiet)) (fun t => decide (t.dev.trx = .tx ∧ t.history =
      [.xact [.write [0x83]] [0x83] [] (.error 9), .airTx [0xAA, 0xBB, 0xCC]])) = true ∧
    ends (execFcTx (withPlan (.cut 1) quiet)) (fun t => decide (t.dev.trx = .tx ∧ t.result = none)) = true := by
  decide +kernel

/-- V10 13: with both `RXFCG` and `RXFCE` the good path runs. -/
theorem test_poll_priority :
    ends (step (withFlags [.rxfcg, .rxfce] (atLine .recv2 quiet))) (fun t => decide (t.pos = .recv2Info)) = true ∧
    ends (step (withFlags [.rxpto, .rxfr] (atLine .recv2 quiet))) (fun t => decide (t.pos = .recv2)) = true := by
  decide +kernel

/-- V10 16: the clearing write of the good path, observed and constant. -/
theorem test_clear_value :
    clearValue defaultConfig 0x00004000 (goodMask defaultConfig) = 0x00004000 ∧
    clearValue { defaultConfig with clearWrite := .constant } 0x00004000 (goodMask defaultConfig) = 0x00006000 := by
  decide

/-! ### Witnesses: the hypotheses of each statement, met together, each clause at a boundary of its range

`ends (step s) p = true` says that `step s` answers a next state `t` with `p t`. -/

/-- A raw write of these bytes on the quiet machine with a `Ready` handle, HOST's turn, carried whole. -/
def wireCall (bytes : List Byte) : State :=
  { quiet with lifecycle := .ready, calls := [.wire [.write bytes]], turns := [.host .ok] }

/-- A quiet machine whose turn is this event, in this mode. -/
def eventTurn (t : Trx) (ev : RadioEvent) : State := { withTrx t quiet with turns := [.radio ev] }

theorem test_hyp_HeaderBitsAreTheFields : (4 : Nat) < 5 ∧ (5 : Nat) < 6 ∧ (headerByte0 0x10 0x40 true).getLsbD 5 = true ∧
    (headerByte1 0x20).getLsbD 7 = true := by decide

theorem test_hyp_DeviceRecoversTheHeader : (0x41 : Byte).getLsbD 6 = true ∧ (0xFF : Byte).getLsbD 6 = true := by decide

theorem test_hyp_MatchAndMaskDecode :
    ((0x40 : Byte) ++ (0x00 : Byte)) &&& (0xC003 : BitVec 16) = 0x4000 ∧
    ((0xFF : Byte) ++ (0xFC : Byte)) &&& (0xC003 : BitVec 16) = 0xC000 ∧
    (0x81 : Byte) &&& 0xC1 = 0x81 ∧ (0xBF : Byte) &&& 0xC1 = 0x81 ∧ defaultConfig.cmd = defaultCmd ∧
    (0xBF : Byte) ≠ 0x83 ∧ (0xBF : Byte) ≠ 0x85 ∧ (0xBF : Byte) ≠ 0x87 ∧ (0xBF : Byte) ≠ 0x89 ∧ (0xBF : Byte) ≠ 0x9D := by
  decide

theorem test_hyp_DecodeOfEncode : defaultConfig.wf = true ∧
    [Instr.rd .rxBuffer 1024, .rd .devId 0, .wr .eui64 (List.replicate 8 0xFF), .wr .sysStatus [], .fc 33, .fcTx, .fcRx,
      .fcIdle, .fcDrxdb, .fcClrirq, .rdu32 .sysStatus, .wru32 .txFctrl 0xFFFFFFFF, .reservedFaMode1 true 31 127,
      .reservedFaMode2 false 0 0, .reservedFaMode3 true 31 127, .reservedB000 63, .reservedB010x0 31,
      .reservedFcUnassigned 31].all (wellFormed defaultConfig) = true := by decide

theorem test_hyp_StepRunsTheDecodedInstruction :
    (wireCall [0x87]).pos = .idle ∧ (wireCall [0x87]).lifecycle = .ready ∧ (wireCall [0x87]).calls = [.wire [.write [0x87]]] ∧
    decode (wireCall [0x87]).cfg (expand [.write [0x87]]) = .instr .fcIdle ∧ (wireCall [0x87]).turns = [.host .ok] ∧
    quiet.turns = [] ∧ quiet.bus.plan = .ok ∧
    (calling .ready (.instr .fcTx) { quiet with turns := [.host (.fail 0 1)] }).calls = [.instr .fcTx] ∧
    decode quiet.cfg ((wordBytes ((16 + 7) / 8) 0x4111).map .write) = .instr (.reservedFaMode1 false 0 0x44) := by decide

theorem test_hyp_ReservedFirstByteRefused :
    delivered quiet.bus.plan (expand [.write [0x3F, 0x01]]) = [.write 0x3F, .write 0x01] ∧
    (0x3F : Byte).getLsbD 6 = false ∧ (0x3F : Byte).getLsbD 7 = false ∧
    delivered (.fail 1 9) (expand [.write [0xBE, 0x01]]) = [.write 0xBE] ∧
    (0xBE : Byte).getLsbD 6 = false ∧ (0xBE : Byte).getLsbD 0 = false := by decide

theorem test_hyp_ReservedModeRefused :
    delivered quiet.bus.plan (expand [.write [0x41, 0x11], .read 4]) =
      [.write 0x41, .write 0x11, .read, .read, .read, .read] ∧
    (0x41 : Byte).getLsbD 6 = true ∧ (0x11 : Byte).extractLsb' 0 2 ≠ 0 ∧ (0x13 : Byte).extractLsb' 0 2 ≠ 0 := by decide

theorem test_hyp_UnassignedCodeRefused :
    deliveredCount quiet.bus.plan 1 = 1 ∧ deliveredCount (.fail 1 9) 1 = 1 ∧
    assignedCode quiet.cfg (BitVec.ofNat 5 0x1F) = false ∧ assignedCode quiet.cfg (BitVec.ofNat 5 32) = false ∧
    quiet.cfg.cmd = defaultCmd := by decide

theorem test_hyp_UndescribedAccessRefused :
    delivered quiet.bus.plan (expand [.write [0x40, 0x04], .read 1]) = [.write 0x40, .write 0x04, .read] ∧
    (0x40 : Byte).getLsbD 6 = true ∧ (0x04 : Byte).extractLsb' 0 2 = 0 ∧
    (allRegs.all fun r => decide (regAddr quiet.cfg r ≠ ⟨hdrFid 0x40, joinSub (hdrSubHigh 0x40) (hdrSubLow 0x04)⟩)) = true ∧
    quiet.cfg.wf = true ∧ quiet.bus.plan = .ok ∧ readable .rxBuffer = true ∧ regLength .rxBuffer < 1025 ∧
    writable .eui64 = true ∧ regLength .eui64 < (List.replicate 9 (0 : Byte)).length := by decide

theorem test_hyp_AccessRightRefused : quiet.cfg.wf = true ∧ quiet.bus.plan = .ok ∧ readable .txBuffer = false ∧
    writable .devId = false ∧ writable .rxFinfo = false ∧ writable .rxBuffer = false := by decide

theorem test_hyp_MalformedShapesRefused :
    delivered quiet.bus.plan (expand [.write [0x87], .read 1]) = .write (fcByte 3) :: .read :: [] ∧
    delivered quiet.bus.plan (expand [.read 1]) = [.read] ∧ (0x41 : Byte).getLsbD 6 = true ∧
    delivered quiet.bus.plan (expand [.write [0x41], .read 1]) = [.write 0x41, .read] ∧
    quiet.cfg.wf = true ∧ quiet.bus.plan = .ok ∧ writable .sysCfg = true ∧ readable .sysCfg = true ∧
    ([1, 2, 3] : List Byte).length < regLength .sysCfg ∧ 3 < regLength .sysCfg ∧ (0 : Nat) < 1 ∧
    regLength .sysCfg < ([1, 2, 3, 4, 5] : List Byte).length ∧ regLength .sysCfg < 5 := by decide

theorem test_hyp_CutHeaderHasNoEffect :
    delivered (.fail 0 9) (expand [.write [0x41, 0x10], .read 4]) = [] ∧
    delivered (.cut 1) (expand [.write [0x41, 0x10], .read 4]) = [.write 0x41] ∧ (0x41 : Byte).getLsbD 6 = true := by decide

theorem test_hyp_RdReturnsTheRegister : quiet.cfg.wf = true ∧ quiet.bus.plan = .ok ∧ readable .rxBuffer = true ∧
    0 ≤ regLength .rxBuffer ∧ 1024 ≤ regLength .rxBuffer ∧ regLength .rxBuffer < 1025 ∧ readable .txBuffer = false ∧
    (withPlan (.fail 3 9) quiet).bus.plan = .fail 3 9 := by decide

theorem test_hyp_WrCommitsTheBytes : quiet.cfg.wf = true ∧ quiet.bus.plan = .ok ∧ writable .eui64 = true ∧
    (List.replicate 8 (0xFF : Byte)).length ≤ regLength .eui64 ∧ ([] : List Byte).length ≤ regLength .txBuffer ∧
    regLength .eui64 < (List.replicate 9 (0 : Byte)).length ∧ writable .rxFinfo = false ∧
    (withPlan (.fail 3 9) quiet).bus.plan = .fail 3 9 := by decide

theorem test_hyp_FailedTransactionCommitsThePrefix :
    (withPlan (.fail 1 9) quiet).cfg.wf = true ∧ (withPlan (.fail 1 9) quiet).bus.plan = .fail 1 9 ∧
    (withPlan (.fail 2 9) quiet).bus.plan = .fail 2 9 ∧ (withPlan (.fail 0 9) quiet).bus.plan = .fail 0 9 ∧
    writable .sysCfg = true ∧ ([1, 2, 3, 4] : List Byte).length ≤ regLength .sysCfg ∧ readable .devId = true ∧
    4 ≤ regLength .devId ∧
    (match command quiet.cfg (BitVec.ofNat 5 1) quiet.dev with | .next out => out.2.length == 1 | _ => false) = true ∧
    CutShort (withPlan (.fail 1 9) quiet).bus.plan 1 (.error 9) ∧ CutShort (withPlan (.cut 2) quiet).bus.plan 2 .abandoned ∧
    CutShort (withPlan (.cut 0) quiet).bus.plan 0 .abandoned :=
  ⟨by decide, by decide, by decide, by decide, by decide, by decide, by decide, by decide, by decide,
    .inl ⟨9, by decide, rfl⟩, .inr ⟨by decide, rfl⟩, .inr ⟨by decide, rfl⟩⟩

theorem test_hyp_Rdu32ReadsAWord : quiet.cfg.wf = true ∧ quiet.bus.plan = .ok ∧ readable .eui64 = true ∧
    ends (exec (.rd .devId 4) (withPlan (.fail 2 9) quiet)) (fun t => decide (t.bus.ret ≠ .ok)) = true := by decide +kernel

theorem test_hyp_Wru32WritesAWord : quiet.cfg.wf = true ∧ quiet.bus.plan = .ok ∧ writable .txBuffer = true ∧
    writable .sysCfg = true ∧ writable .txFctrl = true := by decide

theorem test_hyp_LittleEndianRoundTrip : quiet.cfg.wf = true ∧ quiet.bus.plan = .ok ∧ plainStorage .eui64 = true ∧
    ([0x02, 0x03, 0xCA, 0xDE] : List Byte).length = 4 := by decide

theorem test_hyp_WriteThenReadBack : quiet.cfg.wf = true ∧ quiet.bus.plan = .ok ∧ plainStorage .eui64 = true ∧
    ([1, 2, 3] : List Byte).length ≤ regLength .eui64 ∧ 8 ≤ regLength .eui64 := by decide

theorem test_hyp_StatusReadShowsTheFlags : quiet.cfg.wf = true ∧ quiet.bus.plan = .ok ∧
    (withPlan (.fail 6 9) quiet).bus.plan = .fail 6 9 ∧
    (allFlags.all fun f => decide (flagPosition quiet.cfg f ≠ 31)) = true := by decide

theorem test_hyp_FlagTestReadsTheFlag :
    (allFlags.all fun f => (0xFBDF0F7F : BitVec 32).getLsbD (flagPosition defaultConfig f) ==
      (0 : BitVec 32).getLsbD (flagPosition defaultConfig f)) = true := by decide

theorem test_hyp_W1cClearsExactlyTheOnes : quiet.cfg.wf = true ∧ ([0, 0, 0, 0x04] : List Byte).length ≤ 4 ∧
    ([] : List Byte).length ≤ 4 ∧ quiet.bus.plan = .ok ∧
    (allFlags.all fun f => (0xFBDF0F7F : BitVec 32).getLsbD (flagPosition defaultConfig f) ==
      (0 : BitVec 32).getLsbD (flagPosition defaultConfig f)) = true := by decide

theorem test_hyp_W1cLaws : defaultConfig.wf = true ∧ Flag.rxfr ≠ Flag.txfrs ∧
    getFlag (withFlags [.rxfce] quiet).dev.flags .txfrs = false ∧
    getFlag (clearFlags defaultConfig (flagsIn [.rxfce]) 0x80) .rxfce = true := by decide

theorem test_hyp_ClearingWritesOfTheDriver :
    (atLine .send4Clear quiet).cfg.wf = true ∧ (atLine .send4Clear quiet).turns = [] ∧
    (atLine .send4Clear quiet).bus.plan = .ok ∧ (atLine .recv2Clear quiet).pos = .recv2Clear ∧
    (atLine .recv2ErrClear quiet).pos = .recv2ErrClear ∧ (atLine .recv2ErrClear quiet).pos ≠ .idle ∧
    ends (step (atLine .recv2ErrClear quiet)) (fun t => decide (t.history =
      [.xact [.write (regHeader defaultConfig .sysStatus true), .write [0, 0, 0, 0]]
        [0xC1, 0x10, 0, 0, 0, 0] [] .ok])) = true := by decide +kernel

theorem test_hyp_FcRunsTheCommand : quiet.cfg.wf = true ∧ quiet.bus.plan = .ok ∧
    BitVec.ofNat 5 33 = quiet.cfg.cmd.tx ∧ BitVec.ofNat 5 2 = quiet.cfg.cmd.rx ∧ BitVec.ofNat 5 3 = quiet.cfg.cmd.idle ∧
    BitVec.ofNat 5 14 = quiet.cfg.cmd.clrirq ∧ BitVec.ofNat 5 4 = quiet.cfg.cmd.drxdb ∧
    assignedCode quiet.cfg (BitVec.ofNat 5 31) = false ∧ (withPlan (.fail 0 9) quiet).bus.plan = .fail 0 9 ∧
    (withPlan (.fail 1 9) quiet).bus.plan = .fail 1 9 ∧ assignedCode quiet.cfg (BitVec.ofNat 5 33) = true ∧
    BitVec.ofNat 5 33 ≠ quiet.cfg.cmd.drxdb := by decide

theorem test_hyp_FcTxStartsTheFrame : quiet.cfg.cmd = defaultCmd ∧ quiet.cfg.wf = true ∧ quiet.bus.plan = .ok ∧
    quiet.dev.trx = .idle ∧ 2 ≤ (quiet.dev.txFctrl.extractLsb' 0 10).toNat ∧ (withTrx .tx quiet).dev.trx ≠ .idle ∧
    ((0x00000401 : BitVec 32).extractLsb' 0 10).toNat < 2 ∧ (withPlan (.fail 1 9) quiet).bus.plan = .fail 1 9 := by decide

theorem test_hyp_FcRxEnablesTheReceiver : quiet.cfg.cmd = defaultCmd ∧ quiet.cfg.wf = true ∧ quiet.bus.plan = .ok ∧
    (withPlan (.fail 0 9) quiet).bus.plan = .fail 0 9 := by decide

theorem test_hyp_FcIdleForcesIdle : quiet.cfg.cmd = defaultCmd ∧ quiet.cfg.wf = true ∧ quiet.bus.plan = .ok ∧
    ends (exec .fcIdle (withTrx .unknown quiet)) (fun _ => true) = true ∧
    (withPlan (.fail 1 9) quiet).bus.plan = .fail 1 9 := by decide +kernel

theorem test_hyp_FcDrxdbRefused : quiet.cfg.cmd = defaultCmd ∧ quiet.cfg.wf = true ∧
    deliveredCount quiet.bus.plan 1 = 1 ∧ deliveredCount (.fail 1 9) 1 = 1 ∧
    BitVec.ofNat 5 36 = quiet.cfg.cmd.drxdb ∧ (withPlan (.fail 0 9) quiet).bus.plan = .fail 0 9 := by decide

theorem test_hyp_FcClrirqClearsAllFlags : quiet.cfg.cmd = defaultCmd ∧ quiet.cfg.wf = true ∧ quiet.bus.plan = .ok ∧
    (withPlan (.fail 1 9) quiet).bus.plan = .fail 1 9 := by decide

theorem test_hyp_EveryInstructionIsOneTransaction :
    ends (exec .fcTx quiet) (fun t => decide (t.history.length = 2)) = true ∧ quiet.bus.plan = .ok ∧
    ends (exec (.wr .txBuffer [1]) (withPlan (.cut 2) quiet)) (fun t => decide (t.bus.ret = .abandoned)) = true := by
  decide +kernel

theorem test_hyp_TransportErrorEndsTheOperation :
    ends (step { atLine .init2 quiet with lifecycle := .uninitialized, turns := [.host (.fail 0 9)] })
      (fun t => decide (t.history = [.xact [.write [0x87]] [] [] (.error 9)])) = true ∧
    ends (step { atLine .recv3 quiet with turns := [.host (.fail 1 9)] })
      (fun t => decide (t.history = [.xact [.write [0x87]] [0x87] [] (.error 9)])) = true := by decide +kernel

theorem test_hyp_RadioEventsAreEnabledByTheMode :
    (eventTurn .rx (.rxGood 1023 (List.replicate 1021 0))).turns = [.radio (.rxGood 1023 (List.replicate 1021 0))] ∧
    admissible (.rxGood 1023 (List.replicate 1021 0)) = true ∧ admissible (.rxGood 1 []) = true ∧
    admissible .txDone = true := by decide +kernel

theorem test_hyp_FlagOnlyEvents :
    (eventTurn .tx .txDone).turns = [.radio .txDone] ∧ (eventTurn .tx .txDone).dev.trx = .tx ∧
    (eventTurn .rx .rxPreambleTimeout).dev.trx = .rx ∧ (eventTurn .unknown .rxSfdTimeout).dev.trx = .unknown := by decide

theorem test_hyp_RxGoodDeliversTheFrame :
    (eventTurn .rx (.rxGood 6 [1, 2, 3, 4])).turns = [.radio (.rxGood 6 [1, 2, 3, 4])] ∧
    ([1, 2, 3, 4] : List Byte).length = (6 : BitVec 10).toNat - 2 ∧ ([] : List Byte).length = (0 : BitVec 10).toNat - 2 ∧
    (List.replicate 1021 (0 : Byte)).length = (1023 : BitVec 10).toNat - 2 ∧
    (eventTurn .rx (.rxGood 6 [1, 2, 3, 4])).dev.trx = .rx := by decide +kernel

theorem test_hyp_RxErrorEvents :
    (eventTurn .rx .rxFcsError).turns = [.radio .rxFcsError] ∧ (eventTurn .rx .rxFcsError).dev.trx = .rx ∧
    (eventTurn .unknown .rxPhyHeaderError).dev.trx = .unknown ∧
    getFlag (withFlags [.rxfr] (eventTurn .rx .rxFcsError)).dev.flags .rxfr = true := by decide

theorem test_hyp_EventsNever :
    ends (step (withFlags [.rxfr] (eventTurn .rx .rxSfdTimeout))) (fun _ => true) = true ∧
    ends (step (eventTurn .idle .txDone)) (fun _ => true) = true ∧
    ends (step (eventTurn .tx .rxFcsError)) (fun _ => true) = true := by decide +kernel

theorem test_hyp_FlagsChangeInThreeWays :
    ends (step (eventTurn .tx .txDone)) (fun t => getFlag t.dev.flags .txfrs) = true ∧
    ends (step (withFlags [.txfrs] (atLine .send4Clear quiet))) (fun t => !getFlag t.dev.flags .txfrs) = true ∧
    ends (step (withFlags [.rxfce] (wireCall [0x9D]))) (fun t => !getFlag t.dev.flags .rxfce) = true := by decide +kernel

theorem test_hyp_TransceiverTransitions :
    quiet.cfg.wf = true ∧ quiet.bus.plan = .ok ∧
    ends (step (wireCall [0x83])) (fun t => decide (t.dev.trx ≠ .idle)) = true ∧
    ends (step (eventTurn .rx .rxFcsError))
      (fun t => decide (t.dev.trx ≠ .rx) && decide (t.history = [.radio .rxFcsError])) = true := by decide +kernel

theorem test_hyp_EveryStepKeepsTheInvariant : Inv (atLine .recv2 quiet) ∧ Inv (wireCall [0xE8, 0x00, 0x01]) ∧
    PowerupWaited (calling .uninitialized .init quiet) ∧ PowerupWaited { wireCall [0x87] with history := [.delay 5] } ∧
    ends (step { wireCall [0x87] with history := [.delay 5] }) (fun t => decide (t.history.length = 2)) = true ∧
    ends (step (atLine .recv2 quiet)) (fun _ => true) = true ∧
    ends (step (wireCall [0xE8, 0x00, 0x01])) (fun _ => true) = true := by decide +kernel

theorem test_hyp_InstrumentsOnlyGrow : ends (step (atLine .send5 quiet)) (fun _ => true) = true := by decide +kernel

theorem test_hyp_DiagnosticLogIsNeverRead :
    ends (step (atLine .send5 quiet)) (fun t => decide (t.diag = [.transmitFailure])) = true ∧
    refuses (step (wireCall [0x80])) .reservedFirstByte = true := by decide +kernel

theorem test_hyp_RunningOperationIsNeverRefused :
    let s : State := { quiet with
      lifecycle := .ready, pos := .send1,
      regs := { resetRegs with bound := sendPollBound, data := List.replicate 1024 0 } }
    Inv s ∧ s.cfg.wf = true ∧ s.pos ≠ .idle ∧ s.regs.data.length ≤ 1024 := by decide +kernel

theorem test_hyp_InitReachesReady :
    let s := calling .uninitialized .init quiet
    s.cfg.wf = true ∧ s.pos = .idle ∧ s.lifecycle = .uninitialized ∧ s.calls = [.init] ∧ s.turns = [] ∧ s.bus.plan = .ok ∧
      s.cfg.devIdValue ≠ 0x00000000 ∧ s.cfg.devIdValue ≠ 0xFFFFFFFF := by decide

theorem test_hyp_InitRejectsABrokenLink :
    let s := calling .uninitialized .init { quiet with cfg := { defaultConfig with devIdValue := 0xFFFFFFFF } }
    (s.cfg.wf = true ∧ s.pos = .idle ∧ s.lifecycle = .uninitialized ∧ s.calls = [.init] ∧ s.turns = [] ∧
      s.bus.plan = .ok ∧ s.cfg.devIdValue = 0xFFFFFFFF) ∧
    (atLine .init5 { quiet with regs := { resetRegs with id := 1 } }).pos = .init5 ∧
    (1 : BitVec 32) ≠ 0x00000000 ∧ (1 : BitVec 32) ≠ 0xFFFFFFFF := by decide

theorem test_hyp_SendProgramsTheFrame :
    let s := calling .ready (.send (List.replicate 1021 7)) quiet
    (s.cfg.wf = true ∧ s.pos = .idle ∧ s.lifecycle = .ready ∧ s.calls = [.send (List.replicate 1021 7)] ∧ s.turns = [] ∧
      s.bus.plan = .ok ∧ s.dev.trx = .idle) ∧
    (List.replicate 1024 (7 : Byte)).length ≤ 1024 ∧ (List.replicate 1021 (7 : Byte)).length ≤ 1021 ∧
    1024 < (List.replicate 1025 (7 : Byte)).length := by decide +kernel

theorem test_hyp_SendPollSeesTheFlag :
    let s := atLine .send4 quiet
    s.cfg.wf = true ∧ s.pos = .send4 ∧ s.regs.polls < s.regs.bound ∧ s.turns = [] ∧ s.bus.plan = .ok ∧
      getFlag s.dev.flags .txfrs = false ∧ getFlag (withFlags [.txfrs] s).dev.flags .txfrs = true := by decide

theorem test_hyp_SendTimesOut :
    let s := calling .ready (.send (List.replicate 1024 7)) (withTrx .unknown quiet)
    s.cfg.wf = true ∧ s.pos = .idle ∧ s.lifecycle = .ready ∧ s.calls = [.send (List.replicate 1024 7)] ∧ s.turns = [] ∧
      s.bus.plan = .ok ∧ (List.replicate 1024 (7 : Byte)).length ≤ 1024 ∧ getFlag s.dev.flags .txfrs = false := by
  decide +kernel

theorem test_hyp_RecvPollBranches :
    let s := atLine .recv2 quiet
    s.cfg.wf = true ∧ s.pos = .recv2 ∧ s.regs.polls < s.regs.bound ∧ s.turns = [] ∧ s.bus.plan = .ok := by decide

theorem test_hyp_RecvGoodPath :
    let s := withFlags [.rxfr, .rxfcg, .rxfce] (atLine .recv2 quiet)
    s.cfg.wf = true ∧ s.pos = .recv2 ∧ s.regs.polls < s.regs.bound ∧ s.turns = [] ∧ s.bus.plan = .ok ∧
      getFlag s.dev.flags .rxfcg = true ∧
      min ((s.dev.rxFinfo.extractLsb' 0 10).toNat - 2) s.regs.outBuffer.length = 4 := by decide

theorem test_hyp_RecvErrorPath :
    let s := withFlags [.rxfr, .rxphe] (atLine .recv2 { quiet with cfg := { defaultConfig with clearWrite := .constant } })
    s.cfg.wf = true ∧ s.pos = .recv2 ∧ s.regs.polls < s.regs.bound ∧ s.turns = [] ∧ s.bus.plan = .ok ∧
      getFlag s.dev.flags .rxfcg = false ∧ getFlag s.dev.flags .rxphe = true := by decide

theorem test_hyp_RecvTimesOut :
    let s : State := { atLine .recv2 quiet with regs := resetRegs }
    (s.cfg.wf = true ∧ s.pos = .recv2 ∧ s.regs.bound ≤ s.regs.polls ∧ s.turns = [] ∧ s.bus.plan = .ok) ∧
    ({ atLine .recv3 quiet with turns := [.host (.fail 0 9)] } : State).turns = [.host (.fail 0 9)] ∧
    let c := calling .ready (.recv [1, 2] 0) quiet
    (c.cfg.wf = true ∧ c.pos = .idle ∧ c.lifecycle = .ready ∧ c.calls = [.recv [1, 2] 0] ∧ c.turns = [] ∧
      c.bus.plan = .ok) ∧ (calling .ready (.recv [] 5) (withTrx .rx quiet)).calls = [.recv [] 5] := by decide

theorem test_hyp_ForceIdleIssuesOneIdle :
    let s := calling .ready .forceIdle (withTrx .unknown quiet)
    (s.cfg.wf = true ∧ s.pos = .idle ∧ s.lifecycle = .ready ∧ s.calls = [.forceIdle] ∧ s.turns = [] ∧
      s.bus.plan = .ok) ∧
    ({ atLine .forceIdle1 quiet with turns := [.host (.fail 1 9)] } : State).pos = .forceIdle1 := by decide

theorem test_hyp_LifecycleGuardsTheOperations :
    let s := calling .consumed .newHandle quiet
    (s.pos = .idle ∧ s.calls = [.newHandle] ∧ s.turns = [] ∧ s.lifecycle = .consumed) ∧
    (calling .uninitialized .init quiet).lifecycle = .uninitialized ∧
    (calling .consumed (.wire [.write [0x87]]) quiet).lifecycle ≠ .ready ∧
    (calling .uninitialized .newHandle quiet).lifecycle ≠ .consumed ∧
    (calling .uninitialized (.instr .fcIdle) quiet).lifecycle ≠ .ready ∧ Call.newHandle ≠ .init ∧
    (calling .ready (.send []) quiet).lifecycle = .ready ∧ (calling .ready .init quiet).lifecycle ≠ .uninitialized ∧
    Inv { atLine .init8 quiet with lifecycle := .uninitialized } ∧
    ends (step { atLine .init8 quiet with lifecycle := .uninitialized }) (fun t => decide (t.lifecycle = .ready)) = true := by
  decide +kernel

theorem test_hyp_AbandonedOperationStops :
    ({ atLine .send4 quiet with turns := [.abandon] } : State).turns = [.abandon] ∧ (atLine .send4 quiet).pos ≠ .idle ∧
    ends (step { atLine .send3 quiet with turns := [.host (.cut 1)] }) (fun t => decide (t.history =
      [.xact [.write [0x83]] [0x83] [] .abandoned, .airTx [0xAA, 0xBB, 0xCC]])) = true := by decide +kernel

end Sys2Proof.Tests
end

section
/-! SUPPORT. The step by whose turn it is, and HOST's move by what it has to do: one equation per branch. -/

namespace Sys2Proof.Machine

theorem step_unscheduled {s : State} (ht : s.turns = []) : step s = hostMove s := by
  simp only [step, agentMove, ht]

theorem step_host {s : State} {p : Plan} {ts : List Turn} (ht : s.turns = .host p :: ts) :
    step s = hostMove { s with turns := ts, bus := { s.bus with plan := p } } := by
  simp only [step, agentMove, ht]

theorem step_radio {s : State} {ev : RadioEvent} {ts : List Turn} (ht : s.turns = .radio ev :: ts) :
    step s = .next (radioMove ev { s with turns := ts }) := by
  simp only [step, agentMove, ht]

theorem step_abandon_idle {s : State} {ts : List Turn} (ht : s.turns = .abandon :: ts) (hp : s.pos = .idle) :
    step s = .next { s with turns := ts } := by
  simp only [step, agentMove, ht, if_pos hp]

theorem step_abandon_running {s : State} {ts : List Turn} (ht : s.turns = .abandon :: ts) (hp : s.pos ≠ .idle) :
    step s = .next (dropOperation { s with turns := ts }) := by
  simp only [step, agentMove, ht, if_neg hp]

theorem hostMove_wait {s : State} (hp : s.pos = .idle) (hc : s.calls = []) : hostMove s = .next s := by
  simp only [hostMove, hp, hc]

theorem hostMove_call {s : State} {c : Call} {cs : List Call} (hp : s.pos = .idle) (hc : s.calls = c :: cs) :
    hostMove s = takeCall c { s with calls := cs } := by
  simp only [hostMove, hp, hc]

theorem hostMove_line {s : State} (hp : s.pos ≠ .idle) : hostMove s = runLine s := by
  unfold hostMove
  split
  · rename_i h
    exact absurd h hp
  · rfl

end Sys2Proof.Machine
end

section
/-! SUPPORT. O40 and O41: what a step does to the device, and why: a transaction whose record shows the bytes that
explain the effect, or an event that RADIO took. -/

namespace Sys2Proof.Machine

/-! ### The device across a step -/

/-- A commit emits nothing but the frame of an `FC.TX` (R153). -/
theorem DeviceEffect.emits_airTx {cfg : Config} {sent : List Byte} {d d' : Device} {hist : List HistEvent}
    (h : DeviceEffect cfg sent d d' hist) : ∀ e ∈ hist, ∃ frame, e = .airTx frame := by
  rcases h with ⟨-, rfl⟩ | ⟨_, _, _, _, _, _, rfl⟩ | ⟨code, -, hc⟩
  · simp
  · simp
  · rcases command_cases _ _ _ _ _ hc with
      ⟨_, _, _, _, rfl⟩ | ⟨_, _, _, rfl⟩ | ⟨_, _, rfl⟩ | ⟨_, _, rfl⟩ | ⟨_, _, rfl⟩ <;> simp

/-- A transaction's effect on the device is explained by the bytes its record shows. -/
theorem DidTransaction.sentBetween {s t : State} (h : DidTransaction s t) :
    ∃ sent hist, DeviceEffect s.cfg sent s.dev t.dev hist ∧ SentBetween s t sent := by
  obtain ⟨ops, sent, bytes, ret, hist, heff, hh, -⟩ := h
  exact ⟨sent, hist, heff, ops, bytes, ret, hist, _, hh, .inl rfl, heff.emits_airTx⟩

/-- An event is taken and recorded where it is enabled and fits; else nothing happens (R202). -/
theorem radioMove_cases (ev : RadioEvent) (s : State) :
    (enabled s.dev.trx ev = true ∧ radioMove ev s = applyEvent ev { s with history := s.history ++ [.radio ev] }) ∨
      radioMove ev s = s := by
  unfold radioMove
  split
  · rename_i he
    exact .inl ⟨(Bool.and_eq_true_iff.mp he).1, rfl⟩
  · exact .inr rfl

/-- Every way a step leaves the device: as it was, with the effect of one recorded transaction, or with that of an event
enabled by the mode. -/
theorem step_device_cases {s t : State} (h : step s = .next t) :
    t.dev = s.dev ∨
    (∃ sent hist, DeviceEffect s.cfg sent s.dev t.dev hist ∧ SentBetween s t sent) ∨
    ∃ ev ts u, s.turns = .radio ev :: ts ∧ enabled s.dev.trx ev = true ∧ u.dev = s.dev ∧
      t.dev = (applyEvent ev u).dev := by
  have host : ∀ u : State, u.cfg = s.cfg → u.dev = s.dev → u.history = s.history → HostEffect u t →
      t.dev = s.dev ∨ ∃ sent hist, DeviceEffect s.cfg sent s.dev t.dev hist ∧ SentBetween s t sent := by
    rintro u hc hd hh ⟨-, -, hx | ⟨hdev, -⟩⟩
    · obtain ⟨sent, hist, heff, ops, got, ret, h', added, ht, hrec⟩ := hx.sentBetween
      exact .inr ⟨sent, hist, hc ▸ hd ▸ heff, ops, got, ret, h', added, hh ▸ ht, hrec⟩
    · exact .inl (hdev.trans hd)
  rcases step_inv s t h with ⟨-, hu⟩ | ⟨p, ts, -, hu⟩ | ⟨ev, ts, hts, rfl⟩ | ⟨ts, -, rfl⟩
  · exact (host s rfl rfl rfl hu).imp_right .inl
  · exact (host { s with turns := ts, bus := { s.bus with plan := p } } rfl rfl rfl hu).imp_right .inl
  · rcases radioMove_cases ev { s with turns := ts } with ⟨hen, he⟩ | he
    · exact .inr (.inr ⟨ev, ts, { s with turns := ts, history := s.history ++ [.radio ev] }, hts, hen, rfl,
        congrArg State.dev he⟩)
    · exact .inl (by rw [he])
  · exact .inl (by split <;> rfl)

/-! ### Flags across a step -/

@[simp] theorem drawRxfr_dev_flags (s : State) :
    (drawRxfr s).dev.flags = if (drawWord s).getLsbD 0 then setFlag s.dev.flags .rxfr else s.dev.flags := rfl
@[simp] theorem drawRxfr_dev_trx (s : State) : (drawRxfr s).dev.trx = s.dev.trx := rfl
@[simp] theorem deliverFrame_dev_flags (len : BitVec 10) (bytes : List Byte) (s : State) :
    (deliverFrame len bytes s).dev.flags = s.dev.flags := rfl
@[simp] theorem deliverFrame_dev_trx (len : BitVec 10) (bytes : List Byte) (s : State) :
    (deliverFrame len bytes s).dev.trx = s.dev.trx := rfl

/-- No event clears a flag (R175). -/
theorem getFlag_applyEvent_of_set (ev : RadioEvent) (s : State) (f : Flag) (h : getFlag s.dev.flags f = true) :
    getFlag (applyEvent ev s).dev.flags f = true := by
  cases ev with
  | rxFcsError =>
    simp only [applyEvent, raiseFlag_dev, drawRxfr_dev_flags, scrambleRx_dev, getFlag_setFlag]
    split <;> simp [getFlag_setFlag, h]
  | txDone | rxGood | rxPhyHeaderError | rxPreambleTimeout | rxSfdTimeout => simp [applyEvent, getFlag_setFlag, h]

/-- An event sets no flag but its own (R175, the table of R25). -/
theorem raises_of_getFlag_applyEvent (ev : RadioEvent) (s : State) (f : Flag) (h0 : getFlag s.dev.flags f = false)
    (h1 : getFlag (applyEvent ev s).dev.flags f = true) : raises ev f = true := by
  cases ev with
  | rxFcsError =>
    simp only [applyEvent, raiseFlag_dev, drawRxfr_dev_flags, scrambleRx_dev, getFlag_setFlag] at h1
    split at h1
    · simpa [getFlag_setFlag, h0, raises, or_comm] using h1
    · have hf : f = .rxfce := by simpa [h0] using h1
      simp [raises, hf]
  | txDone | rxGood | rxPhyHeaderError | rxPreambleTimeout | rxSfdTimeout =>
    simpa [applyEvent, getFlag_setFlag, h0, raises] using h1

/-- A write changes the flags only where it is one of `SYS_STATUS`, and then clears those sent a 1 (R131, R172). -/
theorem getFlag_commitWrite (cfg : Config) (r : Reg) (data : List Byte) (d : Device) (f : Flag) :
    getFlag (commitWrite cfg r data d).flags f =
      (getFlag d.flags f && !(decide (r = .sysStatus) && bitAtFlag cfg data f)) := by
  cases r with
  | sysStatus => simp [commitWrite, getFlag_clearFlags, unle32_bitAtFlag]
  | devId | eui64 | sysCfg | txFctrl | rxFinfo | txBuffer | rxBuffer => simp [commitWrite]

/-- No transaction raises a flag (R26). -/
theorem DeviceEffect.flag_not_raised {cfg : Config} {sent : List Byte} {d d' : Device} {hist : List HistEvent}
    (h : DeviceEffect cfg sent d d' hist) (f : Flag) (h0 : getFlag d.flags f = false) : getFlag d'.flags f = false := by
  rcases h with ⟨rfl, -⟩ | ⟨r, data, -, -, -, rfl, -⟩ | ⟨code, -, hc⟩
  · exact h0
  · simp [getFlag_commitWrite, h0]
  · rcases command_cases _ _ _ _ _ hc with
      ⟨_, _, _, rfl, _⟩ | ⟨_, _, rfl, _⟩ | ⟨_, rfl, _⟩ | ⟨_, rfl, _⟩ | ⟨_, rfl, _⟩
    · exact h0
    · exact h0
    · exact h0
    · exact h0
    · exact getFlag_noFlags f

/-- A transaction that cleared a flag carried `FC.CLRIRQ`, or a write of `SYS_STATUS` with a 1 for it (R26). -/
theorem DeviceEffect.flag_cleared {cfg : Config} {sent : List Byte} {d d' : Device} {hist : List HistEvent}
    (h : DeviceEffect cfg sent d d' hist) (f : Flag) (h1 : getFlag d.flags f = true) (h0 : getFlag d'.flags f = false) :
    sent = [fcByte cfg.cmd.clrirq.toNat] ∨
      ∃ data, sent = regHeader cfg .sysStatus true ++ data ∧ bitAtFlag cfg data f = true := by
  have unchanged : d'.flags ≠ d.flags := fun he => by rw [he, h1] at h0; cases h0
  rcases h with ⟨rfl, -⟩ | ⟨r, data, -, -, hsent, rfl, -⟩ | ⟨code, hsent, hc⟩
  · exact absurd rfl unchanged
  · simp only [getFlag_commitWrite, h1, Bool.true_and, Bool.not_eq_false', Bool.and_eq_true, decide_eq_true_eq] at h0
    obtain ⟨rfl, hbit⟩ := h0
    exact .inr ⟨data, hsent, hbit⟩
  · rcases command_cases _ _ _ _ _ hc with
      ⟨_, _, _, rfl, _⟩ | ⟨_, _, rfl, _⟩ | ⟨_, rfl, _⟩ | ⟨_, rfl, _⟩ | ⟨rfl, _⟩
    · exact absurd rfl unchanged
    · exact absurd rfl unchanged
    · exact absurd rfl unchanged
    · exact absurd rfl unchanged
    · exact .inl hsent

/-- Settles O40: of the ways a step changes the device, an event only raises flags, a transaction only clears them. -/
theorem flagsChangeInThreeWays : Obligations.FlagsChangeInThreeWays := by
  intro s t f hstep
  rcases step_device_cases hstep with hd | ⟨sent, hist, heff, hsent⟩ | ⟨ev, ts, u, hts, -, hu, hd⟩
  · rw [hd]
    exact ⟨fun h0 h1 => by simp [h0] at h1, fun h1 h0 => by simp [h0] at h1⟩
  · refine ⟨fun h0 h1 => ?_, fun h1 h0 => ?_⟩
    · rw [heff.flag_not_raised f h0] at h1
      cases h1
    · rcases heff.flag_cleared f h1 h0 with rfl | ⟨data, rfl, hbit⟩
      · exact .inl hsent
      · exact .inr ⟨data, hsent, hbit⟩
  · rw [hd, ← hu]
    refine ⟨fun h0 h1 => ⟨ev, ts, hts, raises_of_getFlag_applyEvent ev u f h0 h1⟩, fun h1 h0 => ?_⟩
    rw [getFlag_applyEvent_of_set ev u f h1] at h0
    cases h0

/-! ### The transceiver mode across a step -/

/-- An event ends the activity, but for the unknown mode, which only `FC.IDLE` leaves (R203 to R208). -/
theorem applyEvent_trx (ev : RadioEvent) (s : State) :
    (applyEvent ev s).dev.trx = if s.dev.trx = .unknown then .unknown else .idle := by
  have once : ∀ m, trxAfterEvent m = if m = .unknown then .unknown else .idle := by intro m; cases m <;> rfl
  have twice : ∀ m, trxAfterEvent (trxAfterEvent m) = trxAfterEvent m := by intro m; cases m <;> rfl
  cases ev with
  | rxGood => simpa [applyEvent, twice] using once _
  | txDone | rxFcsError | rxPhyHeaderError | rxPreambleTimeout | rxSfdTimeout => simpa [applyEvent] using once _

/-- An event outside the unknown mode is the end of a transmission, or one of a reception (R202). -/
theorem enabled_known {m : Trx} {ev : RadioEvent} (h : enabled m ev = true) (hm : m ≠ .unknown) :
    m = .tx ∧ ev = .txDone ∨ m = .rx ∧ ev ≠ .txDone := by
  cases ev <;> cases m <;> simp_all [enabled]

@[simp] theorem commitWrite_trx (cfg : Config) (r : Reg) (data : List Byte) (d : Device) :
    (commitWrite cfg r data d).trx = d.trx := by
  cases r <;> rfl

/-- The causes of the table of R45 that are commands, with the bytes sent. -/
theorem DeviceEffect.trx_changed {cfg : Config} {sent : List Byte} {d d' : Device} {hist : List HistEvent}
    (h : DeviceEffect cfg sent d d' hist) (hne : d'.trx ≠ d.trx) :
    (d'.trx = .idle ∧ sent = [fcByte cfg.cmd.idle.toNat]) ∨
    (d'.trx = .tx ∧ d.trx = .idle ∧ sent = [fcByte cfg.cmd.tx.toNat] ∧ 2 ≤ (frameLength d.txFctrl).toNat) ∨
    (d'.trx = .rx ∧ d.trx = .idle ∧ sent = [fcByte cfg.cmd.rx.toNat]) ∨
    (d'.trx = .unknown ∧
      (sent = [fcByte cfg.cmd.tx.toNat] ∧ (d.trx ≠ .idle ∨ (frameLength d.txFctrl).toNat < 2) ∨
        sent = [fcByte cfg.cmd.rx.toNat] ∧ d.trx ≠ .idle)) := by
  rcases h with ⟨rfl, -⟩ | ⟨r, data, -, -, -, rfl, -⟩ | ⟨code, hsent, hc⟩
  · exact absurd rfl hne
  · exact absurd (commitWrite_trx cfg r data d) hne
  · rcases command_cases _ _ _ _ _ hc with
      ⟨rfl, hidle, hlen, rfl, _⟩ | ⟨rfl, hout, rfl, _⟩ | ⟨rfl, rfl, _⟩ | ⟨rfl, rfl, _⟩ | ⟨_, rfl, _⟩
    · exact .inr (.inl ⟨rfl, hidle, hsent, hlen⟩)
    · exact .inr (.inr (.inr ⟨rfl, .inl ⟨hsent, hout⟩⟩))
    · by_cases hidle : d.trx = .idle
      · exact .inr (.inr (.inl ⟨if_pos hidle, hidle, hsent⟩))
      · exact .inr (.inr (.inr ⟨if_neg hidle, .inr ⟨hsent, hidle⟩⟩))
    · exact .inl ⟨rfl, hsent⟩
    · exact absurd rfl hne

/-- `FC.TX` from any mode (R153). -/
theorem commandTx_trx (d : Device) :
    (commandTx d).1.trx = if d.trx = .idle ∧ 2 ≤ (frameLength d.txFctrl).toNat then .tx else .unknown := by
  unfold commandTx
  split <;> rename_i hm
  · by_cases hl : 2 ≤ (frameLength d.txFctrl).toNat <;> simp [hm, hl]
  all_goals simp [hm]

/-- `FC.RX` from any mode (R154). -/
theorem commandRx_trx (d : Device) : (commandRx d).1.trx = if d.trx = .idle then .rx else .unknown := by
  unfold commandRx
  split <;> rename_i hm <;> simp [hm]

/-- A named command that is carried whole leaves the device as its commit does (R150). -/
theorem issue_ok_dev (code : BitVec 5) (s : State) (hplan : s.bus.plan = .ok) (out : Device × List HistEvent)
    (hc : command s.cfg code s.dev = .next out) : ∃ t, issue code.toNat s = .next t ∧ t.dev = out.1 := by
  obtain ⟨dec, h⟩ := issue_ok code.toNat s hplan out.1 out.2 (by rwa [ofNat_code])
  exact ⟨_, h, rfl⟩

/-- The commands of the table of R45 have their effect from every mode. -/
theorem commands_set_trx (s : State) (hwf : s.cfg.wf = true) (hplan : s.bus.plan = .ok) :
    (∃ t, exec .fcIdle s = .next t ∧ t.dev.trx = .idle) ∧
    (∃ t, exec .fcTx s = .next t ∧
      t.dev.trx = if s.dev.trx = .idle ∧ 2 ≤ (frameLength s.dev.txFctrl).toNat then .tx else .unknown) ∧
    ∃ t, exec .fcRx s = .next t ∧ t.dev.trx = if s.dev.trx = .idle then .rx else .unknown := by
  obtain ⟨htx, hrx, hidle, -, -⟩ := command_named s.cfg hwf s.dev
  obtain ⟨t₁, h₁, d₁⟩ := issue_ok_dev _ s hplan _ hidle
  obtain ⟨t₂, h₂, d₂⟩ := issue_ok_dev _ s hplan _ htx
  obtain ⟨t₃, h₃, d₃⟩ := issue_ok_dev _ s hplan _ hrx
  exact ⟨⟨t₁, h₁, by rw [d₁]; rfl⟩, ⟨t₂, h₂, by rw [d₂, commandTx_trx]⟩, ⟨t₃, h₃, by rw [d₃, commandRx_trx]⟩⟩

/-- An event that was taken, which the history tells, has its effect on the mode (R203 to R208). -/
theorem recorded_event_trx {s t : State} {ev : RadioEvent} {ts : List Turn} (hts : s.turns = .radio ev :: ts)
    (hstep : step s = .next t) (hh : t.history = s.history ++ [.radio ev]) :
    t.dev.trx = if s.dev.trx = .unknown then .unknown else .idle := by
  obtain rfl : radioMove ev { s with turns := ts } = t :=
    Host.Outcome.next.inj ((step_radio hts).symm.trans hstep)
  rcases radioMove_cases ev { s with turns := ts } with ⟨-, he⟩ | he
  · rw [he, applyEvent_trx]
  · simp [he] at hh

/-- Settles O41: of the ways a step changes the device, each that changes the mode is a row of the table. -/
theorem transceiverTransitions : Obligations.TransceiverTransitions := by
  refine ⟨rfl, commands_set_trx, fun s t ev ts => recorded_event_trx, fun s t hstep hne => ?_⟩
  rcases step_device_cases hstep with hd | ⟨sent, hist, heff, hsent⟩ | ⟨ev, ts, u, hts, hen, hu, hd⟩
  · exact absurd (congrArg Device.trx hd) hne
  · rcases heff.trx_changed hne with ⟨h, rfl⟩ | ⟨h, hidle, rfl, hlen⟩ | ⟨h, hidle, rfl⟩ |
      ⟨h, ⟨rfl, hout⟩ | ⟨rfl, hout⟩⟩
    · exact .inl ⟨h, hsent⟩
    · exact .inr (.inl ⟨h, hidle, hsent, hlen⟩)
    · exact .inr (.inr (.inl ⟨h, hidle, hsent⟩))
    · exact .inr (.inr (.inr (.inl ⟨h, .inl ⟨hsent, hout⟩⟩)))
    · exact .inr (.inr (.inr (.inl ⟨h, .inr ⟨hsent, hout⟩⟩)))
  · rw [hd, applyEvent_trx, hu] at hne ⊢
    have hknown : s.dev.trx ≠ .unknown := fun hm => hne (by rw [if_pos hm, hm])
    exact .inr (.inr (.inr (.inr ⟨if_neg hknown, ev, ts, hts, enabled_known hen hknown⟩)))

end Sys2Proof.Machine
end

section
/-! SUPPORT. O46: nothing reads the diagnostic log (R44). Each part of a step commutes with putting another log in the
place of the one the state has; two lines add a message, the same whatever log stands there. -/

namespace Sys2Proof.Machine

open Host (Outcome)

/-- `s` with the log `d` in the place of its own. -/
def withDiag (d : List Diag) (s : State) : State := { s with diag := d }

@[simp] theorem withDiag_cfg (d : List Diag) (s : State) : (withDiag d s).cfg = s.cfg := rfl
@[simp] theorem withDiag_lifecycle (d : List Diag) (s : State) : (withDiag d s).lifecycle = s.lifecycle := rfl
@[simp] theorem withDiag_regs (d : List Diag) (s : State) : (withDiag d s).regs = s.regs := rfl
@[simp] theorem withDiag_bus (d : List Diag) (s : State) : (withDiag d s).bus = s.bus := rfl
@[simp] theorem withDiag_dec (d : List Diag) (s : State) : (withDiag d s).dec = s.dec := rfl

/-- An outcome whose next state, if any, is changed by `g`. -/
def mapNext (g : State → State) : Outcome State Fault Refusal → Outcome State Fault Refusal
  | .next t => .next (g t)
  | .fault r => .fault r
  | .refused r => .refused r

/-- `f` neither reads nor writes the log. -/
def IgnoresLog (f : State → Outcome State Fault Refusal) : Prop :=
  ∀ d s, f (withDiag d s) = mapNext (withDiag d) (f s)

/-- What `f` does on `s` it does with any log, adding the same messages at its end. -/
def OnlyAppends (f : State → Outcome State Fault Refusal) (s : State) : Prop :=
  ∃ more, ∀ d, f (withDiag d s) = mapNext (withDiag (d ++ more)) (f s)

theorem IgnoresLog.onlyAppends {f : State → Outcome State Fault Refusal} (h : IgnoresLog f) (s : State) :
    OnlyAppends f s :=
  ⟨[], fun d => by rw [List.append_nil]; exact h d s⟩

theorem OnlyAppends.congr {f g : State → Outcome State Fault Refusal} {s u : State} (h : OnlyAppends g u)
    (hd : ∀ d, f (withDiag d s) = g (withDiag d u)) (hs : f s = g u) : OnlyAppends f s := by
  obtain ⟨more, h⟩ := h
  exact ⟨more, fun d => by rw [hd, hs, h]⟩

/-! ### One transaction -/

theorem sample_withDiag (r : Reg) (d : List Diag) (s : State) : sample r (withDiag d s) = withDiag d (sample r s) := by
  cases r <;> rfl

theorem enterData_withDiag (d : List Diag) (s : State) : enterData (withDiag d s) = withDiag d (enterData s) := by
  simp only [enterData, withDiag_dec]
  split
  · exact sample_withDiag _ d s
  · rfl

theorem deviceSlot_withDiag (x : Slot) (d : List Diag) (s : State) :
    deviceSlot x (withDiag d s) = (withDiag d (deviceSlot x s).1, (deviceSlot x s).2) := by
  unfold deviceSlot
  cases hp : s.dec.phase with
  | hdr1 => simpa [withDiag, hp] using enterData_withDiag d { s with dec := slot1 s.cfg s.dec x }
  | data => cases hr : s.dec.reg <;> simp [withDiag, hp, hr]
  | idle | hdr0 | fast | reject => simp [withDiag, hp]

theorem deliverSlot_withDiag (x : Slot) (d : List Diag) (s : State) :
    deliverSlot x (withDiag d s) = (withDiag d (deliverSlot x s).1, (deliverSlot x s).2) := by
  simp only [deliverSlot, deviceSlot_withDiag]
  rfl

theorem deliverSlots_withDiag (xs : List Slot) (d : List Diag) (s : State) :
    deliverSlots xs (withDiag d s) = (withDiag d (deliverSlots xs s).1, (deliverSlots xs s).2) := by
  induction xs generalizing s with
  | nil => rfl
  | cons x xs ih => simp only [deliverSlots, deliverSlot_withDiag, ih]

theorem receive_withDiag (ops : List SubOp) (got : List Byte) (d : List Diag) (s : State) :
    receive ops got (withDiag d s) = withDiag d (receive ops got s) := by
  cases hp : s.bus.plan <;> simp [receive, withDiag, hp]

theorem commitCommand_ignoresLog : IgnoresLog commitCommand := by
  intro d s
  cases h : command s.cfg s.dec.code s.dev <;> simp [commitCommand, withDiag, mapNext, h]

theorem endOfTransaction_ignoresLog : IgnoresLog endOfTransaction := by
  intro d s
  unfold endOfTransaction
  cases hp : s.dec.phase with
  | data => cases hw : s.dec.wr <;> cases hr : s.dec.reg <;> simp [withDiag, mapNext, hp, hw, hr]
  | fast => simpa [withDiag, hp] using commitCommand_ignoresLog d s
  | idle | hdr0 | hdr1 | reject => simp [withDiag, mapNext, hp]

theorem csHigh_ignoresLog : IgnoresLog csHigh := by
  intro d s
  simp only [csHigh, endOfTransaction_ignoresLog d s]
  cases endOfTransaction s <;> rfl

theorem settle_withDiag (d : List Diag) (s : State) : settle (withDiag d s) = withDiag d (settle s) := by
  cases h : s.bus.ret with
  | ok => simp [settle, h]
  | error e => simp only [settle, withDiag_bus, h]; rfl
  | abandoned => simp only [settle, withDiag_bus, h]; rfl

theorem transact_ignoresLog (ops : List SubOp) : IgnoresLog (transact ops) := by
  intro d s
  have hx : xact ops (withDiag d s) = mapNext (withDiag d) (xact ops s) := by
    have hlow : csLow ops (withDiag d s) = withDiag d (csLow ops s) := rfl
    simp only [xact, hlow, deliverSlots_withDiag, receive_withDiag, csHigh_ignoresLog d _]
    rfl
  simp only [transact, hx]
  cases xact ops s with
  | next t => exact congrArg Outcome.next (settle_withDiag d t)
  | fault r => rfl
  | refused r => rfl

theorem assembleValue_withDiag (d : List Diag) (s : State) :
    assembleValue (withDiag d s) = withDiag d (assembleValue s) := by
  cases hr : s.bus.ret <;> simp [assembleValue, withDiag, hr]

/-- No instruction reads the log or writes to it. -/
theorem exec_ignoresLog (i : Instr) : IgnoresLog (exec i) := by
  have hrd : ∀ r n, IgnoresLog (execRd r n) := fun r n d s => transact_ignoresLog _ d (loadHeader r false s)
  have hwr : ∀ r data, IgnoresLog (execWr r data) := fun r data d s => transact_ignoresLog _ d (loadHeader r true s)
  have hfc : ∀ code, IgnoresLog (issue code) := fun code d s =>
    transact_ignoresLog _ d { s with regs := { s.regs with cmd := fcByte code } }
  cases i with
  | rd r n => exact hrd r n
  | wr r data => exact hwr r data
  | wru32 r v => exact hwr r (le32 v)
  | rdu32 r =>
    intro d s
    simp only [exec, execRdu32, hrd r 4 d s]
    cases execRd r 4 s with
    | next t => exact congrArg Outcome.next (assembleValue_withDiag d t)
    | fault r => rfl
    | refused r => rfl
  | fc code => exact hfc code
  | fcTx => exact fun d s => hfc s.cfg.cmd.tx.toNat d s
  | fcRx => exact fun d s => hfc s.cfg.cmd.rx.toNat d s
  | fcIdle => exact fun d s => hfc s.cfg.cmd.idle.toNat d s
  | fcDrxdb => exact fun d s => hfc s.cfg.cmd.drxdb.toNat d s
  | fcClrirq => exact fun d s => hfc s.cfg.cmd.clrirq.toNat d s
  | reservedFaMode1 | reservedFaMode2 | reservedFaMode3 | reservedB000 | reservedB010x0 | reservedFcUnassigned =>
    exact fun _ _ => rfl

/-! ### One line of an operation -/

/-- `k` does the same whatever the log holds, and leaves the log alone: how a line goes on after its transaction. -/
def KeepsLog (k : State → State) : Prop := ∀ d s, k (withDiag d s) = withDiag d (k s)

/-- What a line does once its transaction has succeeded. -/
theorem afterXact_withDiag (o : Outcome State Fault Refusal) {k : State → State} (hk : KeepsLog k) (d : List Diag) :
    afterXact (mapNext (withDiag d) o) k = mapNext (withDiag d) (afterXact o k) := by
  cases o with
  | next t => cases hr : t.bus.ret <;> simp [afterXact, mapNext, hr, hk d t]
  | fault r => rfl
  | refused r => rfl

/-- A line that issues an instruction. -/
theorem afterExec_ignoresLog (i : Instr) {k : State → State} (hk : KeepsLog k) :
    IgnoresLog fun s => afterXact (exec i s) k := by
  intro d s
  simp only [exec_ignoresLog i d s, afterXact_withDiag _ hk d]

theorem poll_ignoresLog {k : State → State} (hk : KeepsLog k) : IgnoresLog fun s => poll s k := fun d s =>
  afterExec_ignoresLog (.rdu32 .sysStatus) (k := fun t => k { t with regs := { t.regs with s := t.regs.rval } })
    (fun e t => hk e { t with regs := { t.regs with s := t.regs.rval } }) d
    { s with regs := { s.regs with polls := s.regs.polls + 1 } }

theorem init5_ignoresLog : IgnoresLog init5 := by
  intro d s
  simp only [init5, apply_ite (mapNext (withDiag d))]
  rfl

theorem send2_ignoresLog : IgnoresLog send2 := fun d s =>
  afterExec_ignoresLog (.wru32 .txFctrl ((txLength s.regs.data.length).setWidth 32)) (k := goTo .send3)
    (fun _ _ => rfl) d
    { s with regs := { s.regs with len := txLength s.regs.data.length } }

/-- Where `send` goes on after a poll (R233). -/
theorem send4Branch_keepsLog :
    KeepsLog fun t => if testFlag t.cfg t.regs.s .txfrs then goTo .send4Clear t else goTo .send4 t := by
  intro d t
  simp only [apply_ite (withDiag d)]
  rfl

theorem send4_ignoresLog : IgnoresLog send4 := by
  intro d s
  simp only [send4, apply_ite (mapNext (withDiag d)), ← poll_ignoresLog send4Branch_keepsLog d s]
  rfl

theorem recvBranch_keepsLog : KeepsLog recvBranch := by
  intro d t
  simp only [recvBranch, apply_ite (withDiag d)]
  rfl

theorem recv2_ignoresLog : IgnoresLog recv2 := by
  intro d s
  simp only [recv2, apply_ite (mapNext (withDiag d)), ← poll_ignoresLog recvBranch_keepsLog d s]
  rfl

theorem recv2Data_ignoresLog : IgnoresLog recv2Data := by
  intro d s
  have hrd : execRd .rxBuffer s.regs.n (withDiag d s) = mapNext (withDiag d) (execRd .rxBuffer s.regs.n s) :=
    exec_ignoresLog (.rd .rxBuffer s.regs.n) d s
  simp only [recv2Data, withDiag_regs, hrd]
  cases execRd .rxBuffer s.regs.n s with
  | next t => exact afterXact_withDiag (.next (fillOutBuffer t)) (k := goTo .recv2Clear) (fun _ _ => rfl) d
  | fault r => rfl
  | refused r => rfl

/-- Every line of every operation; line 7 of `init` and step 5 of `send` add their message (R253). -/
theorem runLine_onlyAppends (s : State) : OnlyAppends runLine s := by
  suffices h : ∀ p, OnlyAppends runLine { s with pos := p } from h s.pos
  intro p
  cases p with
  | idle => exact IgnoresLog.onlyAppends (f := .next) (fun _ _ => rfl) _
  | init1 => exact IgnoresLog.onlyAppends (f := init1) (fun _ _ => rfl) _
  | init2 => exact (afterExec_ignoresLog .fcIdle fun _ _ => rfl).onlyAppends _
  | init3 => exact IgnoresLog.onlyAppends (f := init3) (fun _ _ => rfl) _
  | init4 => exact (afterExec_ignoresLog (.rdu32 .devId) fun _ _ => rfl).onlyAppends _
  | init5 => exact init5_ignoresLog.onlyAppends _
  | init6 => exact (afterExec_ignoresLog .fcClrirq fun _ _ => rfl).onlyAppends _
  | init7 => exact ⟨[.deviceIdentity s.regs.id], fun _ => rfl⟩
  | init8 => exact IgnoresLog.onlyAppends (f := init8) (fun _ _ => rfl) _
  | send1 => exact (afterExec_ignoresLog (.wr .txBuffer s.regs.data) fun _ _ => rfl).onlyAppends _
  | send2 => exact send2_ignoresLog.onlyAppends _
  | send3 => exact (afterExec_ignoresLog .fcTx fun _ _ => rfl).onlyAppends _
  | send4 => exact send4_ignoresLog.onlyAppends _
  | send4Clear => exact (afterExec_ignoresLog (.wru32 .sysStatus (flagMask s.cfg .txfrs)) fun _ _ => rfl).onlyAppends _
  | send5 => exact ⟨[.transmitFailure], fun _ => rfl⟩
  | recv1 => exact (afterExec_ignoresLog .fcRx fun _ _ => rfl).onlyAppends _
  | recv2 => exact recv2_ignoresLog.onlyAppends _
  | recv2Info => exact (afterExec_ignoresLog (.rdu32 .rxFinfo) fun _ _ => rfl).onlyAppends _
  | recv2Data => exact recv2Data_ignoresLog.onlyAppends _
  | recv2Clear =>
    exact (afterExec_ignoresLog (.wru32 .sysStatus (clearValue s.cfg s.regs.s (goodMask s.cfg)))
      fun _ _ => rfl).onlyAppends _
  | recv2ErrClear =>
    exact (afterExec_ignoresLog (.wru32 .sysStatus (clearValue s.cfg s.regs.s (errorMask s.cfg)))
      fun _ _ => rfl).onlyAppends _
  | recv2Enable => exact (afterExec_ignoresLog .fcRx fun _ _ => rfl).onlyAppends _
  | recv3 => exact (afterExec_ignoresLog .fcIdle fun _ _ => rfl).onlyAppends _
  | forceIdle1 => exact (afterExec_ignoresLog .fcIdle fun _ _ => rfl).onlyAppends _

/-! ### One step -/

theorem runWire_ignoresLog (ops : List SubOp) : IgnoresLog (runWire ops) := by
  intro d s
  simp only [runWire, withDiag_bus, withDiag_cfg]
  split
  · exact exec_ignoresLog _ d s
  · exact transact_ignoresLog ops d s

theorem callReady_ignoresLog {run : State → Outcome State Fault Refusal} (h : IgnoresLog run) :
    IgnoresLog (callReady run) := by
  intro d s
  cases hl : s.lifecycle with
  | ready => simpa only [callReady, withDiag_lifecycle, hl] using h d s
  | uninitialized | consumed => simp only [callReady, withDiag_lifecycle, hl, mapNext]

theorem takeCall_ignoresLog (c : Call) : IgnoresLog (takeCall c) := by
  cases c with
  | newHandle =>
    intro d s
    cases hl : s.lifecycle <;> simp only [takeCall, callNewHandle, withDiag_lifecycle, hl] <;> rfl
  | init =>
    intro d s
    cases hl : s.lifecycle <;> simp only [takeCall, callInit, withDiag_lifecycle, hl] <;> rfl
  | send | recv | forceIdle => exact callReady_ignoresLog fun _ _ => rfl
  | instr i => exact callReady_ignoresLog fun d s => exec_ignoresLog i d { s with result := none }
  | wire ops => exact callReady_ignoresLog fun d s => runWire_ignoresLog ops d { s with result := none }

theorem hostMove_onlyAppends (s : State) : OnlyAppends hostMove s := by
  by_cases hp : s.pos = .idle
  · cases hc : s.calls with
    | nil =>
      exact (IgnoresLog.onlyAppends (f := .next) (fun _ _ => rfl) s).congr (fun _ => hostMove_wait hp hc)
        (hostMove_wait hp hc)
    | cons c cs =>
      exact ((takeCall_ignoresLog c).onlyAppends { s with calls := cs }).congr (fun _ => hostMove_call hp hc)
        (hostMove_call hp hc)
  · exact (runLine_onlyAppends s).congr (fun _ => hostMove_line hp) (hostMove_line hp)

theorem radioMove_withDiag (ev : RadioEvent) (d : List Diag) (s : State) :
    radioMove ev (withDiag d s) = withDiag d (radioMove ev s) := by
  simp only [radioMove, apply_ite (withDiag d)]
  cases ev <;> rfl

/-- A step does the same whatever the log holds, and adds the same messages at its end. -/
theorem step_onlyAppends (s : State) : OnlyAppends step s := by
  cases ht : s.turns with
  | nil => exact (hostMove_onlyAppends s).congr (fun _ => step_unscheduled ht) (step_unscheduled ht)
  | cons turn ts =>
    cases turn with
    | host p =>
      exact (hostMove_onlyAppends { s with turns := ts, bus := { s.bus with plan := p } }).congr
        (fun _ => step_host ht) (step_host ht)
    | radio ev =>
      exact (IgnoresLog.onlyAppends (f := fun u => .next (radioMove ev u))
        (fun d u => congrArg Outcome.next (radioMove_withDiag ev d u)) { s with turns := ts }).congr
        (fun _ => step_radio ht) (step_radio ht)
    | abandon =>
      refine ⟨[], fun d => ?_⟩
      by_cases hp : s.pos = .idle
      · rw [step_abandon_idle ht hp, step_abandon_idle (s := withDiag d s) ht hp, List.append_nil]; rfl
      · rw [step_abandon_running ht hp, step_abandon_running (s := withDiag d s) ht hp, List.append_nil]; rfl

/-- Settles O46: from the same step taken with any log, at the log the state has and at another. -/
theorem diagnosticLogIsNeverRead : Obligations.DiagnosticLogIsNeverRead := by
  refine ⟨rfl, fun s d => ?_⟩
  obtain ⟨more, h⟩ := step_onlyAppends s
  have hd : step { s with diag := d } = mapNext (withDiag (d ++ more)) (step s) := h d
  refine ⟨fun t ht => ⟨more, ?_, by rw [hd, ht]; rfl⟩, fun r hr => by rw [hd, hr]; rfl⟩
  have hs : step s = mapNext (withDiag (s.diag ++ more)) (step s) := h s.diag
  rw [ht] at hs
  exact congrArg State.diag (Outcome.next.inj hs)

end Sys2Proof.Machine
end

section
/-! SUPPORT. O48: `init` line by line on a working link (R222), with what each line leaves for the next. -/

namespace Sys2Proof.Machine

open Host (Outcome)

/-! ### Runs and lines -/

/-- A run goes on from where its first step leads. -/
theorem run_of_step {s t : State} (k : Nat) (h : step s = .next t) :
    Host.Core.run core (k + 1) s = Host.Core.run core k t := by
  have hcore : core.step s = .next t := h
  simp only [Host.Core.run, hcore]

/-- A transaction that succeeded lets the sequence go on (R251). -/
theorem afterXact_ok {o : Outcome State Fault Refusal} {t : State} (k : State → State) (ho : o = .next t)
    (hr : t.bus.ret = .ok) : afterXact o k = .next (k t) := by
  simp only [afterXact, ho, hr]

/-- `RDU32` carried whole: the value is assembled from the bytes of the snapshot (R132). -/
theorem execRdu32_ok (r : Reg) (s : State) (hwf : s.cfg.wf = true) (hplan : s.bus.plan = .ok)
    (hr : readable r = true) (hn : 4 ≤ regLength r) :
    ∃ d, execRdu32 r s =
      .next (assembleValue (completed (encode s.cfg (.rdu32 r)) (regHeader s.cfg r false)
        ((regBytes s.cfg s.dev (drawWord s) r).take 4) .ok d (sampled r (loadHeader r false s)))) := by
  obtain ⟨d, hd⟩ := execRd_ok r 4 s hwf hplan hr hn
  exact ⟨d, by rw [execRdu32, hd]; rfl⟩

/-! ### The state before each line of `init` -/

/-- `t` stands before the line `p` of an `init` that `s` was about to call, with nothing but HOST to move: the identity
register holds `id`, the device is `dev`, the history has gained `events`, the log nothing. -/
structure InitAt (s t : State) (p : Pos) (id : BitVec 32) (dev : Device) (events : List HistEvent) : Prop where
  cfg : t.cfg = s.cfg
  pos : t.pos = p
  lifecycle : t.lifecycle = .uninitialized
  turns : t.turns = []
  plan : t.bus.plan = .ok
  calls : s.calls = .init :: t.calls
  id : t.regs.id = id
  dev : t.dev = dev
  history : t.history = s.history ++ events
  diag : t.diag = s.diag

section

variable {s t : State} {p : Pos} {id : BitVec 32} {dev dev' : Device} {events : List HistEvent}

theorem InitAt.step_eq (h : InitAt s t p id dev events) (hp : p ≠ .idle) : step t = runLine t := by
  rw [step_unscheduled h.turns, hostMove_line (h.pos ▸ hp)]

/-- The call of `init` on an `Uninitialized` handle (R275). -/
theorem initAt_of_call {cs : List Call} (hp : s.pos = .idle) (hl : s.lifecycle = .uninitialized)
    (hc : s.calls = .init :: cs) (ht : s.turns = []) (hplan : s.bus.plan = .ok) :
    ∃ t, step s = .next t ∧ InitAt s t .init1 s.regs.id s.dev [] := by
  refine ⟨startAt .init1 { s with calls := cs }, ?_, ⟨rfl, rfl, hl, ht, hplan, hc, rfl, rfl, by simp, rfl⟩⟩
  rw [step_unscheduled ht, hostMove_call hp hc]
  simp only [takeCall, callInit, hl]

/-- A delay is recorded and changes nothing else (R310). -/
theorem InitAt.delay (h : InitAt s t p id dev events) (hp : p ≠ .idle) (q : Pos) (ms : Nat)
    (hline : runLine t = .next (goTo q (delayMs ms t))) :
    ∃ u, step t = .next u ∧ InitAt s u q id dev (events ++ [.delay ms]) :=
  ⟨goTo q (delayMs ms t), (h.step_eq hp).trans hline, h.cfg, rfl, h.lifecycle, h.turns, h.plan, h.calls, h.id, h.dev,
    by simp [h.history], h.diag⟩

/-- A fast command on a working link: one transaction, and the device as the commit leaves it (R150). -/
theorem InitAt.command (h : InitAt s t p id dev events) (hp : p ≠ .idle) (q : Pos) (code : BitVec 5)
    (hline : runLine t = afterXact (issue code.toNat t) (goTo q)) (hc : command s.cfg code dev = .next (dev', [])) :
    ∃ u, step t = .next u ∧ InitAt s u q id dev'
      (events ++ [.xact [.write [fcByte code.toNat]] [fcByte code.toNat] [] .ok]) := by
  obtain ⟨d, hissue⟩ := issue_ok code.toNat t h.plan dev' [] (by rwa [ofNat_code, h.cfg, h.dev])
  have hstep := (h.step_eq hp).trans (hline.trans (afterXact_ok _ hissue rfl))
  exact ⟨_, hstep, h.cfg, rfl, h.lifecycle, h.turns, rfl, h.calls, h.id, rfl, by simp [h.history], h.diag⟩

/-- Line 4: the identity is read (R222). -/
theorem InitAt.readIdentity (h : InitAt s t .init4 id dev events) (hwf : s.cfg.wf = true) :
    ∃ u, step t = .next u ∧ InitAt s u .init5 s.cfg.devIdValue dev
      (events ++
        [.xact (encode s.cfg (.rdu32 .devId)) (regHeader s.cfg .devId false) (le32 s.cfg.devIdValue) .ok]) := by
  obtain ⟨d, hread⟩ := execRdu32_ok .devId t (h.cfg ▸ hwf) h.plan rfl (by decide)
  have hline : runLine t = init4 t := by rw [runLine, h.pos]
  have hstep := (h.step_eq (by decide)).trans (hline.trans (afterXact_ok _ hread rfl))
  refine ⟨_, hstep, h.cfg, rfl, h.lifecycle, h.turns, rfl, h.calls, ?_, h.dev, ?_, h.diag⟩
  · exact (unle32_le32 t.cfg.devIdValue).trans (congrArg Config.devIdValue h.cfg)
  · rw [← h.cfg, ← List.append_assoc, ← h.history]
    rfl

/-- Line 5: an identity that is neither all zeros nor all ones passes (R223). -/
theorem InitAt.checkIdentity (h : InitAt s t .init5 id dev events) (h0 : id ≠ 0x00000000) (h1 : id ≠ 0xFFFFFFFF) :
    ∃ u, step t = .next u ∧ InitAt s u .init6 id dev events := by
  have hline : runLine t = init5 t := by rw [runLine, h.pos]
  refine ⟨goTo .init6 t, (h.step_eq (by decide)).trans ?_, h.cfg, rfl, h.lifecycle, h.turns, h.plan, h.calls, h.id,
    h.dev, h.history, h.diag⟩
  rw [hline, init5, h.id, if_neg (not_or.mpr ⟨h0, h1⟩)]

/-- Lines 7 and 8: the identity is logged and the handle returned (R222). -/
theorem InitAt.returnHandle (h : InitAt s t .init7 id dev events) :
    ∃ u v, step t = .next u ∧ step u = .next v ∧ v.lifecycle = .ready ∧ v.result = some .ok ∧ v.pos = .idle ∧
      v.calls = t.calls ∧ v.dev = dev ∧ v.diag = s.diag ++ [.deviceIdentity id] ∧ v.history = s.history ++ events := by
  have hline : runLine t = init7 t := by rw [runLine, h.pos]
  have hstep := (h.step_eq (by decide)).trans hline
  have hlast : step (goTo .init8 (emitDiag (.deviceIdentity t.regs.id) t)) = _ := step_unscheduled h.turns
  refine ⟨_, _, hstep, hlast, rfl, rfl, rfl, rfl, h.dev, ?_, h.history⟩
  exact congrArg₂ (fun l i => l ++ [Diag.deviceIdentity i]) h.diag h.id

end

/-- Settles O48: the call and the eight lines, one after another. -/
theorem initReachesReady : Obligations.InitReachesReady := by
  intro s cs hwf hp hl hc ht hplan h0 h1
  obtain ⟨-, -, hidle, -, -⟩ := command_named s.cfg hwf s.dev
  obtain ⟨-, -, -, -, hclr⟩ := command_named s.cfg hwf { s.dev with trx := .idle }
  obtain ⟨t₁, r₁, a₁⟩ := initAt_of_call hp hl hc ht hplan
  obtain ⟨t₂, r₂, a₂⟩ := a₁.delay (by decide) .init2 5 (by rw [runLine, a₁.pos]; rfl)
  obtain ⟨t₃, r₃, a₃⟩ := a₂.command (by decide) .init3 s.cfg.cmd.idle (by rw [runLine, a₂.pos, ← a₂.cfg]; rfl) hidle
  obtain ⟨t₄, r₄, a₄⟩ := a₃.delay (by decide) .init4 1 (by rw [runLine, a₃.pos]; rfl)
  obtain ⟨t₅, r₅, a₅⟩ := a₄.readIdentity hwf
  obtain ⟨t₆, r₆, a₆⟩ := a₅.checkIdentity h0 h1
  obtain ⟨t₇, r₇, a₇⟩ := a₆.command (by decide) .init7 s.cfg.cmd.clrirq (by rw [runLine, a₆.pos, ← a₆.cfg]; rfl) hclr
  obtain ⟨t₈, t₉, r₈, r₉, hlife, hres, hpos, hcalls, hdev, hdiag, hhist⟩ := a₇.returnHandle
  have hcs : .init :: t₇.calls = .init :: cs := a₇.calls.symm.trans hc
  have hrun : Host.Core.run core 9 s = .next t₉ :=
    (run_of_step 8 r₁).trans <| (run_of_step 7 r₂).trans <| (run_of_step 6 r₃).trans <| (run_of_step 5 r₄).trans <|
    (run_of_step 4 r₅).trans <| (run_of_step 3 r₆).trans <| (run_of_step 2 r₇).trans <| (run_of_step 1 r₈).trans <|
    run_of_step 0 r₉
  refine ⟨t₉, hrun, hlife, hres, hpos, hcalls.trans (List.cons.inj hcs).2, fun f => ?_, by rw [hdev], hdiag, hhist⟩
  rw [hdev]
  exact getFlag_noFlags f

end Sys2Proof.Machine
end

section
/-! SUPPORT. O11: the accesses the catalog does not describe, as the slot at which the decoder rejects them (R78). -/

namespace Sys2Proof.Machine

/-! ### An address outside the catalog (R78 (a)) -/

/-- Taking the read snapshot leaves the phase. -/
theorem enterData_phase (s : State) : (enterData s).dec.phase = s.dec.phase := by
  unfold enterData
  split
  · rename_i r _ _ _
    cases r <;> rfl
  · rfl

/-- No register is found at a pair that is no register's address. -/
theorem catalogLookup_eq_none {cfg : Config} {fid : BitVec 5} {sub : BitVec 7} (h : ∀ r, regAddr cfg r ≠ ⟨fid, sub⟩) :
    catalogLookup cfg fid sub = none := by
  simpa [catalogLookup, List.find?_eq_none] using fun r _ => h r

/-- The two bytes of a header in mode 0 whose pair is in no catalog entry make the decoder reject (R111). -/
theorem deliverSlots_notInCatalog (b0 b1 : Byte) (s : State) (hp : s.dec.phase = .hdr0) (hf : hdrFull b0 = true)
    (hm : hdrMode b1 = 0)
    (hr : ∀ r, regAddr s.cfg r ≠ ⟨hdrFid b0, joinSub (hdrSubHigh b0) (hdrSubLow b1)⟩) :
    (deliverSlots [.write b0, .write b1] s).1.dec.phase = .reject .notInCatalog := by
  simp only [deliverSlots, deliverSlot, deviceSlot, hp, slot0, hf, if_true, enterData_phase, slot1, joinSub_high,
    headerPhase, hm, catalogLookup_eq_none hr, ne_eq, not_true, if_false]

/-! ### A data phase longer than the register (R78 (b)) -/

/-- The decoder is in a data phase that has used up the register `r`. -/
structure AtEndOf (r : Reg) (d : Decoder) : Prop where
  phase : d.phase = .data
  reg : d.reg = some r
  offset : d.offset = regLength r

/-- One slot past the end of the register, of whatever direction, is rejected (R112). -/
theorem AtEndOf.rejects {r : Reg} {s : State} (h : AtEndOf r s.dec) (x : Slot) :
    (deliverSlot x s).1.dec.phase = .reject .dataTooLong := by
  simp only [deliverSlot, deviceSlot, h.phase, h.reg, dataSlot, if_pos h.offset]

/-- A transaction with a slot past the end of its register is refused, whatever follows. -/
theorem transact_tooLong (r : Reg) (ops : List SubOp) (pre xs : List Slot) (x : Slot) (s : State)
    (hd : delivered s.bus.plan (expand ops) = pre ++ x :: xs)
    (he : AtEndOf r (deliverSlots pre (csLow ops s)).1.dec) : transact ops s = .refused .dataTooLong := by
  refine transact_reject .dataTooLong ops (pre ++ [x]) xs s (by simpa using hd) ?_
  rw [deliverSlots_append]
  exact he.rejects x

/-- A header and as many `Read` slots as the register has bytes. -/
theorem deliverSlots_wholeRead (r : Reg) (s : State) (hwf : s.cfg.wf = true) (hr : readable r = true)
    (hp : s.dec.phase = .hdr0) (ho : s.dec.offset = 0) :
    AtEndOf r (deliverSlots ((regHeader s.cfg r false).map .write ++ List.replicate (regLength r) .read) s).1.dec := by
  have hlen := regBytes_length s.cfg s.dev (drawWord s) r hr
  rw [deliverSlots_append, deliverSlots_header r false s hwf hp hr, enterData_read,
    deliverSlots_readData r (regLength r) _ rfl rfl rfl (by simp [headerTaken, ho]) (by simp [headerTaken, ho, hlen])]
  exact ⟨rfl, rfl, by simp [headerTaken, ho]⟩

/-- A header and as many bytes as the register has. -/
theorem deliverSlots_wholeWrite (r : Reg) (data : List Byte) (s : State) (hwf : s.cfg.wf = true)
    (hr : writable r = true) (hl : data.length = regLength r) (hp : s.dec.phase = .hdr0) (ho : s.dec.offset = 0) :
    AtEndOf r (deliverSlots ((regHeader s.cfg r true).map .write ++ data.map .write) s).1.dec := by
  rw [deliverSlots_append, deliverSlots_header r true s hwf hp hr, enterData_write,
    deliverSlots_writeData r data _ rfl rfl rfl (by simp [headerTaken, ho, hl])]
  exact ⟨rfl, rfl, by simp [headerTaken, ho, hl]⟩

/-- A read longer than the register, carried whole. -/
theorem transact_readTooLong (r : Reg) (n : Nat) (s : State) (hwf : s.cfg.wf = true) (hplan : s.bus.plan = .ok)
    (hr : readable r = true) (hn : regLength r < n) :
    transact [.write (regHeader s.cfg r false), .read n] s = .refused .dataTooLong := by
  obtain ⟨m, rfl⟩ : ∃ m, n = regLength r + (m + 1) := ⟨n - regLength r - 1, by omega⟩
  refine transact_tooLong r _ ((regHeader s.cfg r false).map .write ++ List.replicate (regLength r) .read)
    (List.replicate m .read) .read s ?_ (deliverSlots_wholeRead r (csLow _ s) hwf hr rfl rfl)
  simp only [hplan, delivered, expand, subOpSlots, List.append_nil, List.replicate_add, List.replicate_succ,
    List.append_assoc]

/-- A write longer than the register, carried whole. -/
theorem transact_writeTooLong (r : Reg) (data : List Byte) (s : State) (hwf : s.cfg.wf = true)
    (hplan : s.bus.plan = .ok) (hr : writable r = true) (hn : regLength r < data.length) :
    transact [.write (regHeader s.cfg r true), .write data] s = .refused .dataTooLong := by
  refine transact_tooLong r _ ((regHeader s.cfg r true).map .write ++ (data.take (regLength r)).map .write)
    ((data.drop (regLength r + 1)).map .write) (.write data[regLength r]) s ?_
    (deliverSlots_wholeWrite r _ (csLow _ s) hwf hr (List.length_take_of_le hn.le) rfl rfl)
  simp only [hplan, delivered, expand, subOpSlots, List.append_nil, List.append_assoc, ← List.map_cons,
    ← List.map_append, ← List.drop_eq_getElem_cons, List.take_append_drop]

/-- Settles O11: by the second header byte for the address, by the first slot past the register for the length. -/
theorem undescribedAccessRefused : Obligations.UndescribedAccessRefused := by
  refine ⟨fun s ops b0 b1 xs hd hf hm hr => ?_, fun s r hwf hplan => ⟨fun n hr hn => ?_, fun data hr hn => ?_⟩⟩
  · exact transact_reject .notInCatalog ops [.write b0, .write b1] xs s hd
      (deliverSlots_notInCatalog b0 b1 (csLow ops s) rfl hf hm hr)
  · exact transact_readTooLong r n (loadHeader r false s) hwf hplan hr hn
  · exact transact_writeTooLong r data (loadHeader r true s) hwf hplan hr hn

end Sys2Proof.Machine
end

section
/-! SUPPORT. O17: what a transaction that is cut short leaves, per kind of transaction: the meanings under any plan, at
a plan that fails or cuts (R84, R252). -/

namespace Sys2Proof.Machine

@[simp] theorem settle_dev (s : State) : (settle s).dev = s.dev := by
  unfold settle
  split <;> rfl

@[simp] theorem settle_history (s : State) : (settle s).history = s.history := by
  unfold settle
  split <;> rfl

@[simp] theorem afterPlan_history (p : Plan) (s : State) : (afterPlan p s).history = s.history := by cases p <;> rfl

/-- Of a transaction that spans the list, what arrives of the list does not depend on what follows it. -/
theorem take_min_of_length_le {α : Type} {l : List α} {n : Nat} (k : Nat) (h : l.length ≤ n) :
    l.take (min k n) = l.take k := by
  rw [← List.take_take, List.take_of_length_le h]

section

variable {s : State} {k : Nat} {ret : XRet}

/-- A write cut short inside its header changes nothing; past it the bytes that arrived are committed (R84, R131). -/
theorem CutShort.afterWrite_dev (h : CutShort s.bus.plan k ret) (r : Reg) (data : List Byte) :
    (afterWrite r data s).dev = if k < 2 then s.dev else commitWrite s.cfg r (data.take (k - 2)) s.dev := by
  have hcut : min k (2 + data.length) < 2 ↔ k < 2 := by omega
  have htake : data.take (min k (2 + data.length) - 2) = data.take (k - 2) := by
    have hsub : min k (2 + data.length) - 2 = min (k - 2) data.length := by omega
    rw [hsub, take_min_of_length_le _ le_rfl]
  simp only [afterWrite, arrived, h.deliveredCount_eq, hcut, htake]

/-- `WR` cut short (R84): the header and data bytes that arrived are recorded. -/
theorem CutShort.execWr_next (h : CutShort s.bus.plan k ret) (hwf : s.cfg.wf = true) (r : Reg) (data : List Byte)
    (hr : writable r = true) (hn : data.length ≤ regLength r) :
    ∃ t, execWr r data s = .next t ∧ EndedBy ret t ∧
      t.history = s.history ++
        [.xact (encode s.cfg (.wr r data)) ((regHeader s.cfg r true ++ data).take k) [] ret] ∧
      t.dev = if k < 2 then s.dev else commitWrite s.cfg r (data.take (k - 2)) s.dev := by
  obtain ⟨d, hd⟩ := execWr_any r data s hwf hr hn
  refine ⟨_, hd, h.settle_endedBy _ rfl rfl, ?_, ?_⟩
  · have hlen : (regHeader s.cfg r true ++ data).length ≤ 2 + data.length := by simp [regHeader]; omega
    simp [completed, afterWrite, h.planRet_eq, h.deliveredCount_eq, take_min_of_length_le k hlen]
  · simpa [completed] using CutShort.afterWrite_dev (s := loadHeader r true s) h r data

/-- `RD` cut short (R84): the header bytes that arrived are recorded, the device is as it was. -/
theorem CutShort.execRd_next (h : CutShort s.bus.plan k ret) (hwf : s.cfg.wf = true) (r : Reg) (n : Nat)
    (hr : readable r = true) (hn : n ≤ regLength r) :
    ∃ t got, execRd r n s = .next t ∧ EndedBy ret t ∧
      t.history = s.history ++ [.xact (encode s.cfg (.rd r n)) ((regHeader s.cfg r false).take k) got ret] ∧
      t.dev = s.dev := by
  obtain ⟨d, got, pool, ctr, hd⟩ := execRd_any r n s hwf hr hn
  refine ⟨_, got, hd, h.settle_endedBy _ rfl rfl, ?_, by simp [completed]⟩
  have hlen : (regHeader s.cfg r false).length ≤ 2 + n := by simp [regHeader]
  simp [completed, h.planRet_eq, h.deliveredCount_eq, take_min_of_length_le k hlen]

/-- A fast command whose byte did not arrive (R84). -/
theorem CutShort.issue_next_of_undelivered (h : CutShort s.bus.plan 0 ret) (code : Nat) :
    ∃ t, issue code s = .next t ∧ EndedBy ret t ∧
      t.history = s.history ++ [.xact [.write [fcByte code]] [] [] ret] ∧ t.dev = s.dev := by
  obtain ⟨d, hd⟩ := issue_any code s
  rw [if_pos (by simp [h.deliveredCount_eq])] at hd
  exact ⟨_, hd, h.settle_endedBy _ rfl rfl, by simp [completed, h.planRet_eq], by simp [completed]⟩

/-- A fast command whose byte arrived is committed, and the record stands before what it emits (R84, R151). -/
theorem CutShort.issue_next_of_delivered (h : CutShort s.bus.plan k ret) (hk : 1 ≤ k) (code : Nat)
    (out : Device × List HistEvent) (hc : command s.cfg (BitVec.ofNat 5 code) s.dev = .next out) :
    ∃ t, issue code s = .next t ∧ EndedBy ret t ∧
      t.history = s.history ++ .xact [.write [fcByte code]] [fcByte code] [] ret :: out.2 ∧ t.dev = out.1 := by
  obtain ⟨d, hd⟩ := issue_any code s
  have hone : deliveredCount s.bus.plan 1 ≠ 0 := by rw [h.deliveredCount_eq]; omega
  rw [if_neg hone, hc] at hd
  exact ⟨_, hd, h.settle_endedBy _ rfl rfl, by simp [completed, h.planRet_eq], by simp⟩

end

/-- Settles O17: each kind of transaction cut short, and the named commands, which are `FC` of their code by
definition. -/
theorem failedTransactionCommitsThePrefix : Obligations.FailedTransactionCommitsThePrefix := by
  refine ⟨fun s k ret hwf h => ⟨?_, fun r n => h.execRd_next hwf r n, ?_, ?_⟩, fun s => ⟨rfl, rfl, rfl, rfl, rfl⟩⟩
  · intro r data hr hn
    obtain ⟨t, hexec, hend, hhist, hdev⟩ := h.execWr_next hwf r data hr hn
    refine ⟨t, hexec, hend, hhist, fun hk => hdev.trans (if_pos hk), fun hk => ?_⟩
    rw [hdev, if_neg (by omega)]
    exact commitWrite_effect s.cfg r (data.take (k - 2)) s.dev hr
  · rintro code rfl
    exact h.issue_next_of_undelivered code
  · intro code out hk hc
    obtain ⟨t, hissue, hend, hhist, hdev⟩ := h.issue_next_of_delivered hk code out hc
    exact ⟨t, _, hissue, hend, hhist, .inl rfl, hdev⟩

end Sys2Proof.Machine
end

section
/-! SUPPORT. O1 to O4: the two header bytes and the fast-command byte, as the encoder makes them and as the device's
latches and the decoder read them back (R101 to R109). -/

namespace Sys2Proof.Machine

/-! ### The header (R101 to R104) -/

/-- Settles O1, from the law of each byte at a general bit. -/
theorem headerBitsAreTheFields : Obligations.HeaderBitsAreTheFields := by
  refine ⟨fun fileId sub wr => ?_, fun _ _ _ => rfl⟩
  simp only [headerByte0_getLsbD, headerByte1_getLsbD]
  refine ⟨by simp, by simp, fun i hi => ?_, by simp, fun i hi => ?_, by simp, by simp⟩
  · interval_cases i <;> simp
  · interval_cases i <;> simp

/-- The latches after a header are the fields of its two bytes, whatever they held before (R110, R111). -/
theorem slot1_slot0 (cfg : Config) (d : Decoder) (b0 b1 : Byte) (h : hdrFull b0 = true) :
    let d' := slot1 cfg (slot0 d (.write b0)) (.write b1)
    d'.wr = hdrWr b0 ∧ d'.fid = hdrFid b0 ∧ d'.sub = joinSub (hdrSubHigh b0) (hdrSubLow b1) ∧ d'.mode = hdrMode b1 := by
  simp [slot0, slot1, h, joinSub_high]

/-- Settles O2: the latches are the fields of the bytes, and the fields of an encoded header are what was encoded. -/
theorem deviceRecoversTheHeader : Obligations.DeviceRecoversTheHeader := by
  refine ⟨slot1_slot0, fun cfg d fid sub wr => ?_⟩
  have h := slot1_slot0 cfg d (headerByte0 fid.toNat sub.toNat wr) (headerByte1 sub.toNat) (hdrFull_headerByte0 _ _ _)
  simpa only [hdrWr_headerByte0, hdrFid_headerByte0, hdrSubHigh_headerByte0, hdrSubLow_headerByte1, joinSub_parts,
    hdrMode_headerByte1] using h

/-! ### The fast-command byte (R106) -/

/-- The fast-command byte of a code depends on the code modulo 32. -/
theorem fcByte_mod (code : Nat) : fcByte (code % 32) = fcByte code := by
  simp only [fcByte, Nat.and_two_pow_sub_one_eq_mod _ 5, Nat.mod_mod]

/-- The formula of R106 fits a byte. -/
theorem fcByte_toNat (code : Nat) : (fcByte code).toNat = (1 <<< 7) ||| ((code &&& 0x1F) <<< 1) ||| 1 := by
  have hcode : (code &&& 0x1F) <<< 1 < 2 ^ 8 := by
    have := Nat.and_le_right (n := code) (m := 0x1F)
    rw [Nat.shiftLeft_eq]
    omega
  exact Nat.mod_eq_of_lt (Nat.or_lt_two_pow (Nat.or_lt_two_pow (by decide) hcode) (by decide))

/-- Settles O3. -/
theorem fastByteOfEveryCode : Obligations.FastByteOfEveryCode := by
  refine ⟨fcByte_toNat, fun code => ?_, fun code d => ?_, by decide⟩
  · rw [← fcByte_mod (code + 32), Nat.add_mod_right, fcByte_mod]
  · simp [slot0, hdrFull_fcByte, isFastByte_fcByte, fcCode_fcByte]

/-! ### Match and mask (R109) -/

/-- A match under a mask fixes the bits of the mask. -/
theorem getLsbD_of_mask {w : Nat} {x m v : BitVec w} (h : x &&& m = v) (i : Nat) (hi : m.getLsbD i = true) :
    x.getLsbD i = v.getLsbD i := by
  rw [← h, BitVec.getLsbD_and, hi, Bool.and_true]

/-- The mask and match of a full-addressed word, as the fields of its two bytes. -/
theorem fields_of_wordMask (b0 b1 : Byte) (wr : Bool)
    (h : (b0 ++ b1) &&& (0xC003 : BitVec 16) = if wr then 0xC000 else 0x4000) :
    hdrFull b0 = true ∧ hdrWr b0 = wr ∧ hdrMode b1 = 0 := by
  have h14 := getLsbD_of_mask h 14 (by decide)
  have h15 := getLsbD_of_mask h 15 (by decide)
  have h0 := getLsbD_of_mask h 0 (by decide)
  have h1 := getLsbD_of_mask h 1 (by decide)
  rw [BitVec.getLsbD_append] at h14 h15 h0 h1
  refine ⟨?_, ?_, ?_⟩
  · cases wr <;> exact h14
  · cases wr <;> exact h15
  · ext i hi
    interval_cases i
    · cases wr <;> simpa [hdrMode] using h0
    · cases wr <;> simpa [hdrMode] using h1

/-- The mask and match of a fast-command byte. -/
theorem isFastByte_iff (b0 : Byte) : isFastByte b0 = true ↔ b0 &&& 0xC1 = 0x81 := by
  simp only [isFastByte, hdrFull, Bool.and_eq_true, Bool.not_eq_true']
  constructor
  · rintro ⟨⟨h6, h7⟩, h0⟩
    ext i hi
    interval_cases i <;> simp_all
  · intro h
    exact ⟨⟨getLsbD_of_mask h 6 (by decide), getLsbD_of_mask h 7 (by decide)⟩, getLsbD_of_mask h 0 (by decide)⟩

/-- A fast-command byte has bit 6 clear. -/
theorem hdrFull_of_isFastByte {b0 : Byte} (h : isFastByte b0 = true) : hdrFull b0 = false := by
  simp only [isFastByte, Bool.and_eq_true, Bool.not_eq_true'] at h
  exact h.1.1

/-- A fast-command byte alone is the instruction of its code (R108). -/
theorem decode_fast (cfg : Config) {b0 : Byte} (h : isFastByte b0 = true) :
    decode cfg [.write b0] = .instr (fastInstr cfg (fcCode b0)) := by
  simp [decode, decodeRest, hdrFull_of_isFastByte h, h]

/-- A header in mode 0 leads to the catalog and the data phase (R111). -/
theorem decode_header (cfg : Config) {b0 b1 : Byte} (xs : List Slot) (hf : hdrFull b0 = true) (hm : hdrMode b1 = 0) :
    decode cfg (.write b0 :: .write b1 :: xs) =
      decodeBody cfg (hdrWr b0) (hdrFid b0) (joinSub (hdrSubHigh b0) (hdrSubLow b1)) xs := by
  simp [decode, decodeRest, hf, decodeFull, hm]

/-- A code is unassigned when it is none of the five (R108). -/
theorem assignedCode_eq_false_iff (cfg : Config) (code : BitVec 5) :
    assignedCode cfg code = false ↔
      code ≠ cfg.cmd.tx ∧ code ≠ cfg.cmd.rx ∧ code ≠ cfg.cmd.idle ∧ code ≠ cfg.cmd.drxdb ∧ code ≠ cfg.cmd.clrirq := by
  simp [assignedCode]

/-- A code outside the five decodes as the unassigned row (R116). -/
theorem fastInstr_unassigned (cfg : Config) (code : BitVec 5) (h : assignedCode cfg code = false) :
    fastInstr cfg code = .reservedFcUnassigned code := by
  obtain ⟨htx, hrx, hidle, hdrxdb, hclrirq⟩ := (assignedCode_eq_false_iff cfg code).mp h
  simp [fastInstr, htx, hrx, hidle, hdrxdb, hclrirq]

/-- A fast-command byte other than the byte of `c` has another code. -/
theorem fcCode_ne {b0 : Byte} {c : BitVec 5} (h : isFastByte b0 = true) (hne : b0 ≠ fcByte c.toNat) : fcCode b0 ≠ c := by
  rintro rfl
  exact hne (fcByte_fields b0 h (hdrFull_of_isFastByte h))

/-- Of the configuration a fast command reads the codes only. -/
theorem decode_fast_defaultCmd (cfg : Config) (hcmd : cfg.cmd = defaultCmd) {b0 : Byte} (h : isFastByte b0 = true) :
    decode cfg [.write b0] = .instr (fastInstr defaultConfig (fcCode b0)) := by
  rw [decode_fast cfg h, fastInstr, hcmd]
  rfl

/-- Settles O4: the masks give the fields, and under the spec's codes a fast-command byte is the byte of its code. -/
theorem matchAndMaskDecode : Obligations.MatchAndMaskDecode := by
  refine ⟨fun cfg b0 b1 xs wr h => ?_, fun cfg b0 h => decode_fast cfg ((isFastByte_iff b0).mpr h), fun cfg hcmd => ?_⟩
  · obtain ⟨hf, rfl, hm⟩ := fields_of_wordMask b0 b1 wr h
    exact decode_header cfg xs hf hm
  · have hnamed {b0 : Byte} (h : isFastByte b0 = true) := decode_fast_defaultCmd cfg hcmd h
    refine ⟨hnamed (by decide), hnamed (by decide), hnamed (by decide), hnamed (by decide), hnamed (by decide),
      fun b0 h hTx hRx hIdle hDrxdb hClrirq => ?_⟩
    have hfast := (isFastByte_iff b0).mpr h
    have hcode : assignedCode cfg (fcCode b0) = false := by
      rw [assignedCode_eq_false_iff, hcmd]
      exact ⟨fcCode_ne hfast hTx, fcCode_ne hfast hRx, fcCode_ne hfast hIdle, fcCode_ne hfast hDrxdb,
        fcCode_ne hfast hClrirq⟩
    rw [decode_fast cfg hfast, fastInstr_unassigned cfg _ hcode, fcCode]

end Sys2Proof.Machine
end

section
/-! SUPPORT. O8 to O10 and O13: the reserved and malformed transactions, as the slot at which the decoder rejects them
or the commit refuses (R113 to R117). -/

namespace Sys2Proof.Machine

/-! ### Reserved encodings (R114 to R116) -/

/-- A byte with bit 6 clear and bit 7 or bit 0 clear is of no class (R114). -/
theorem isFastByte_eq_false {b0 : Byte} (h : b0.getLsbD 7 = false ∨ b0.getLsbD 0 = false) : isFastByte b0 = false := by
  rcases h with h | h <;> simp only [isFastByte, h, Bool.and_false, Bool.false_and]

/-- Slot 0 with a byte of no class makes the decoder reject (R110). -/
theorem deliverSlots_reservedFirstByte (b0 : Byte) (s : State) (hp : s.dec.phase = .hdr0) (hf : hdrFull b0 = false)
    (hfast : isFastByte b0 = false) : (deliverSlots [.write b0] s).1.dec.phase = .reject .reservedFirstByte := by
  simp [deliverSlots, deliverSlot, deviceSlot, hp, slot0, hf, hfast]

/-- Settles O8: the first slot is the one rejected. -/
theorem reservedFirstByteRefused : Obligations.ReservedFirstByteRefused := by
  refine ⟨fun s ops b0 xs hd hf h => ?_, fun _ _ => rfl, fun _ _ => rfl⟩
  exact transact_reject .reservedFirstByte ops [.write b0] xs s hd
    (deliverSlots_reservedFirstByte b0 (csLow ops s) rfl hf (isFastByte_eq_false h))

/-- Slot 1 with a mode other than 0 makes the decoder reject, whatever the address (R111). -/
theorem deliverSlots_reservedMode (b0 b1 : Byte) (s : State) (hp : s.dec.phase = .hdr0) (hf : hdrFull b0 = true)
    (hm : hdrMode b1 ≠ 0) : (deliverSlots [.write b0, .write b1] s).1.dec.phase = .reject .reservedMode := by
  simp only [deliverSlots, deliverSlot, deviceSlot, hp, slot0, hf, if_true, enterData_phase, slot1, headerPhase, ne_eq,
    hm, not_false_eq_true]

/-- Settles O9: the second slot is the one rejected. -/
theorem reservedModeRefused : Obligations.ReservedModeRefused := by
  refine ⟨fun s ops b0 b1 xs hd hf hm => ?_, fun _ _ _ _ => ⟨rfl, rfl, rfl⟩⟩
  exact transact_reject .reservedMode ops [.write b0, .write b1] xs s hd
    (deliverSlots_reservedMode b0 b1 (csLow ops s) rfl hf hm)

/-- The device has no action for an unassigned code (R116, R150). -/
theorem command_unassigned (cfg : Config) (code : BitVec 5) (d : Device) (h : assignedCode cfg code = false) :
    command cfg code d = .refused .unassignedCode := by
  obtain ⟨htx, hrx, hidle, hdrxdb, hclrirq⟩ := (assignedCode_eq_false_iff cfg code).mp h
  simp [command, htx, hrx, hidle, hdrxdb, hclrirq]

/-- A delivered fast command of an unassigned code is refused (R116). -/
theorem issue_unassigned (code : Nat) (s : State) (hd : deliveredCount s.bus.plan 1 = 1)
    (h : assignedCode s.cfg (BitVec.ofNat 5 code) = false) : issue code s = .refused .unassignedCode := by
  obtain ⟨d, hissue⟩ := issue_any code s
  rw [hissue, if_neg (by omega), command_unassigned _ _ _ h]

/-- The codes the spec leaves unassigned (R116). -/
theorem assignedCode_defaultCmd (cfg : Config) (c : BitVec 5) (h : cfg.cmd = defaultCmd) :
    assignedCode cfg c = false ↔ c = 0x00 ∨ (0x05 ≤ c ∧ c ≤ 0x0D) ∨ 0x0F ≤ c := by
  rw [assignedCode_eq_false_iff, h]
  revert c
  decide

/-- Settles O10: at the commit of the delivered byte. -/
theorem unassignedCodeRefused : Obligations.UnassignedCodeRefused := by
  refine ⟨fun s code => issue_unassigned code s, fun _ _ => rfl, assignedCode_defaultCmd, fun cfg code => ⟨rfl, ?_⟩⟩
  exact (isFastByte_iff _).mp (isFastByte_fcByte code.toNat)

/-! ### Malformed shapes (R117) -/

/-- Any slot after a fast-command byte makes the decoder reject (R112). -/
theorem deliverSlots_afterFast (code : Nat) (x : Slot) (s : State) (hp : s.dec.phase = .hdr0) :
    (deliverSlots [.write (fcByte code), x] s).1.dec.phase = .reject .slotAfterFast := by
  simp [deliverSlots, deliverSlot, deviceSlot, hp, slot0, hdrFull_fcByte, isFastByte_fcByte]

/-- A `Read` slot in place of the first header byte makes the decoder reject (R110). -/
theorem deliverSlots_readFirst (s : State) (hp : s.dec.phase = .hdr0) :
    (deliverSlots [.read] s).1.dec.phase = .reject .slotDirection := by
  simp only [deliverSlots, deliverSlot, deviceSlot, hp, slot0]

/-- A `Read` slot in place of the second header byte makes the decoder reject (R111). -/
theorem deliverSlots_readSecond (b0 : Byte) (s : State) (hp : s.dec.phase = .hdr0) (hf : hdrFull b0 = true) :
    (deliverSlots [.write b0, .read] s).1.dec.phase = .reject .slotDirection := by
  simp only [deliverSlots, deliverSlot, deviceSlot, hp, slot0, hf, if_true, enterData_phase, slot1]

/-- The decoder is in a data phase of direction `wr` that has not used up the register `r`. -/
structure InsideOf (r : Reg) (wr : Bool) (d : Decoder) : Prop where
  phase : d.phase = .data
  reg : d.reg = some r
  wr : d.wr = wr
  offset : d.offset < regLength r

/-- A `Read` slot inside a write's data phase is rejected (R112). -/
theorem InsideOf.rejects_read {r : Reg} {s : State} (h : InsideOf r true s.dec) :
    (deliverSlot .read s).1.dec.phase = .reject .slotDirection := by
  simp only [deliverSlot, deviceSlot, h.phase, h.reg, dataSlot, if_neg h.offset.ne, h.wr]

/-- A `Write` slot inside a read's data phase is rejected (R112). -/
theorem InsideOf.rejects_write {r : Reg} {s : State} (h : InsideOf r false s.dec) (b : Byte) :
    (deliverSlot (.write b) s).1.dec.phase = .reject .slotDirection := by
  simp only [deliverSlot, deviceSlot, h.phase, h.reg, dataSlot, if_neg h.offset.ne, h.wr]

/-- A header and fewer bytes than the register has. -/
theorem deliverSlots_partWrite (r : Reg) (data : List Byte) (s : State) (hwf : s.cfg.wf = true)
    (hr : writable r = true) (hl : data.length < regLength r) (hp : s.dec.phase = .hdr0) (ho : s.dec.offset = 0) :
    InsideOf r true (deliverSlots ((regHeader s.cfg r true).map .write ++ data.map .write) s).1.dec := by
  rw [deliverSlots_append, deliverSlots_header r true s hwf hp hr, enterData_write,
    deliverSlots_writeData r data _ rfl rfl rfl (by simp [headerTaken, ho, hl.le])]
  exact ⟨rfl, rfl, rfl, by simpa [headerTaken, ho] using hl⟩

/-- A header and fewer `Read` slots than the register has bytes. -/
theorem deliverSlots_partRead (r : Reg) (n : Nat) (s : State) (hwf : s.cfg.wf = true) (hr : readable r = true)
    (hn : n < regLength r) (hp : s.dec.phase = .hdr0) (ho : s.dec.offset = 0) :
    InsideOf r false (deliverSlots ((regHeader s.cfg r false).map .write ++ List.replicate n .read) s).1.dec := by
  have hlen := regBytes_length s.cfg s.dev (drawWord s) r hr
  rw [deliverSlots_append, deliverSlots_header r false s hwf hp hr, enterData_read,
    deliverSlots_readData r n _ rfl rfl rfl (by simp [headerTaken, ho, hn.le]) (by simp [headerTaken, ho, hlen, hn.le])]
  exact ⟨rfl, rfl, rfl, by simpa [headerTaken, ho] using hn⟩

/-- A write with a `Read` slot before its register is full, carried whole. -/
theorem transact_readInWrite (r : Reg) (data : List Byte) (n : Nat) (s : State) (hwf : s.cfg.wf = true)
    (hplan : s.bus.plan = .ok) (hr : writable r = true) (hl : data.length < regLength r) (hn : 0 < n) :
    transact [.write (regHeader s.cfg r true), .write data, .read n] s = .refused .slotDirection := by
  obtain ⟨m, rfl⟩ : ∃ m, n = m + 1 := ⟨n - 1, by omega⟩
  refine transact_reject .slotDirection _
    (((regHeader s.cfg r true).map .write ++ data.map .write) ++ [.read]) (List.replicate m .read) s ?_ ?_
  · simp [hplan, delivered, expand, subOpSlots, List.replicate_succ]
  · rw [deliverSlots_append]
    exact (deliverSlots_partWrite r data (csLow _ s) hwf hr hl rfl rfl).rejects_read

/-- A read with a `Write` slot before its register is used up, carried whole. -/
theorem transact_writeInRead (r : Reg) (data : List Byte) (n : Nat) (s : State) (hwf : s.cfg.wf = true)
    (hplan : s.bus.plan = .ok) (hr : readable r = true) (hn : n < regLength r) (hne : data ≠ []) :
    transact [.write (regHeader s.cfg r false), .read n, .write data] s = .refused .slotDirection := by
  obtain ⟨b, bs, rfl⟩ := List.exists_cons_of_ne_nil hne
  refine transact_reject .slotDirection _
    (((regHeader s.cfg r false).map .write ++ List.replicate n .read) ++ [.write b]) (bs.map .write) s ?_ ?_
  · simp [hplan, delivered, expand, subOpSlots]
  · rw [deliverSlots_append]
    exact (deliverSlots_partRead r n (csLow _ s) hwf hr hn rfl rfl).rejects_write b

/-- A transaction whose delivered slots end inside the header is not refused; what it leaves of the device is what the
slots left (R113). -/
theorem transact_next_of_headerPhase (ops : List SubOp) (s t : State) (got : List Byte)
    (ht : deliverSlots (delivered s.bus.plan (expand ops)) (csLow ops s) = (t, got))
    (hp : t.dec.phase = .hdr0 ∨ t.dec.phase = .hdr1) : ∃ u, transact ops s = .next u ∧ u.dev = t.dev := by
  obtain ⟨bytes, ctr, hrec⟩ := receive_inv ops got t
  have hx : xact ops s = .next (release (receive ops got t)) := by
    rw [xact, ht]
    exact csHigh_header _ (by rw [hrec]; exact hp)
  exact ⟨_, transact_next _ _ _ hx, by rw [settle_dev, hrec]; rfl⟩

/-- The first header byte of a register alone, carried whole (R113). -/
theorem transact_halfHeader (r : Reg) (wr : Bool) (s : State) (hplan : s.bus.plan = .ok) :
    ∃ t, transact [.write ((regHeader s.cfg r wr).take 1)] s = .next t ∧ t.dev = s.dev := by
  obtain ⟨d, hd, hp⟩ := deliverSlots_cutHeader s.cfg r wr [] 1
    (csLow [.write ((regHeader s.cfg r wr).take 1)] s) (by omega) rfl
  have hdel : delivered s.bus.plan (expand [.write ((regHeader s.cfg r wr).take 1)]) =
      ((regHeader s.cfg r wr).map Slot.write ++ []).take 1 := by rw [hplan]; rfl
  rw [← hdel] at hd
  obtain ⟨t, ht, hdev⟩ := transact_next_of_headerPhase _ s _ _ hd hp
  exact ⟨t, ht, hdev⟩

/-- Settles O13: by the slot rejected, for each shape; a cut header leaves no phase with an effect. -/
theorem malformedShapesRefused : Obligations.MalformedShapesRefused := by
  refine ⟨fun s ops code x xs hd => ?_, fun s ops xs hd => ?_, fun s ops b0 xs hf hd => ?_, fun s r hwf hplan =>
    ⟨fun data n => transact_readInWrite r data n s hwf hplan, fun data n => transact_writeInRead r data n s hwf hplan,
      fun data => transact_writeTooLong r data s hwf hplan, fun n => transact_readTooLong r n s hwf hplan,
      transact_halfHeader r true s hplan⟩⟩
  · exact transact_reject .slotAfterFast ops [.write (fcByte code), x] xs s hd
      (deliverSlots_afterFast code x (csLow ops s) rfl)
  · exact transact_reject .slotDirection ops [.read] xs s hd (deliverSlots_readFirst (csLow ops s) rfl)
  · exact transact_reject .slotDirection ops [.write b0, .read] xs s hd
      (deliverSlots_readSecond b0 (csLow ops s) rfl hf)

end Sys2Proof.Machine
end

section
/-! SUPPORT. O15, O16, O18 to O20 and O33: the register transactions in the terms of the tables of R130 and R131, and
the frame of every instruction (R136). -/

namespace Sys2Proof.Machine

/-! ### A direction the access right forbids (R28, R111) -/

/-- The header of a register whose access right does not allow the direction makes the decoder reject (R111). -/
theorem deliverSlots_accessRight (r : Reg) (wr : Bool) (s : State) (hwf : s.cfg.wf = true) (hp : s.dec.phase = .hdr0)
    (ha : accessAllowed r wr = false) :
    (deliverSlots ((regHeader s.cfg r wr).map .write) s).1.dec.phase = .reject .accessRight := by
  have hphase : (headerPhase s.cfg (headerTaken r wr (regAddr s.cfg r).fileId (regAddr s.cfg r).subAddress s.dec)).1 =
      .reject .accessRight := by
    simp [headerPhase, headerTaken, catalogLookup_regAddr s.cfg hwf r, ha]
  rw [map_regHeader, deliverSlots, deliverSlot_header0 _ _ _ s hp]
  simp only [deliverSlots, deliverSlot, deviceSlot, slotsTaken_dec, slotsTaken_cfg, headerStarted, enterData_phase,
    slot1, joinSub_high, hdrSubLow_headerByte1, joinSub_parts, hdrMode_headerByte1]
  exact hphase

/-- A transaction that opens with such a header, carried whole, is refused, whatever its data phase. -/
theorem transact_accessRight (r : Reg) (wr : Bool) (ops : List SubOp) (s : State) (hwf : s.cfg.wf = true)
    (hplan : s.bus.plan = .ok) (ha : accessAllowed r wr = false) :
    transact (.write (regHeader s.cfg r wr) :: ops) s = .refused .accessRight :=
  transact_reject .accessRight _ ((regHeader s.cfg r wr).map .write) (expand ops) s
    (by rw [hplan, delivered, expand_header]) (deliverSlots_accessRight r wr (csLow _ s) hwf rfl ha)

/-! ### RD and WR (R130, R131) -/

/-- The first `n` bytes of what a read samples, as the table of R130 lists them. -/
theorem take_regBytes (cfg : Config) (d : Device) (free : BitVec 32) (r : Reg) (n : Nat) (hr : readable r = true)
    (hn : n ≤ regLength r) :
    ((regBytes cfg d free r).take n).length = n ∧
      ∀ k, k < n → ((regBytes cfg d free r).take n)[k]? = some (registerByte cfg d free r k) := by
  refine ⟨List.length_take_of_le (by rwa [regBytes_length cfg d free r hr]), fun k hk => ?_⟩
  rw [List.getElem?_take_of_lt hk, regBytes_getElem? cfg d free r k hr (by omega)]

/-- Settles O15: the bytes are the front of the snapshot; a failing transport is a cut read, a refusal the slot that the
decoder rejects. -/
theorem rdReturnsTheRegister : Obligations.RdReturnsTheRegister := by
  intro s r n hwf
  refine ⟨fun hplan hr hn => ?_, fun k e hplan hr hn => ?_, fun hplan hr hn => ?_, fun hplan hr => ?_⟩
  · obtain ⟨hlen, hbytes⟩ := take_regBytes s.cfg s.dev (drawWord s) r n hr hn
    obtain ⟨d, hd⟩ := execRd_ok r n s hwf hplan hr hn
    exact ⟨d, _, hlen, hbytes, hd⟩
  · have hcut : CutShort s.bus.plan k (.error e) := .inl ⟨e, hplan, rfl⟩
    obtain ⟨t, -, ht, ⟨-, -, -, hres, -⟩, -, hdev⟩ := hcut.execRd_next hwf r n hr hn
    exact ⟨t, ht, hres e rfl, hdev⟩
  · exact transact_readTooLong r n (loadHeader r false s) hwf hplan hr hn
  · exact transact_accessRight r false [.read n] (loadHeader r false s) hwf hplan hr

/-- Settles O16: the commit is the table's; a failing transport is a cut write, a refusal the slot that the decoder
rejects. -/
theorem wrCommitsTheBytes : Obligations.WrCommitsTheBytes := by
  intro s r data hwf
  refine ⟨fun hplan hr hn => ?_, fun k e hplan hr hn => ?_, fun hplan hr hn => ?_, fun hplan hr => ?_⟩
  · obtain ⟨d, hd⟩ := execWr_ok r data s hwf hplan hr hn
    exact ⟨d, _, commitWrite_effect s.cfg r data s.dev hr, hd⟩
  · have hcut : CutShort s.bus.plan k (.error e) := .inl ⟨e, hplan, rfl⟩
    obtain ⟨t, ht, ⟨-, -, -, hres, -⟩, -⟩ := hcut.execWr_next hwf r data hr hn
    exact ⟨t, ht, hres e rfl⟩
  · exact transact_writeTooLong r data (loadHeader r true s) hwf hplan hr hn
  · exact transact_accessRight r true [.write data] (loadHeader r true s) hwf hplan hr

/-! ### RDU32 and WRU32 (R132 to R134) -/

/-- Every register holds a word (R28). -/
theorem four_le_regLength (r : Reg) : 4 ≤ regLength r := by cases r <;> decide

/-- Where the transaction did not succeed no value is assembled (R132). -/
theorem assembleValue_of_ret_ne_ok {s : State} (h : s.bus.ret ≠ .ok) : assembleValue s = s := by
  unfold assembleValue
  split
  · exact absurd ‹_› h
  · rfl
  · rfl

/-- Settles O18: the value is assembled from the four bytes that `RD` returns. -/
theorem rdu32ReadsAWord : Obligations.Rdu32ReadsAWord := by
  refine ⟨fun s r hwf hplan hr => ?_, fun s t r ht hret => ?_⟩
  · obtain ⟨hlen, hbytes⟩ := take_regBytes s.cfg s.dev (drawWord s) r 4 hr (four_le_regLength r)
    obtain ⟨d, hd⟩ := execRdu32_ok r s hwf hplan hr (four_le_regLength r)
    refine ⟨d, _, unle32 ((regBytes s.cfg s.dev (drawWord s) r).take 4), hlen, hbytes, fun k hk => ?_, hd⟩
    rw [extract_unle32_k _ k hk, List.getD_eq_getElem?_getD, hbytes k hk, Option.getD_some]
  · have hrd : execRd r 4 s = .next t := ht
    simp only [exec, execRdu32, hrd, assembleValue_of_ret_ne_ok hret]

/-- A 32-bit register overwritten with all four bytes of a word holds the word (R131, R133). -/
theorem unle32_patch_le32 (old v : BitVec 32) : unle32 (patch (le32 old) (le32 v)) = v := by
  rw [patch_all (le32 old) (le32 v) le_rfl, unle32_le32]

/-- Settles O19. -/
theorem wru32WritesAWord : Obligations.Wru32WritesAWord := by
  refine fun s r v => ⟨rfl, fun hwf hplan hr => ?_⟩
  obtain ⟨d, hd⟩ := execWr_ok r (le32 v) s hwf hplan hr (four_le_regLength r)
  refine ⟨d, _, commitWrite_effect s.cfg r (le32 v) s.dev hr, ?_, ?_, hd⟩
  · rintro rfl
    exact unle32_patch_le32 s.dev.sysCfg v
  · rintro rfl
    exact unle32_patch_le32 s.dev.txFctrl v

/-- A register of plain storage reads back what was written: the bytes sent, then its old ones (R91, R131). -/
theorem regBytes_commitWrite (cfg : Config) (r : Reg) (data : List Byte) (d : Device) (free : BitVec 32)
    (hp : plainStorage r = true) (hn : data.length ≤ regLength r) :
    regBytes cfg (commitWrite cfg r data d) free r = patch (regBytes cfg d free r) data := by
  cases r with
  | eui64 => exact euiBytes_euiOfBytes _ (patch_length _ _ hn)
  | sysCfg => exact le32_unle32 _ (patch_length _ _ hn)
  | txFctrl => exact le32_unle32 _ (patch_length _ _ hn)
  | devId | sysStatus | rxFinfo | txBuffer | rxBuffer => cases hp

/-- Plain storage is readable and writable (R28, R91). -/
theorem plainStorage_access {r : Reg} (h : plainStorage r = true) : readable r = true ∧ writable r = true := by
  cases r with
  | eui64 | sysCfg | txFctrl => exact ⟨rfl, rfl⟩
  | devId | sysStatus | rxFinfo | txBuffer | rxBuffer => cases h

/-- The word that `RDU32` carried whole leaves is the front of the register (R132). -/
theorem execRdu32_rval {r : Reg} {s : State} (hwf : s.cfg.wf = true) (hplan : s.bus.plan = .ok)
    (hr : readable r = true) :
    ∃ u, execRdu32 r s = .next u ∧ u.regs.rval = unle32 ((regBytes s.cfg s.dev (drawWord s) r).take 4) := by
  obtain ⟨d, hd⟩ := execRdu32_ok r s hwf hplan hr (four_le_regLength r)
  exact ⟨_, hd, rfl⟩

/-- The front of a register of plain storage, once the four bytes of a word are written to it, is the word. -/
theorem unle32_take_commitWrite (cfg : Config) {r : Reg} (v : BitVec 32) (d : Device) (free : BitVec 32)
    (hp : plainStorage r = true) : unle32 ((regBytes cfg (commitWrite cfg r (le32 v) d) free r).take 4) = v := by
  rw [regBytes_commitWrite cfg r (le32 v) d free hp (four_le_regLength r), patch, List.take_left' (le32_length v),
    unle32_le32]

/-- Settles O20: what `RDU32` assembles is the front of the register, which the four bytes of `WRU32` have replaced. -/
theorem littleEndianRoundTrip : Obligations.LittleEndianRoundTrip := by
  refine ⟨unle32_le32, le32_unle32, fun s r v hwf hplan hp => ?_⟩
  obtain ⟨hr, hw⟩ := plainStorage_access hp
  obtain ⟨d, hd⟩ := execWr_ok r (le32 v) s hwf hplan hw (four_le_regLength r)
  obtain ⟨t, ht, hcfg, hplan', hdev⟩ : ∃ t, exec (.wru32 r v) s = .next t ∧ t.cfg = s.cfg ∧ t.bus.plan = .ok ∧
      t.dev = commitWrite s.cfg r (le32 v) s.dev := ⟨_, hd, rfl, rfl, rfl⟩
  obtain ⟨u, hu, hval⟩ := execRdu32_rval (hcfg ▸ hwf) hplan' hr
  rw [hcfg, hdev, unle32_take_commitWrite s.cfg v s.dev _ hp] at hval
  exact ⟨t, u, ht, hu, hval⟩

/-! ### The frame of every instruction (R136) -/

/-- Settles O33, from the inversion lemma of all instructions. -/
theorem everyInstructionIsOneTransaction : Obligations.EveryInstructionIsOneTransaction := by
  intro i s t h
  obtain ⟨h0, h1, c, bytes, v, dec, dev, hist, pool, ctr, hph, heff, rfl⟩ := exec_inv i s t h
  refine ⟨⟨bytes, hist, _, rfl, .inl rfl, heff.emits_airTx⟩, rfl, hph, rfl, rfl, rfl, rfl, rfl, fun hplan => ?_⟩
  rw [hplan]
  exact ⟨rfl, rfl, rfl⟩

end Sys2Proof.Machine
end

section
/-! SUPPORT. O27 to O32: the fast commands as the device's action on their code, and `FC` carried whole, failing or
refused in the terms of that action (R150 to R157). -/

namespace Sys2Proof.Machine

/-! ### The action of a code (R150) -/

/-- The code is that of a command with a rule: one of the five, `FC.DRXDB` apart (R150, R156). -/
def HasRule (cfg : Config) (code : BitVec 5) : Prop :=
  code = cfg.cmd.tx ∨ code = cfg.cmd.rx ∨ code = cfg.cmd.idle ∨ code = cfg.cmd.clrirq

/-- The codes with a rule are the assigned ones but that of `FC.DRXDB` (R108). -/
theorem hasRule_of_assigned {cfg : Config} {code : BitVec 5} (ha : assignedCode cfg code = true)
    (hne : code ≠ cfg.cmd.drxdb) : HasRule cfg code := by
  by_contra h
  simp only [HasRule, not_or] at h
  obtain ⟨htx, hrx, hidle, hclrirq⟩ := h
  have hf := (assignedCode_eq_false_iff cfg code).mpr ⟨htx, hrx, hidle, hne, hclrirq⟩
  exact Bool.false_ne_true (hf.symm.trans ha)

/-- The device acts on a code with a rule (R150). -/
theorem HasRule.command_next {cfg : Config} {code : BitVec 5} (h : HasRule cfg code) (hwf : cfg.wf = true)
    (d : Device) : ∃ out, command cfg code d = .next out := by
  obtain ⟨htx, hrx, hidle, -, hclrirq⟩ := command_named cfg hwf d
  rcases h with rfl | rfl | rfl | rfl
  · exact ⟨_, htx⟩
  · exact ⟨_, hrx⟩
  · exact ⟨_, hidle⟩
  · exact ⟨_, hclrirq⟩

/-- An idle transceiver with a frame to send starts it (R153). -/
theorem commandTx_starts {d : Device} (hi : d.trx = .idle) (hl : 2 ≤ (frameLength d.txFctrl).toNat) :
    commandTx d = ({ d with trx := .tx }, [.airTx (airFrame d)]) := by
  simp only [commandTx, hi, if_pos hl]

/-- A busy transceiver, or a length under the two bytes of the FCS, leaves the mode unknown (R153). -/
theorem commandTx_unknown {d : Device} (h : d.trx ≠ .idle ∨ (frameLength d.txFctrl).toNat < 2) :
    commandTx d = ({ d with trx := .unknown }, []) := by
  unfold commandTx
  split
  · rename_i hi
    rw [if_neg (Nat.not_le.mpr (h.resolve_left (not_not.mpr hi)))]
  · rfl
  · rfl
  · rfl

/-- `FC.RX` at commit, as one equation in the mode (R154). -/
theorem commandRx_eq (d : Device) :
    commandRx d = ({ d with trx := if d.trx = .idle then .rx else .unknown }, []) := by
  cases h : d.trx <;> simp [commandRx, h]

/-- The frame handed to the radio is the first `TXFLEN - 2` bytes of `TX_BUFFER` (R153, R196). -/
theorem airFrame_bytes (d : Device) :
    (airFrame d).length = (frameLength d.txFctrl).toNat - 2 ∧
      ∀ k, k < (frameLength d.txFctrl).toNat - 2 → (airFrame d)[k]? = some (txByte d k) := by
  refine ⟨bytesFrom_length _ _ _, fun k hk => ?_⟩
  rw [airFrame, bytesFrom_getElem? _ _ _ _ hk, Nat.zero_add]

/-- An idle transceiver enables no event (R155, R202). -/
theorem enabled_idle (ev : RadioEvent) : enabled .idle ev = false := by cases ev <;> rfl

/-! ### `FC` by how the device acts and how TRANSPORT carries it -/

section

variable {s : State}

/-- A command carried whole that emits nothing: its record, and the device as the action leaves it (R150). -/
theorem issue_quiet {code : BitVec 5} {dev : Device} (hplan : s.bus.plan = .ok)
    (hc : command s.cfg code s.dev = .next (dev, [])) :
    ∃ d, issue code.toNat s =
      .next (completed [.write [fcByte code.toNat]] [fcByte code.toNat] [] .ok d
        { s with regs := { s.regs with cmd := fcByte code.toNat }, dev := dev }) :=
  issue_ok code.toNat s hplan dev [] (by rwa [ofNat_code])

/-- On a failing transport a command ends with `TransportError`, unless the device gets the byte and refuses it
(R84, R150). -/
theorem issue_fail {k e code : Nat} (hplan : s.bus.plan = .fail k e)
    (h : k = 0 ∨ ∃ out, command s.cfg (BitVec.ofNat 5 code) s.dev = .next out) :
    ∃ t, issue code s = .next t ∧ t.result = some (.error (.transport e)) := by
  have hcut : CutShort s.bus.plan k (.error e) := .inl ⟨e, hplan, rfl⟩
  obtain rfl | hk := Nat.eq_zero_or_pos k
  · obtain ⟨t, ht, ⟨-, -, -, hres, -⟩, -⟩ := hcut.issue_next_of_undelivered code
    exact ⟨t, ht, hres e rfl⟩
  · obtain ⟨out, hc⟩ := h.resolve_left hk.ne'
    obtain ⟨t, ht, ⟨-, -, -, hres, -⟩, -⟩ := hcut.issue_next_of_delivered hk code out hc
    exact ⟨t, ht, hres e rfl⟩

/-- A command the device acts on ends with `TransportError` wherever the transport fails (R84). -/
theorem issue_fail_of_command {code : BitVec 5} {out : Device × List HistEvent}
    (hc : command s.cfg code s.dev = .next out) (k e : Nat) (hplan : s.bus.plan = .fail k e) :
    ∃ t, issue code.toNat s = .next t ∧ t.result = some (.error (.transport e)) :=
  issue_fail hplan (.inr ⟨out, by rwa [ofNat_code]⟩)

/-- `FC.IDLE` carried whole: the mode is idle, and the next transaction is again one carried whole (R155). -/
theorem execFcIdle_ok (hwf : s.cfg.wf = true) (hplan : s.bus.plan = .ok) :
    ∃ t, exec .fcIdle s = .next t ∧ t.cfg = s.cfg ∧ t.bus.plan = .ok ∧ t.dev = { s.dev with trx := .idle } := by
  obtain ⟨-, -, hidle, -⟩ := command_named s.cfg hwf s.dev
  obtain ⟨d, hd⟩ := issue_quiet hplan hidle
  exact ⟨_, hd, rfl, rfl, rfl⟩

/-- A delivered byte of the code of `FC.DRXDB` is refused (R156). -/
theorem issue_drxdb (hwf : s.cfg.wf = true) (hd : deliveredCount s.bus.plan 1 = 1) {code : Nat}
    (hcode : BitVec.ofNat 5 code = s.cfg.cmd.drxdb) : issue code s = .refused .delayedDoubleBufferedRx := by
  obtain ⟨-, -, -, hdrxdb, -⟩ := command_named s.cfg hwf s.dev
  obtain ⟨d, hissue⟩ := issue_any code s
  rw [hissue, if_neg (by omega), hcode, hdrxdb]

end

/-! ### The statements -/

/-- Settles O27: the action is that of the code, the refusals are the commit's, and a transport failure is that of any
command. -/
theorem fcRunsTheCommand : Obligations.FcRunsTheCommand := by
  refine fun s code hwf => ⟨fun hplan hrule => ?_, fun hplan => ?_, fun hplan => ?_, fun k e hplan h => ?_⟩
  · obtain ⟨⟨dev', hist⟩, hc⟩ := HasRule.command_next hrule hwf s.dev
    obtain ⟨htx, hrx, hidle, -, hclrirq⟩ := command_named s.cfg hwf s.dev
    have hout {c : BitVec 5} {out : Device × List HistEvent} (hn : command s.cfg c s.dev = .next out)
        (hcode : BitVec.ofNat 5 code = c) : (dev', hist) = out :=
      Host.Outcome.next.inj (hc.symm.trans (hcode ▸ hn))
    obtain ⟨d, hd⟩ := issue_ok code s hplan dev' hist hc
    exact ⟨d, dev', hist, _, .inl rfl, hd, hout htx, hout hrx, hout hidle, hout hclrirq⟩
  · exact issue_unassigned code s (by rw [hplan, deliveredCount])
  · exact issue_drxdb hwf (by rw [hplan, deliveredCount])
  · exact issue_fail hplan (h.symm.imp_right fun ⟨ha, hne⟩ => (hasRule_of_assigned ha hne).command_next hwf s.dev)

/-- Settles O28, by the two outcomes of the commit. -/
theorem fcTxStartsTheFrame : Obligations.FcTxStartsTheFrame := by
  refine ⟨fun cfg hcmd => by rw [encode, hcmd]; rfl, fun s hwf => ?_⟩
  obtain ⟨htx, -⟩ := command_named s.cfg hwf s.dev
  refine ⟨fun hplan hi hl => ?_, fun hplan h => ?_, issue_fail_of_command htx⟩
  · rw [commandTx_starts hi hl] at htx
    obtain ⟨hlen, hbytes⟩ := airFrame_bytes s.dev
    obtain ⟨d, hd⟩ := issue_ok s.cfg.cmd.tx.toNat s hplan _ _ (by rwa [ofNat_code])
    exact ⟨d, airFrame s.dev, _, hlen, hbytes, .inl rfl, hd⟩
  · rw [commandTx_unknown h] at htx
    exact issue_quiet hplan htx

/-- Settles O29. -/
theorem fcRxEnablesTheReceiver : Obligations.FcRxEnablesTheReceiver := by
  refine ⟨fun cfg hcmd => by rw [encode, hcmd]; rfl, fun s hwf => ?_⟩
  obtain ⟨-, hrx, -⟩ := command_named s.cfg hwf s.dev
  rw [commandRx_eq] at hrx
  exact ⟨fun hplan => issue_quiet hplan hrx, issue_fail_of_command hrx⟩

/-- Settles O30: the mode it leaves enables no event, and a second command sets the mode that stands. -/
theorem fcIdleForcesIdle : Obligations.FcIdleForcesIdle := by
  refine ⟨fun cfg hcmd => by rw [encode, hcmd]; rfl, fun s hwf => ?_⟩
  obtain ⟨-, -, hidle, -⟩ := command_named s.cfg hwf s.dev
  refine ⟨fun hplan => issue_quiet hplan hidle, fun t hplan ht => ?_, issue_fail_of_command hidle⟩
  obtain ⟨t', ht', hcfg, hplan', hdev⟩ := execFcIdle_ok hwf hplan
  obtain rfl : t' = t := Host.Outcome.next.inj (ht'.symm.trans ht)
  obtain ⟨u, hu, -, -, hdev'⟩ := execFcIdle_ok (hcfg ▸ hwf) hplan'
  refine ⟨fun ev => ?_, u, hu, ?_⟩
  · rw [hdev]
    exact enabled_idle ev
  · rw [hdev', hdev]

/-- Settles O31: the mnemonic is the code's `FC`, and a byte that never arrives is a cut transaction. -/
theorem fcDrxdbRefused : Obligations.FcDrxdbRefused := by
  refine ⟨fun cfg hcmd => by rw [encode, hcmd]; rfl, fun s hwf => ⟨fun hd => ?_, fun e hplan => ?_⟩⟩
  · exact ⟨issue_drxdb hwf hd (ofNat_code _), fun code hcode => issue_drxdb hwf hd hcode⟩
  · have hcut : CutShort s.bus.plan 0 (.error e) := .inl ⟨e, hplan, rfl⟩
    obtain ⟨t, ht, ⟨-, -, -, hres, -⟩, -, hdev⟩ := hcut.issue_next_of_undelivered s.cfg.cmd.drxdb.toNat
    exact ⟨t, ht, hres e rfl, hdev⟩

/-- Settles O32. -/
theorem fcClrirqClearsAllFlags : Obligations.FcClrirqClearsAllFlags := by
  refine ⟨fun cfg hcmd => by rw [encode, hcmd]; rfl, fun s hwf => ?_⟩
  obtain ⟨-, -, -, -, hclrirq⟩ := command_named s.cfg hwf s.dev
  refine ⟨fun hplan => ?_, issue_fail_of_command hclrirq⟩
  obtain ⟨d, hd⟩ := issue_quiet hplan hclrirq
  exact ⟨d, noFlags, getFlag_noFlags, hd⟩

end Sys2Proof.Machine
end

section
/-! SUPPORT. O22 to O25: the read of `SYS_STATUS`, the host's tests on the word, and the clearing write flag by flag
(R170 to R176). -/

namespace Sys2Proof.Machine

/-! ### Reading and testing (R170, R171) -/

/-- The word a read of `SYS_STATUS` samples comes back whole through its four bytes (R132, R170). -/
theorem unle32_take_sysStatus (cfg : Config) (d : Device) (free : BitVec 32) :
    unle32 ((regBytes cfg d free .sysStatus).take 4) = statusWord cfg d.flags free :=
  unle32_le32 (statusWord cfg d.flags free)

/-- Settles O22: carried whole the value is the status word; a failing transport leaves no value and ends the
operation. -/
theorem statusReadShowsTheFlags : Obligations.StatusReadShowsTheFlags := by
  refine fun s hwf => ⟨fun hplan => ?_, fun k e hplan => ?_⟩
  · obtain ⟨d, hd⟩ := execRdu32_ok .sysStatus s hwf hplan rfl (four_le_regLength .sysStatus)
    obtain ⟨t, ht, hdev, hval, hsent⟩ : ∃ t, exec (.rdu32 .sysStatus) s = .next t ∧ t.dev = s.dev ∧
        t.regs.rval = statusWord s.cfg s.dev.flags (drawWord s) ∧
        SentBetween s t (regHeader s.cfg .sysStatus false) :=
      ⟨_, hd, rfl, unle32_take_sysStatus s.cfg s.dev (drawWord s), _, _, _, [], _, rfl, .inl rfl, by simp⟩
    refine ⟨t, ht, hdev, fun f => ?_, fun i hi => ?_, hsent⟩
    · rw [hval, statusWord_flag s.cfg hwf]
    · rw [hval, statusWord_other s.cfg s.dev.flags (drawWord s) i hi]
  · have hcut : CutShort s.bus.plan k (.error e) := .inl ⟨e, hplan, rfl⟩
    obtain ⟨t, -, ht, ⟨-, hret, -, hres, -⟩, -, hdev⟩ :=
      hcut.execRd_next hwf .sysStatus 4 rfl (four_le_regLength .sysStatus)
    exact ⟨t, rdu32ReadsAWord.2 s t .sysStatus ht (by simp [hret]), hdev, hres e rfl⟩

/-- A test against the masks of two flags at once is true if either flag's is (R171). -/
theorem test_pair (cfg : Config) (s : BitVec 32) (f g : Flag) :
    (s &&& (flagMask cfg f ||| flagMask cfg g) != 0) = (testFlag cfg s f || testFlag cfg s g) := by
  rw [testFlag, testFlag, BitVec.and_or_distrib_left, Bool.eq_iff_iff]
  simp [BitVec.or_eq_zero_iff, imp_iff_not_or]

/-- Settles O23: each test is a function of the bits at the flag positions. -/
theorem flagTestReadsTheFlag : Obligations.FlagTestReadsTheFlag := by
  refine ⟨testFlag_eq, fun cfg s => test_pair cfg s _ _, fun cfg s s' h => ?_⟩
  have hsame : ∀ f, testFlag cfg s f = testFlag cfg s' f := fun f => by rw [testFlag_eq, testFlag_eq, h f]
  refine ⟨hsame, ?_, ?_⟩
  · rw [errorMask, test_pair, test_pair, hsame, hsame]
  · rw [goodMask, test_pair, test_pair, hsame, hsame]

/-! ### The clearing write at its commit (R172 to R174) -/

/-- A word written to `SYS_STATUS` clears the flags at whose positions it has a 1 (R172). -/
theorem getFlag_commitWrite_le32 (cfg : Config) (w : BitVec 32) (d : Device) (f : Flag) :
    getFlag (commitWrite cfg .sysStatus (le32 w) d).flags f =
      (getFlag d.flags f && !w.getLsbD (flagPosition cfg f)) := by
  rw [commitWrite, getFlag_clearFlags, unle32_le32]

/-- The clearing write is determined by the flags it leaves: nothing else of the device changes (R172). -/
theorem commitWrite_le32_eq {cfg : Config} {w : BitVec 32} {d d' : Device} (hframe : d' = { d with flags := d'.flags })
    (hflags : ∀ f, getFlag d'.flags f = (getFlag d.flags f && !w.getLsbD (flagPosition cfg f))) :
    commitWrite cfg .sysStatus (le32 w) d = d' := by
  have hfl : (commitWrite cfg .sysStatus (le32 w) d).flags = d'.flags :=
    flags_ext _ _ fun f => by rw [getFlag_commitWrite_le32, hflags]
  rw [hframe, ← hfl]
  rfl

/-- A write in which no byte arrived commits nothing, so the cut header needs no case of its own (R84). -/
theorem afterWrite_dev (r : Reg) (data : List Byte) (s : State) :
    (afterWrite r data s).dev = commitWrite s.cfg r (arrived s.bus.plan data) s.dev := by
  unfold afterWrite
  split
  · rename_i h
    have hnone : arrived s.bus.plan data = [] := by rw [arrived, Nat.sub_eq_zero_of_le h.le, List.take_zero]
    rw [hnone, commitWrite_nil]
  · rfl

/-- A flag past the bytes sent gets no 1 (R173). -/
theorem bitAtFlag_past (cfg : Config) (data : List Byte) (f : Flag) (h : 8 * data.length ≤ flagPosition cfg f) :
    bitAtFlag cfg data f = false := by
  have hnone : data[flagPosition cfg f / 8]? = none := List.getElem?_eq_none (by omega)
  simp [bitAtFlag, hnone]

/-- Settles O24: whatever the plan, the commit is that of the bytes that arrived. -/
theorem w1cClearsExactlyTheOnes : Obligations.W1cClearsExactlyTheOnes := by
  refine ⟨fun s data hwf hn => ?_, fun s w hwf hplan => ?_, fun cfg d w w' h => ?_⟩
  · obtain ⟨d, hd⟩ := execWr_any .sysStatus data s hwf rfl hn
    obtain ⟨t, ht, hdev⟩ : ∃ t, exec (.wr .sysStatus data) s = .next t ∧
        t.dev = commitWrite s.cfg .sysStatus (arrived s.bus.plan data) s.dev :=
      ⟨_, hd, by simpa [completed] using afterWrite_dev .sysStatus data (loadHeader .sysStatus true s)⟩
    refine ⟨t, ht, by rw [hdev]; rfl, fun f => ?_⟩
    rw [hdev, getFlag_commitWrite]
    by_cases hf : flagPosition s.cfg f < 8 * (arrived s.bus.plan data).length
    · simp [hf]
    · simp [hf, bitAtFlag_past s.cfg _ f (Nat.le_of_not_lt hf)]
  · obtain ⟨d, hd⟩ := execWr_ok .sysStatus (le32 w) s hwf hplan rfl (four_le_regLength .sysStatus)
    exact ⟨_, hd, getFlag_commitWrite_le32 s.cfg w s.dev⟩
  · exact commitWrite_le32_eq rfl fun f => by rw [getFlag_commitWrite_le32, h f]

/-! ### The laws (R176) -/

/-- Clears combine: one after the other they are the clear of both words' ones (R176 (b)). -/
theorem commitWrite_le32_twice (cfg : Config) (w w' : BitVec 32) (d : Device) :
    commitWrite cfg .sysStatus (le32 w') (commitWrite cfg .sysStatus (le32 w) d) =
      commitWrite cfg .sysStatus (le32 (w ||| w')) d :=
  commitWrite_le32_eq rfl fun f => by
    simp only [getFlag_commitWrite_le32, BitVec.getLsbD_or, Bool.not_or, Bool.and_assoc]

/-- Clearing flags that are not set does nothing (R176 (d)). -/
theorem commitWrite_le32_unset {cfg : Config} {w : BitVec 32} {d : Device}
    (h : ∀ f, w.getLsbD (flagPosition cfg f) = true → getFlag d.flags f = false) :
    commitWrite cfg .sysStatus (le32 w) d = d :=
  commitWrite_le32_eq rfl fun f => by
    cases hw : w.getLsbD (flagPosition cfg f) with
    | false => simp
    | true => simp [h f hw]

/-- Settles O25: (a) and (b) from the combination of clears, (d) and (e) from the clear of unset flags, the rest from
the flags a clear leaves. -/
theorem w1cLaws : Obligations.W1cLaws := by
  intro cfg d
  refine ⟨fun w => ?_, fun w w' => ⟨?_, ?_⟩, fun f g hwf hne => ?_, fun w h => commitWrite_le32_unset h, ?_,
    fun w f h => ?_, fun free d' f hwf => ?_⟩
  · exact (commitWrite_le32_twice cfg w w d).trans (by rw [BitVec.or_self])
  · exact commitWrite_le32_twice cfg w w' d
  · exact (commitWrite_le32_twice cfg w' w d).trans (by rw [BitVec.or_comm])
  · have hpos : flagPosition cfg f ≠ flagPosition cfg g := fun he => hne (flagPosition_inj cfg hwf f g he).symm
    simp [getFlag_commitWrite_le32, flagMask_getLsbD, hpos]
  · exact commitWrite_le32_unset (by simp)
  · rw [getFlag_commitWrite_le32, Bool.and_eq_true] at h
    exact h.1
  · rw [getFlag_commitWrite_le32, statusWord_flag cfg hwf]

end Sys2Proof.Machine
end

section
/-! SUPPORT. O26: the instruction that each line of the driver issues, and the lines that issue a write of `SYS_STATUS`
(R177). -/

namespace Sys2Proof.Machine

open Host (Outcome)

/-! ### The encoding of a write of `SYS_STATUS` -/

/-- A header tells its register (R11, R103). -/
theorem regHeader_inj {cfg : Config} (hwf : cfg.wf = true) {r r' : Reg} {wr : Bool}
    (h : regHeader cfg r wr = regHeader cfg r' wr) : r = r' := by
  simp only [regHeader, List.cons.injEq, and_true] at h
  obtain ⟨h0, h1⟩ := h
  have hfid : (regAddr cfg r).fileId = (regAddr cfg r').fileId := by
    simpa only [hdrFid_headerByte0] using congrArg hdrFid h0
  have hsub : (regAddr cfg r).subAddress = (regAddr cfg r').subAddress := by
    have hhigh := congrArg hdrSubHigh h0
    have hlow := congrArg hdrSubLow h1
    rw [hdrSubHigh_headerByte0, hdrSubHigh_headerByte0] at hhigh
    rw [hdrSubLow_headerByte1, hdrSubLow_headerByte1] at hlow
    rw [← joinSub_parts (regAddr cfg r).subAddress, hhigh, hlow, joinSub_parts]
  have hr := catalogLookup_regAddr cfg hwf r
  rw [hfid, hsub, catalogLookup_regAddr cfg hwf r'] at hr
  exact (Option.some.inj hr).symm

/-- The instructions encoded as a header of a write and its data: `WR` and `WRU32` of that register (R131, R133). -/
theorem encode_eq_write {cfg : Config} (hwf : cfg.wf = true) {i : Instr} {r : Reg} {data : List Byte}
    (h : encode cfg i = [.write (regHeader cfg r true), .write data]) : i = .wr r data ∨ ∃ v, i = .wru32 r v := by
  cases i with
  | wr r' data' =>
    simp only [encode, List.cons.injEq, SubOp.write.injEq, and_true] at h
    obtain ⟨hr, rfl⟩ := h
    exact .inl (by rw [regHeader_inj hwf hr])
  | wru32 r' v =>
    simp only [encode, List.cons.injEq, SubOp.write.injEq, and_true] at h
    exact .inr ⟨v, by rw [regHeader_inj hwf h.1]⟩
  | rd | rdu32 | fc | fcTx | fcRx | fcIdle | fcDrxdb | fcClrirq | reservedFaMode1 | reservedFaMode2 | reservedFaMode3
  | reservedB000 | reservedB010x0 | reservedFcUnassigned => simp [encode] at h

/-! ### What a line records -/

/-- The instruction that the line at the sequencer position issues, if it issues one (R222, R230, R240, R250). -/
def lineInstr (s : State) : Option Instr :=
  match s.pos with
  | .idle | .init1 | .init3 | .init5 | .init7 | .init8 | .send5 => none
  | .init2 | .recv3 | .forceIdle1 => some .fcIdle
  | .init4 => some (.rdu32 .devId)
  | .init6 => some .fcClrirq
  | .send1 => some (.wr .txBuffer s.regs.data)
  | .send2 => some (.wru32 .txFctrl ((txLength s.regs.data.length).setWidth 32))
  | .send3 => some .fcTx
  | .send4 | .recv2 => if s.regs.polls < s.regs.bound then some (.rdu32 .sysStatus) else none
  | .send4Clear => some (.wru32 .sysStatus (flagMask s.cfg .txfrs))
  | .recv1 | .recv2Enable => some .fcRx
  | .recv2Info => some (.rdu32 .rxFinfo)
  | .recv2Data => some (.rd .rxBuffer s.regs.n)
  | .recv2Clear => some (.wru32 .sysStatus (clearValue s.cfg s.regs.s (goodMask s.cfg)))
  | .recv2ErrClear => some (.wru32 .sysStatus (clearValue s.cfg s.regs.s (errorMask s.cfg)))

/-- Between `s` and `t` the history has grown, and every transaction recorded is one of the instruction, if there is
one. -/
def RecordsOnly (i : Option Instr) (s t : State) : Prop :=
  ∃ added, t.history = s.history ++ added ∧
    ∀ ops sent got ret, HistEvent.xact ops sent got ret ∈ added → ∃ j, i = some j ∧ ops = encode s.cfg j

/-- A move that leaves the history as it was. -/
theorem RecordsOnly.of_history_eq {i : Option Instr} {s t : State} (h : t.history = s.history) : RecordsOnly i s t :=
  ⟨[], by simp [h], by simp⟩

/-- A move that adds one entry that is no transaction. -/
theorem RecordsOnly.of_entry {i : Option Instr} {s t : State} {e : HistEvent} (h : t.history = s.history ++ [e])
    (he : isTransaction e = false) : RecordsOnly i s t := by
  refine ⟨[e], h, fun ops sent got ret hx => ?_⟩
  obtain rfl := List.mem_singleton.mp hx
  cases he

/-- An instruction records one transaction, its own (R136). -/
theorem exec_recordsOnly {i : Instr} {s t : State} (h : exec i s = .next t) : RecordsOnly (some i) s t := by
  obtain ⟨⟨got, hist, added, hh, hrec, hair⟩, -⟩ := everyInstructionIsOneTransaction i s t h
  refine ⟨added, hh, fun ops sent got' ret hx => ⟨i, rfl, ?_⟩⟩
  have hmem : HistEvent.xact ops sent got' ret =
      .xact (encode s.cfg i) (sentBytes (delivered s.bus.plan (expand (encode s.cfg i)))) got (planRet s.bus.plan) ∨
      HistEvent.xact ops sent got' ret ∈ hist := by
    rcases hrec with rfl | rfl <;> simpa [or_comm] using hx
  rcases hmem with he | hm
  · exact (HistEvent.xact.inj he).1
  · obtain ⟨frame, he⟩ := hair _ hm
    cases he

/-- After a transaction the sequence either stops there or goes on (R251). -/
theorem afterXact_inv {o : Outcome State Fault Refusal} {k : State → State} {t : State}
    (h : afterXact o k = .next t) : ∃ v, o = .next v ∧ (t = v ∨ t = k v) := by
  unfold afterXact at h
  split at h
  · split at h <;> cases h
    · exact ⟨_, rfl, .inr rfl⟩
    · exact ⟨_, rfl, .inl rfl⟩
    · exact ⟨_, rfl, .inl rfl⟩
  · cases h
  · cases h

/-- A line that issues an instruction records that one transaction and no other. -/
theorem afterXact_recordsOnly (i : Instr) {s u t : State} {k : State → State}
    (h : afterXact (exec i u) k = .next t) (hcfg : u.cfg = s.cfg) (hu : u.history = s.history)
    (hk : ∀ v, (k v).history = v.history) : RecordsOnly (some i) s t := by
  obtain ⟨v, hv, htv⟩ := afterXact_inv h
  obtain ⟨added, hh, hx⟩ := exec_recordsOnly hv
  have ht : t.history = v.history := by
    rcases htv with rfl | rfl
    · rfl
    · exact hk v
  exact ⟨added, by rw [ht, hh, hu], hcfg ▸ hx⟩

/-- A poll records its read of `SYS_STATUS` (R233, R242). -/
theorem poll_recordsOnly {s t : State} {k : State → State} (h : poll s k = .next t)
    (hk : ∀ v, (k v).history = v.history) : RecordsOnly (some (.rdu32 .sysStatus)) s t :=
  afterXact_recordsOnly _ h rfl rfl fun _ => hk _

/-- The copy of `recv` records its read of `RX_BUFFER` (R243). -/
theorem recv2Data_recordsOnly {s t : State} (h : recv2Data s = .next t) :
    RecordsOnly (some (.rd .rxBuffer s.regs.n)) s t := by
  unfold recv2Data at h
  split at h
  · rename_i u hu
    obtain ⟨v, hv, htv⟩ := afterXact_inv h
    cases hv
    obtain ⟨added, hh, hx⟩ := exec_recordsOnly (i := .rd .rxBuffer s.regs.n) hu
    exact ⟨added, by rcases htv with rfl | rfl <;> exact hh, hx⟩
  · cases h
  · cases h

/-- Every line records at most the instruction it issues. -/
theorem runLine_recordsOnly {s t : State} (h : runLine s = .next t) : RecordsOnly (lineInstr s) s t := by
  unfold lineInstr
  unfold runLine at h
  cases hp : s.pos <;> simp only [hp] at h ⊢
  case idle | init7 | init8 | send5 => cases h; exact .of_history_eq rfl
  case init1 | init3 => cases h; exact .of_entry rfl rfl
  case init5 =>
    unfold init5 at h
    split at h <;> cases h <;> exact .of_history_eq rfl
  case send4 =>
    unfold send4 at h
    split at h
    · rw [if_pos ‹_›]
      exact poll_recordsOnly h fun v => by split <;> rfl
    · cases h; exact .of_history_eq rfl
  case recv2 =>
    unfold recv2 at h
    split at h
    · rw [if_pos ‹_›]
      exact poll_recordsOnly h fun v => (recvBranch_hostOnly v).2.2.2.2.1
    · cases h; exact .of_history_eq rfl
  case recv2Data => exact recv2Data_recordsOnly h
  all_goals exact afterXact_recordsOnly _ h rfl rfl fun _ => rfl

/-- An event changes nothing of the history but for its own entry. -/
theorem applyEvent_history (ev : RadioEvent) (s : State) : (applyEvent ev s).history = s.history := by cases ev <;> rfl

/-- While an operation runs, a step of any agent records at most the instruction of the current line. -/
theorem step_recordsOnly {s t : State} (hp : s.pos ≠ .idle) (h : step s = .next t) :
    RecordsOnly (lineInstr s) s t := by
  have host : ∀ u : State, u.pos ≠ .idle → hostMove u = .next t → RecordsOnly (lineInstr u) u t :=
    fun u hu h => runLine_recordsOnly ((hostMove_line hu).symm.trans h)
  cases hts : s.turns with
  | nil => exact host s hp ((step_unscheduled hts).symm.trans h)
  | cons turn ts =>
    cases turn with
    | host p =>
      exact host { s with turns := ts, bus := { s.bus with plan := p } } hp ((step_host hts).symm.trans h)
    | radio ev =>
      rw [step_radio hts] at h
      cases h
      rcases radioMove_cases ev { s with turns := ts } with ⟨-, he⟩ | he
      · exact .of_entry (e := .radio ev) (by rw [he, applyEvent_history]) rfl
      · exact .of_history_eq (by rw [he])
    | abandon =>
      rw [step_abandon_running hts hp] at h
      cases h
      exact .of_history_eq rfl

/-- The lines that issue a write of `SYS_STATUS` (R177). -/
theorem pos_of_lineInstr_statusWrite {s : State} {i : Instr} (h : lineInstr s = some i)
    (hi : (∃ data, i = .wr .sysStatus data) ∨ ∃ v, i = .wru32 .sysStatus v) :
    s.pos = .send4Clear ∨ s.pos = .recv2Clear ∨ s.pos = .recv2ErrClear := by
  unfold lineInstr at h
  rcases hi with ⟨data, rfl⟩ | ⟨v, rfl⟩ <;> cases hp : s.pos <;> simp [hp] at h ⊢

/-! ### The clearing writes -/

/-- A step whose line writes a word to `SYS_STATUS`, carried whole: the history gains the record of that write. -/
theorem step_statusWrite {s : State} {w : BitVec 32} {k : State → State} (hwf : s.cfg.wf = true) (hts : s.turns = [])
    (hplan : s.bus.plan = .ok) (hp : s.pos ≠ .idle) (hline : runLine s = afterXact (execWru32 .sysStatus w s) k)
    (hk : ∀ v, (k v).history = v.history) :
    ∃ t, step s = .next t ∧
      t.history = s.history ++ [.xact [.write (regHeader s.cfg .sysStatus true), .write (le32 w)]
        (regHeader s.cfg .sysStatus true ++ le32 w) [] .ok] := by
  obtain ⟨d, hd⟩ := execWr_ok .sysStatus (le32 w) s hwf hplan rfl (four_le_regLength .sysStatus)
  have hstep := (step_unscheduled hts).trans ((hostMove_line hp).trans (hline.trans (afterXact_ok k hd rfl)))
  exact ⟨_, hstep, hk _⟩

/-- What the device holds does not tell the observed value from the constant: at a flag that is set the observed word
has its 1, at one that is not a 1 does nothing (R177). -/
theorem commitWrite_observed_eq_constant (cfg : Config) (d : Device) (free m : BitVec 32) (hwf : cfg.wf = true) :
    commitWrite cfg .sysStatus (le32 (statusWord cfg d.flags free &&& m)) d =
      commitWrite cfg .sysStatus (le32 m) d :=
  commitWrite_le32_eq rfl fun f => by
    rw [getFlag_commitWrite_le32, BitVec.getLsbD_and, statusWord_flag cfg hwf]
    cases getFlag d.flags f <;> rfl

/-- Settles O26: the three lines carried whole; by the record of every line no other one issues such a write; and the
flags the two readings leave. -/
theorem clearingWritesOfTheDriver : Obligations.ClearingWritesOfTheDriver := by
  refine ⟨fun s hwf hts hplan => ⟨fun hp => ?_, fun hp => ?_, fun hp => ?_⟩,
    fun s t data sent got ret added hwf hp hstep hh hx => ?_, commitWrite_observed_eq_constant⟩
  · have hline : runLine s = send4Clear s := by rw [runLine, hp]
    exact step_statusWrite hwf hts hplan (by simp [hp]) hline fun _ => rfl
  · have hline : runLine s = recv2Clear s := by rw [runLine, hp]
    exact step_statusWrite hwf hts hplan (by simp [hp]) hline fun _ => rfl
  · have hline : runLine s = recv2ErrClear s := by rw [runLine, hp]
    exact step_statusWrite hwf hts hplan (by simp [hp]) hline fun _ => rfl
  · obtain ⟨added', hh', hall⟩ := step_recordsOnly hp hstep
    obtain rfl : added = added' := List.append_cancel_left (hh.symm.trans hh')
    obtain ⟨i, hi, henc⟩ := hall _ sent got ret hx
    exact pos_of_lineInstr_statusWrite hi ((encode_eq_write hwf henc.symm).imp_left fun h => ⟨data, h⟩)

end Sys2Proof.Machine
end

section
/-! SUPPORT. O60: the frame-length arithmetic, on transmit and on receive (R191, R192). -/

namespace Sys2Proof.Machine

/-- The transmit length counts the two bytes of the FCS and wraps at 10 bits (R191). -/
theorem txLength_toNat (n : Nat) : (txLength n).toNat = (n + 2) % 1024 := BitVec.toNat_ofNat (n + 2) 10

/-- The length as it goes to `TX_FCTRL`, the upper 22 bits 0 (R232). -/
theorem txLength_setWidth (n : Nat) : (txLength n).setWidth 32 = BitVec.ofNat 32 ((n + 2) % 1024) := by
  apply BitVec.eq_of_toNat_eq
  rw [BitVec.toNat_setWidth, txLength_toNat, BitVec.toNat_ofNat]

/-- A length that fits 10 bits comes back from the register it was written to (R32, R191). -/
theorem frameLength_ofNat_toNat {n : Nat} (h : n < 1024) : (frameLength (BitVec.ofNat 32 n)).toNat = n := by
  simp only [frameLength, BitVec.extractLsb'_toNat, BitVec.toNat_ofNat, Nat.shiftRight_zero]
  omega

/-- The payload of a frame is at most 1021 bytes (R192). -/
theorem payloadLength_le (l : BitVec 10) : payloadLength l ≤ 1021 := Nat.sub_le_sub_right (Nat.le_pred_of_lt l.isLt) 2

/-- Subtraction that stops at zero, as a case split (R192). -/
theorem payloadLength_eq_ite (l : BitVec 10) : payloadLength l = if 2 ≤ l.toNat then l.toNat - 2 else 0 := by
  rw [payloadLength]
  split <;> omega

/-- Settles O60: the wraps are cases of the reduction modulo 1024, and the receive side is `payloadLength`. -/
theorem frameLengthArithmetic : Obligations.FrameLengthArithmetic :=
  ⟨txLength_toNat, txLength_toNat 1021, txLength_toNat 1022, txLength_toNat 1023, txLength_toNat 1024,
    fun _ => ⟨rfl, payloadLength_eq_ite _, rfl, payloadLength_le _⟩⟩

end Sys2Proof.Machine
end

section
/-! SUPPORT. O35 to O38: which RADIO events happen, and what each leaves in the device (R202 to R208). -/

namespace Sys2Proof.Machine

/-! ### Which events happen (R202) -/

/-- The table of R202: the end of a transmission in `TX`, the receive events in `RX`, every event in `UNKNOWN`. -/
theorem enabled_iff (m : Trx) (ev : RadioEvent) :
    enabled m ev = true ↔ (m = .tx ∧ ev = .txDone) ∨ (m = .rx ∧ ev ≠ .txDone) ∨ m = .unknown := by
  cases ev <;> cases m <;> simp [enabled]

/-- A scheduled event that the mode enables and whose parameters fit is recorded and has its effect. -/
theorem step_radio_enabled {s : State} {ev : RadioEvent} {ts : List Turn} (hts : s.turns = .radio ev :: ts)
    (he : enabled s.dev.trx ev = true) (ha : admissible ev = true) :
    step s = .next (applyEvent ev { s with turns := ts, history := s.history ++ [.radio ev] }) := by
  rw [step_radio hts, radioMove, if_pos (Bool.and_eq_true_iff.mpr ⟨he, ha⟩)]

/-- A scheduled event that was recorded was enabled: one that cannot happen leaves the history as it was. -/
theorem enabled_of_recorded {s t : State} {ev : RadioEvent} {ts : List Turn} (hts : s.turns = .radio ev :: ts)
    (hstep : step s = .next t) (hh : t.history = s.history ++ [.radio ev]) : enabled s.dev.trx ev = true := by
  obtain rfl : radioMove ev { s with turns := ts } = t :=
    Host.Outcome.next.inj ((step_radio hts).symm.trans hstep)
  rcases radioMove_cases ev { s with turns := ts } with ⟨he, -⟩ | he
  · exact he
  · simp [he] at hh

/-- Settles O35: an event happens exactly when it is enabled, and the table of R202 says when it is. -/
theorem radioEventsAreEnabledByTheMode : Obligations.RadioEventsAreEnabledByTheMode := by
  intro s ev ts hts ha
  rw [← enabled_iff]
  exact ⟨fun ⟨t, hstep, hh⟩ => enabled_of_recorded hts hstep hh,
    fun he => ⟨_, step_radio_enabled hts he ha, applyEvent_history _ _⟩⟩

/-! ### The events that only raise a flag (R203, R207, R208) -/

/-- Settles O36: the event is enabled, fits, and is the raising of its one flag. -/
theorem flagOnlyEvents : Obligations.FlagOnlyEvents := by
  intro s ev f ts hts h
  obtain ⟨happly, he, ha⟩ : applyEvent ev = raiseFlag f ∧ enabled s.dev.trx ev = true ∧ admissible ev = true := by
    rcases h with ⟨rfl, rfl, ht⟩ | ⟨rfl, rfl, ht⟩ | ⟨rfl, rfl, ht⟩ | ⟨⟨rfl, rfl⟩ | ⟨rfl, rfl⟩ | ⟨rfl, rfl⟩, ht⟩ <;>
      exact ⟨rfl, by rw [ht]; rfl, rfl⟩
  have htrx := applyEvent_trx ev s
  rw [happly] at htrx
  refine ⟨setFlag s.dev.flags f, getFlag_setFlag s.dev.flags f, ?_⟩
  rw [step_radio_enabled hts he ha, happly, ← htrx]
  rfl

/-! ### A good frame (R204) -/

/-- `RX_FINFO` after a good frame: the length below, the draw above (R204). -/
theorem rxFinfo_good (w : BitVec 32) (len : BitVec 10) :
    (((w >>> 10) <<< 10) ||| len.setWidth 32).extractLsb' 0 10 = len ∧
      ∀ i, 10 ≤ i → (((w >>> 10) <<< 10) ||| len.setWidth 32).getLsbD i = w.getLsbD i := by
  refine ⟨?_, fun i hi => ?_⟩
  · ext i hi
    have h32 : i < 32 := by omega
    simp [hi, h32]
  · have hshift : 10 + (i - 10) = i := by omega
    by_cases h32 : i < 32
    · simp [hshift, h32, hi]
    · rw [BitVec.getLsbD_of_ge _ _ (by omega), BitVec.getLsbD_of_ge _ _ (by omega)]

/-- `RX_BUFFER` after a good frame: the payload, then draws (R204). -/
theorem rxByte_deliverFrame (len : BitVec 10) (bytes : List Byte) (s : State) (k : Nat) :
    rxByte (deliverFrame len bytes s).dev k = bytes.getD k (Config.freeByte s.drawCtr k) := by
  have hread : memRead (memWriteBytes [] 0 bytes) k = bytes[k]? := by
    rw [memRead_memWriteBytes]
    split
    · rfl
    · rw [List.getElem?_eq_none (by omega)]
      rfl
  rw [List.getD_eq_getElem?_getD, ← hread]
  rfl

/-- Settles O37: the two flags are raised on what the frame has left. -/
theorem rxGoodDeliversTheFrame : Obligations.RxGoodDeliversTheFrame := by
  intro s len bytes ts hts hlen hm
  have he : enabled s.dev.trx (.rxGood len bytes) = true := by rcases hm with hm | hm <;> rw [hm] <;> rfl
  have ha : admissible (.rxGood len bytes) = true := beq_iff_eq.mpr hlen
  have hbyte := rxByte_deliverFrame len bytes s
  obtain ⟨hlow, hhigh⟩ := rxFinfo_good (drawWord s) len
  refine ⟨_, step_radio_enabled hts he ha, ?_, hlow, hhigh, fun k hk => ?_, fun k hk => ?_, fun g => ?_⟩
  · rw [← applyEvent_trx (.rxGood len bytes) s]
    rfl
  · refine .trans ?_ (congrArg some (hbyte k).symm)
    rw [List.getD_eq_getElem _ _ hk, List.getElem?_eq_getElem hk]
  · exact (hbyte k).trans (List.getD_eq_default _ _ hk)
  · simp only [applyEvent, raiseFlag_dev, getFlag_setFlag, deliverFrame_dev_flags]

/-! ### A frame with an error (R205, R206) -/

/-- Settles O38: `RX_FINFO` and `RX_BUFFER` are the draws of the one event as of the other, and the flags differ. -/
theorem rxErrorEvents : Obligations.RxErrorEvents := by
  intro s ev ts hts hev hm
  obtain ⟨he, ha⟩ : enabled s.dev.trx ev = true ∧ admissible ev = true := by
    rcases hev with rfl | rfl <;> rcases hm with hm | hm <;> exact ⟨by rw [hm]; rfl, rfl⟩
  refine ⟨_, step_radio_enabled hts he ha, applyEvent_history _ _, ?_⟩
  rw [← applyEvent_trx ev s]
  rcases hev with rfl | rfl
  · refine ⟨rfl, rfl, fun _ => rfl, fun _ => ⟨?_, ?_, fun g hfce hfr => ?_⟩, nofun⟩
    · simp [applyEvent, getFlag_setFlag]
    · exact getFlag_applyEvent_of_set .rxFcsError _ .rxfr
    · simp only [applyEvent, raiseFlag_dev, drawRxfr_dev_flags, scrambleRx_dev]
      split <;> simp [getFlag_setFlag, hfce, hfr]
  · exact ⟨rfl, rfl, fun _ => rfl, nofun, fun _ g => getFlag_setFlag s.dev.flags .rxphe g⟩

end Sys2Proof.Machine
end

section
/-! SUPPORT. O50: `send` line by line up to its first poll (R230 steps 1 to 3), with what each line leaves for the next,
and the frame that the programmed device hands to the radio. -/

namespace Sys2Proof.Machine

/-- A run stops where a step is refused. -/
theorem run_of_refused {s : State} {why : Refusal} (k : Nat) (h : step s = .refused why) :
    Host.Core.run core (k + 1) s = .refused why := by
  have hcore : core.step s = .refused why := h
  simp only [Host.Core.run, hcore]

/-! ### The programmed device (R191, R195, R196) -/

/-- The device once `send` has written the buffer and the length. -/
def programmed (data : List Byte) (d : Device) : Device :=
  { d with
    txBuffer := memWriteBytes d.txBuffer 0 data
    txFctrl := BitVec.ofNat 32 ((data.length + 2) % 1024) }

/-- The two writes of `send` program the device (R195). -/
theorem commitWrite_programs (cfg : Config) (data : List Byte) (d : Device) :
    commitWrite cfg .txFctrl (le32 (BitVec.ofNat 32 ((data.length + 2) % 1024))) (commitWrite cfg .txBuffer data d) =
      programmed data d := by
  simp only [commitWrite, unle32_patch_le32, programmed]

/-- `TX_BUFFER` holds the data in front of its old bytes (R131). -/
theorem txByte_programmed (data : List Byte) (d : Device) (k : Nat) :
    txByte (programmed data d) k = data.getD k (txByte d k) := by
  obtain ⟨-, hbytes⟩ := commitWrite_effect defaultConfig .txBuffer data d rfl
  exact hbytes k

/-- `TXFLEN` holds the wrapped length (R191, R232). -/
theorem frameLength_programmed (data : List Byte) (d : Device) :
    (frameLength (programmed data d).txFctrl).toNat = (data.length + 2) % 1024 :=
  frameLength_ofNat_toNat (Nat.mod_lt _ (by decide))

/-- A byte function that agrees with the front of a list lists that front. -/
theorem bytesFrom_eq_take {f : Nat → Byte} {data : List Byte} {n : Nat} (hn : n ≤ data.length)
    (h : ∀ k, k < n → data[k]? = some (f k)) : bytesFrom f 0 n = data.take n := by
  refine List.ext_getElem? fun k => ?_
  by_cases hk : k < n
  · rw [bytesFrom_getElem? f 0 n k hk, List.getElem?_take_of_lt hk, h k hk, Nat.zero_add]
  · rw [List.getElem?_eq_none (by rw [bytesFrom_length]; omega), List.getElem?_eq_none (by rw [List.length_take]; omega)]

/-- The frame of the programmed device is the front of the data (R196). -/
theorem airFrame_programmed (data : List Byte) (d : Device) :
    airFrame (programmed data d) = data.take ((data.length + 2) % 1024 - 2) := by
  have hle : (data.length + 2) % 1024 - 2 ≤ data.length := Nat.sub_le_of_le_add (Nat.mod_le _ _)
  rw [airFrame, frameLength_programmed]
  refine bytesFrom_eq_take hle fun k hk => ?_
  have hk' : k < data.length := by omega
  rw [txByte_programmed, List.getD_eq_getElem _ _ hk', List.getElem?_eq_getElem hk']

/-- `FC.TX` on the programmed device with the transceiver idle: the frame goes out, or the length has wrapped under the
two bytes of the FCS (R153, R195). -/
theorem commandTx_programmed (data : List Byte) {d : Device} (hi : d.trx = .idle) :
    commandTx (programmed data d) =
      ({ programmed data d with trx := if 2 ≤ (data.length + 2) % 1024 then .tx else .unknown },
        if 2 ≤ (data.length + 2) % 1024 then [.airTx (data.take ((data.length + 2) % 1024 - 2))] else []) := by
  have hlen := frameLength_programmed data d
  by_cases hl : 2 ≤ (data.length + 2) % 1024
  · rw [commandTx_starts (d := programmed data d) hi (by rwa [hlen]), airFrame_programmed, if_pos hl, if_pos hl]
  · rw [commandTx_unknown (.inr (by rw [hlen]; omega)), if_neg hl, if_neg hl]

/-! ### The state before each line of `send` -/

/-- `t` stands before the line `p` of the `send data` that `s` was about to call, no poll made, with nothing but HOST to
move: the device is `dev`, the history has gained `events`, the log nothing. -/
structure SendAt (s t : State) (data : List Byte) (p : Pos) (dev : Device) (events : List HistEvent) : Prop where
  cfg : t.cfg = s.cfg
  pos : t.pos = p
  lifecycle : t.lifecycle = .ready
  result : t.result = none
  turns : t.turns = []
  plan : t.bus.plan = .ok
  data : t.regs.data = data
  polls : t.regs.polls = 0
  bound : t.regs.bound = sendPollBound
  dev : t.dev = dev
  history : t.history = s.history ++ events
  diag : t.diag = s.diag

section

variable {s t u : State} {data : List Byte} {p : Pos} {dev dev' : Device} {events hist : List HistEvent}

theorem SendAt.step_eq (h : SendAt s t data p dev events) (hp : p ≠ .idle) : step t = runLine t := by
  rw [step_unscheduled h.turns, hostMove_line (h.pos ▸ hp)]

/-- The call of `send` on a `Ready` handle (R230, R275). -/
theorem sendAt_of_call {cs : List Call} (hp : s.pos = .idle) (hl : s.lifecycle = .ready)
    (hc : s.calls = .send data :: cs) (ht : s.turns = []) (hplan : s.bus.plan = .ok) :
    ∃ t, step s = .next t ∧ SendAt s t data .send1 s.dev [] := by
  refine ⟨startSend data { s with calls := cs }, ?_, rfl, rfl, hl, rfl, ht, hplan, rfl, rfl, rfl, rfl, by simp [startSend],
    rfl⟩
  rw [step_unscheduled ht, hostMove_call hp hc]
  simp only [takeCall, callReady, hl]

/-- A line that writes a register on a working link: one transaction, and the device as the commit leaves it; `u` is what
the line has prepared (R131). -/
theorem SendAt.write (h : SendAt s t data p dev events) (hp : p ≠ .idle) (hu : SendAt s u data p dev events) (q : Pos)
    (r : Reg) (bytes : List Byte) (hwf : s.cfg.wf = true) (hr : writable r = true) (hn : bytes.length ≤ regLength r)
    (hline : runLine t = afterXact (execWr r bytes u) (goTo q)) :
    ∃ v, step t = .next v ∧ SendAt s v data q (commitWrite s.cfg r bytes dev)
      (events ++ [.xact (encode s.cfg (.wr r bytes)) (regHeader s.cfg r true ++ bytes) [] .ok]) := by
  obtain ⟨d, hwrite⟩ := execWr_ok r bytes u (hu.cfg ▸ hwf) hu.plan hr hn
  have hstep := (h.step_eq hp).trans (hline.trans (afterXact_ok _ hwrite rfl))
  refine ⟨_, hstep, hu.cfg, rfl, hu.lifecycle, hu.result, hu.turns, rfl, hu.data, hu.polls, hu.bound, ?_, ?_, hu.diag⟩
  · rw [← hu.cfg, ← hu.dev]
    rfl
  · rw [← hu.cfg, ← List.append_assoc, ← hu.history]
    rfl

/-- Step 1: the data goes to the front of `TX_BUFFER` (R230). -/
theorem SendAt.writeBuffer (h : SendAt s t data .send1 dev events) (hwf : s.cfg.wf = true) (hn : data.length ≤ 1024) :
    ∃ v, step t = .next v ∧ SendAt s v data .send2 (commitWrite s.cfg .txBuffer data dev)
      (events ++ [.xact (encode s.cfg (.wr .txBuffer data)) (regHeader s.cfg .txBuffer true ++ data) [] .ok]) := by
  have hline : runLine t = send1 t := by rw [runLine, h.pos]
  exact h.write (by decide) h .send2 .txBuffer data hwf rfl hn (by rw [hline, send1, h.data])

/-- Step 1 with more data than the buffer holds (R78, R230). -/
theorem SendAt.writeBuffer_tooLong (h : SendAt s t data .send1 dev events) (hwf : s.cfg.wf = true)
    (hn : 1024 < data.length) : step t = .refused .dataTooLong := by
  have hline : runLine t = send1 t := by rw [runLine, h.pos]
  have hwrite : execWr .txBuffer data t = .refused .dataTooLong :=
    transact_writeTooLong .txBuffer data (loadHeader .txBuffer true t) (h.cfg ▸ hwf) h.plan rfl hn
  rw [h.step_eq (by decide), hline, send1, h.data, hwrite]
  rfl

/-- Step 2: the length goes to `TX_FCTRL` (R232). -/
theorem SendAt.writeLength (h : SendAt s t data .send2 dev events) (hwf : s.cfg.wf = true) :
    let lenBytes := le32 (BitVec.ofNat 32 ((data.length + 2) % 1024))
    ∃ v, step t = .next v ∧ SendAt s v data .send3 (commitWrite s.cfg .txFctrl lenBytes dev)
      (events ++ [.xact (encode s.cfg (.wr .txFctrl lenBytes)) (regHeader s.cfg .txFctrl true ++ lenBytes) [] .ok]) := by
  have hline : runLine t = send2 t := by rw [runLine, h.pos]
  have hu : SendAt s { t with regs := { t.regs with len := txLength data.length } } data .send2 dev events := { h with }
  refine h.write (by decide) hu .send3 .txFctrl _ hwf rfl le_rfl ?_
  rw [hline, send2, h.data, txLength_setWidth]
  rfl

/-- Step 3: `FC.TX`, and the loop of step 4 with no poll made (R230, R233). -/
theorem SendAt.startTx (h : SendAt s t data .send3 dev events) (hwf : s.cfg.wf = true)
    (hc : commandTx dev = (dev', hist)) :
    ∃ v, step t = .next v ∧ SendAt s v data .send4 dev'
      (events ++ .xact (encode s.cfg .fcTx) [fcByte s.cfg.cmd.tx.toNat] [] .ok :: hist) := by
  obtain ⟨htx, -⟩ := command_named s.cfg hwf dev
  obtain ⟨d, hissue⟩ := issue_ok s.cfg.cmd.tx.toNat t h.plan dev' hist (by rw [ofNat_code, h.cfg, h.dev, htx, hc])
  have hline : runLine t = send3 t := by rw [runLine, h.pos]
  have hfc : execFcTx t = issue s.cfg.cmd.tx.toNat t := by rw [execFcTx, h.cfg]
  have hstep := (h.step_eq (by decide)).trans (hline.trans (afterXact_ok _ (hfc.trans hissue) rfl))
  refine ⟨_, hstep, h.cfg, rfl, h.lifecycle, h.result, h.turns, rfl, h.data, rfl, h.bound, rfl, ?_, h.diag⟩
  rw [← List.append_assoc, ← h.history]
  rfl

end

/-- The three transactions that program and start the transmitter (R195, R230). -/
def sendEvents (cfg : Config) (data : List Byte) (emitted : List HistEvent) : List HistEvent :=
  let lenBytes := le32 (BitVec.ofNat 32 ((data.length + 2) % 1024))
  [.xact (encode cfg (.wr .txBuffer data)) (regHeader cfg .txBuffer true ++ data) [] .ok,
   .xact (encode cfg (.wr .txFctrl lenBytes)) (regHeader cfg .txFctrl true ++ lenBytes) [] .ok] ++
  .xact (encode cfg .fcTx) [fcByte cfg.cmd.tx.toNat] [] .ok :: emitted

/-- The call of `send` and its first three steps on a working link: the device is programmed and has acted on `FC.TX`. -/
theorem run_send_start {s : State} {data : List Byte} {cs : List Call} {dev' : Device} {hist : List HistEvent}
    (hwf : s.cfg.wf = true) (hp : s.pos = .idle) (hl : s.lifecycle = .ready) (hc : s.calls = .send data :: cs)
    (ht : s.turns = []) (hplan : s.bus.plan = .ok) (hn : data.length ≤ 1024)
    (htx : commandTx (programmed data s.dev) = (dev', hist)) :
    ∃ t, Host.Core.run core 4 s = .next t ∧ SendAt s t data .send4 dev' (sendEvents s.cfg data hist) := by
  obtain ⟨t₁, r₁, a₁⟩ := sendAt_of_call hp hl hc ht hplan
  obtain ⟨t₂, r₂, a₂⟩ := a₁.writeBuffer hwf hn
  obtain ⟨t₃, r₃, a₃⟩ := a₂.writeLength hwf
  rw [commitWrite_programs] at a₃
  obtain ⟨t₄, r₄, a₄⟩ := a₃.startTx hwf htx
  exact ⟨t₄, (run_of_step 3 r₁).trans <| (run_of_step 2 r₂).trans <| (run_of_step 1 r₃).trans <| run_of_step 0 r₄, a₄⟩

/-- Settles O50: the start on the programmed device; data longer than the buffer is refused by step 1. -/
theorem sendProgramsTheFrame : Obligations.SendProgramsTheFrame := by
  intro s data cs hwf hp hl hc ht hplan hi
  refine ⟨fun hn => ?_, fun hn => Nat.mod_eq_of_lt (by omega), fun hn => ?_⟩
  · obtain ⟨t, hrun, h⟩ := run_send_start hwf hp hl hc ht hplan hn (commandTx_programmed data hi)
    have hhist := h.history
    rw [sendEvents, ← List.append_assoc] at hhist
    refine ⟨t, _, hrun, h.pos, h.polls, h.bound, h.result, h.lifecycle, ?_, fun k => ?_, hhist, .inl rfl⟩
    · rw [h.dev]
      rfl
    · rw [h.dev]
      exact txByte_programmed data s.dev k
  · obtain ⟨t, hstep, h⟩ := sendAt_of_call hp hl hc ht hplan
    exact (run_of_step 1 hstep).trans (run_of_refused 0 (h.writeBuffer_tooLong hwf hn))

end Sys2Proof.Machine
end

section
/-! SUPPORT. O34 and O59: a transaction that did not succeed ends the operation around it, in every step of the machine
(R251, R252). -/

namespace Sys2Proof.Machine

open Host (Outcome)

/-- Every transaction recorded between `s` and `t` that did not succeed has ended the operation: nothing is in flight,
and of the handle is left what an early end leaves (R224, R251, R252). -/
def LossEnds (s t : State) : Prop :=
  ∀ (added : List HistEvent) (ops : List SubOp) (sent got : List Byte) (ret : XRet),
    t.history = s.history ++ added → .xact ops sent got ret ∈ added → ret ≠ .ok →
    EndedBy ret t ∧ t.bus.flight = none ∧ t.lifecycle = lifecycleAfterLoss s

section

variable {s t u : State}

/-- A move that leaves the history as it was. -/
theorem LossEnds.of_history_eq (h : t.history = s.history) : LossEnds s t := by
  intro added ops sent got ret hh hx
  obtain rfl : added = [] := by simpa [h] using hh
  cases hx

/-- A move that adds one entry that is no transaction. -/
theorem LossEnds.of_entry {e : HistEvent} (h : t.history = s.history ++ [e]) (he : isTransaction e = false) :
    LossEnds s t := by
  intro added ops sent got ret hh hx
  obtain rfl : [e] = added := List.append_cancel_left (h.symm.trans hh)
  obtain rfl := List.mem_singleton.mp hx
  cases he

/-- A transaction ends the operation as its plan says. -/
theorem LossEnds.of_plan {p : Plan} {ops : List SubOp} {sent got : List Byte} {hist : List HistEvent}
    (hair : ∀ e ∈ hist, ∃ frame, e = .airTx frame)
    (hh : t.history = s.history ++ .xact ops sent got (planRet p) :: hist)
    (hb : t.bus = { cs := .high, flight := none, plan := .ok, ret := planRet p })
    (hr : (t.lifecycle, t.pos, t.result) = planResult p s) : LossEnds s t := by
  intro added ops' sent' got' ret hadd hx hne
  obtain rfl : .xact ops sent got (planRet p) :: hist = added := List.append_cancel_left (hh.symm.trans hadd)
  obtain rfl : ret = planRet p := by
    rcases List.mem_cons.mp hx with he | hm
    · exact (HistEvent.xact.inj he).2.2.2
    · obtain ⟨frame, he⟩ := hair _ hm
      cases he
  obtain ⟨hlife, hpos, hres⟩ : t.lifecycle = (planResult p s).1 ∧ t.pos = (planResult p s).2.1 ∧
      t.result = (planResult p s).2.2 := by simp [← hr]
  rw [hb]
  cases p with
  | ok => exact absurd rfl hne
  | fail n e => exact ⟨⟨by rw [hb], by rw [hb], hpos, fun e' he => by cases he; exact hres, nofun⟩, rfl, hlife⟩
  | cut n => exact ⟨⟨by rw [hb], by rw [hb], hpos, nofun, fun _ => hres⟩, rfl, hlife⟩

/-- An instruction, whatever TRANSPORT does (R251). -/
theorem exec_lossEnds {i : Instr} (h : exec i s = .next t) : LossEnds s t := by
  obtain ⟨h0, h1, c, bytes, v, dec, dev, hist, pool, ctr, -, heff, rfl⟩ := exec_inv i s t h
  exact .of_plan (p := s.bus.plan) heff.emits_airTx rfl rfl rfl

/-- A raw transaction, whatever TRANSPORT does (R251). -/
theorem transact_lossEnds {ops : List SubOp} (h : transact ops s = .next t) : LossEnds s t := by
  obtain ⟨dec, dev, bytes, hist, pool, ctr, -, heff, rfl⟩ := transact_inv ops s t h
  exact .of_plan (p := s.bus.plan) heff.emits_airTx rfl rfl rfl

/-- After a transaction that did not succeed the sequence stops (R251). -/
theorem afterXact_lost {v : State} (k : State → State) (hr : v.bus.ret ≠ .ok) : afterXact (.next v) k = .next v := by
  unfold afterXact
  split
  · rename_i u hu
    cases hu
    split
    · exact absurd ‹_› hr
    · rfl
    · rfl
  · contradiction
  · contradiction

/-- The sequence goes on only where the transaction succeeded, and then nothing recorded was a loss (R251). -/
theorem afterXact_lossEnds {o : Outcome State Fault Refusal} {k : State → State} (h : afterXact o k = .next t)
    (ho : ∀ v, o = .next v → LossEnds s v) (hk : ∀ v, (k v).history = v.history) : LossEnds s t := by
  cases o with
  | next v =>
    by_cases hok : v.bus.ret = .ok
    · cases (afterXact_ok k rfl hok).symm.trans h
      intro added ops sent got ret hh hx hne
      obtain ⟨⟨-, hret, -⟩, -⟩ := ho v rfl added ops sent got ret ((hk v).symm.trans hh) hx hne
      exact absurd (hret.symm.trans hok) hne
    · cases (afterXact_lost k hok).symm.trans h
      exact ho _ rfl
  | fault => cases h
  | refused => cases h

/-- A line that issues an instruction. -/
theorem afterExec_lossEnds (i : Instr) {k : State → State} (h : afterXact (exec i s) k = .next t)
    (hk : ∀ v, (k v).history = v.history) : LossEnds s t :=
  afterXact_lossEnds h (fun _ => exec_lossEnds) hk

/-- The copy of `recv`, which fills the caller's buffer before the test (R243). -/
theorem recv2Data_lossEnds (h : recv2Data s = .next t) : LossEnds s t := by
  unfold recv2Data at h
  split at h
  · rename_i v hv
    refine afterXact_lossEnds h (fun w hw => ?_) fun _ => rfl
    cases hw
    have hread : LossEnds s v := exec_lossEnds (i := .rd .rxBuffer s.regs.n) hv
    exact hread
  · cases h
  · cases h

/-- Every line of every operation. -/
theorem runLine_lossEnds (h : runLine s = .next t) : LossEnds s t := by
  have hpoll {k : State → State} (hk : ∀ v, (k v).history = v.history) (h : poll s k = .next t) : LossEnds s t :=
    afterExec_lossEnds (s := { s with regs := { s.regs with polls := s.regs.polls + 1 } }) (.rdu32 .sysStatus) h
      fun _ => hk _
  unfold runLine at h
  cases hp : s.pos <;> simp only [hp] at h
  case idle | init7 | init8 | send5 => cases h; exact .of_history_eq rfl
  case init1 | init3 => cases h; exact .of_entry rfl rfl
  case init5 =>
    unfold init5 at h
    split at h <;> cases h <;> exact .of_history_eq rfl
  case init2 | recv3 | forceIdle1 => exact afterExec_lossEnds .fcIdle h fun _ => rfl
  case init4 => exact afterExec_lossEnds (.rdu32 .devId) h fun _ => rfl
  case init6 => exact afterExec_lossEnds .fcClrirq h fun _ => rfl
  case send1 => exact afterExec_lossEnds (.wr .txBuffer s.regs.data) h fun _ => rfl
  case send2 =>
    exact afterExec_lossEnds (s := { s with regs := { s.regs with len := txLength s.regs.data.length } })
      (.wru32 .txFctrl _) h fun _ => rfl
  case send3 => exact afterExec_lossEnds .fcTx h fun _ => rfl
  case send4 =>
    unfold send4 at h
    split at h
    · exact hpoll (fun v => by split <;> rfl) h
    · cases h; exact .of_history_eq rfl
  case recv2 =>
    unfold recv2 at h
    split at h
    · exact hpoll (fun v => (recvBranch_hostOnly v).2.2.2.2.1) h
    · cases h; exact .of_history_eq rfl
  case recv1 | recv2Enable => exact afterExec_lossEnds .fcRx h fun _ => rfl
  case recv2Info => exact afterExec_lossEnds (.rdu32 .rxFinfo) h fun _ => rfl
  case recv2Data => exact recv2Data_lossEnds h
  case send4Clear | recv2Clear | recv2ErrClear => exact afterExec_lossEnds (.wru32 .sysStatus _) h fun _ => rfl

/-- Every call HOST can take: a transaction by itself, or no transaction. -/
theorem takeCall_lossEnds {c : Call} (h : takeCall c s = .next t) : LossEnds s t := by
  cases c with
  | newHandle =>
    simp only [takeCall, callNewHandle] at h
    split at h <;> cases h
    exact .of_history_eq rfl
  | init =>
    simp only [takeCall, callInit] at h
    split at h <;> cases h
    exact .of_history_eq rfl
  | send | recv | forceIdle =>
    simp only [takeCall] at h
    cases (callReady_inv _ s t h).2
    exact .of_history_eq rfl
  | instr i =>
    simp only [takeCall] at h
    exact exec_lossEnds (s := { s with result := none }) (callReady_inv _ s t h).2
  | wire ops =>
    simp only [takeCall] at h
    have hwire := (callReady_inv _ s t h).2
    unfold runWire at hwire
    split at hwire
    · exact exec_lossEnds (s := { s with result := none }) hwire
    · exact transact_lossEnds (s := { s with result := none }) hwire

/-- Every move of HOST. -/
theorem hostMove_lossEnds (h : hostMove s = .next t) : LossEnds s t := by
  by_cases hp : s.pos = .idle
  · cases hc : s.calls with
    | nil =>
      cases (hostMove_wait hp hc).symm.trans h
      exact .of_history_eq rfl
    | cons c cs => exact takeCall_lossEnds (s := { s with calls := cs }) ((hostMove_call hp hc).symm.trans h)
  · exact runLine_lossEnds ((hostMove_line hp).symm.trans h)

/-- Every step of the machine. -/
theorem step_lossEnds (h : step s = .next t) : LossEnds s t := by
  cases hts : s.turns with
  | nil => exact hostMove_lossEnds ((step_unscheduled hts).symm.trans h)
  | cons turn ts =>
    cases turn with
    | host p =>
      exact hostMove_lossEnds (s := { s with turns := ts, bus := { s.bus with plan := p } })
        ((step_host hts).symm.trans h)
    | radio ev =>
      cases (step_radio hts).symm.trans h
      rcases radioMove_cases ev { s with turns := ts } with ⟨-, he⟩ | he
      · exact .of_entry (e := .radio ev) (by rw [he, applyEvent_history]) rfl
      · exact .of_history_eq (by rw [he])
    | abandon =>
      by_cases hp : s.pos = .idle
      · cases (step_abandon_idle hts hp).symm.trans h
        exact .of_history_eq rfl
      · cases (step_abandon_running hts hp).symm.trans h
        exact .of_history_eq rfl

end

/-- Settles O34: the loss that every step's records tell, at an error of the transport. -/
theorem transportErrorEndsTheOperation : Obligations.TransportErrorEndsTheOperation := by
  intro s t ops sent got e added hstep hh hx
  obtain ⟨⟨-, -, hpos, hres, -⟩, -, hlife⟩ := step_lossEnds hstep added ops sent got _ hh hx nofun
  exact ⟨hres e rfl, hpos, hlife⟩

/-- Settles O59: between two steps by the move of the caller's task, inside a transaction by the loss that the record
tells. -/
theorem abandonedOperationStops : Obligations.AbandonedOperationStops := by
  refine ⟨fun s ts hts hp => ⟨_, step_abandon_running hts hp, rfl, rfl, rfl, rfl, rfl⟩,
    fun s t ops sent got added hstep hh hx => ?_⟩
  obtain ⟨⟨hcs, -, hpos, -, hres⟩, hflight, -⟩ := step_lossEnds hstep added ops sent got _ hh hx nofun
  exact ⟨hpos, hres rfl, hcs, hflight⟩

end Sys2Proof.Machine
end

section
/-! SUPPORT. O49: `init` on a link that reads one of the two broken identities (R223). -/

namespace Sys2Proof.Machine

/-- Line 5 on one of the two identities of a broken link: the handle is lost (R223, R224). -/
theorem InitAt.rejectIdentity {s t : State} {id : BitVec 32} {dev : Device} {events : List HistEvent}
    (h : InitAt s t .init5 id dev events) (hid : id = 0x00000000 ∨ id = 0xFFFFFFFF) :
    step t = .next (raiseError .unexpectedDeviceId t) := by
  have hline : runLine t = init5 t := by rw [runLine, h.pos]
  rw [h.step_eq (by decide), hline, init5, h.id, if_pos hid]

/-- Settles O49: line 5 compares with two constants; the call and the four lines before it are those of any link. -/
theorem initRejectsABrokenLink : Obligations.InitRejectsABrokenLink := by
  refine ⟨fun s hp ht h0 h1 => ?_, fun s cs hwf hp hl hc ht hplan hid => ?_⟩
  · have hline : runLine s = init5 s := by rw [runLine, hp]
    rw [step_unscheduled ht, hostMove_line (by simp [hp]), hline, init5, if_neg (not_or.mpr ⟨h0, h1⟩)]
    rfl
  · obtain ⟨-, -, hidle, -, -⟩ := command_named s.cfg hwf s.dev
    obtain ⟨t₁, r₁, a₁⟩ := initAt_of_call hp hl hc ht hplan
    obtain ⟨t₂, r₂, a₂⟩ := a₁.delay (by decide) .init2 5 (by rw [runLine, a₁.pos]; rfl)
    obtain ⟨t₃, r₃, a₃⟩ := a₂.command (by decide) .init3 s.cfg.cmd.idle (by rw [runLine, a₂.pos, ← a₂.cfg]; rfl) hidle
    obtain ⟨t₄, r₄, a₄⟩ := a₃.delay (by decide) .init4 1 (by rw [runLine, a₃.pos]; rfl)
    obtain ⟨t₅, r₅, a₅⟩ := a₄.readIdentity hwf
    have hrun : Host.Core.run core 6 s = .next (raiseError .unexpectedDeviceId t₅) :=
      (run_of_step 5 r₁).trans <| (run_of_step 4 r₂).trans <| (run_of_step 3 r₃).trans <| (run_of_step 2 r₄).trans <|
      (run_of_step 1 r₅).trans <| run_of_step 0 (a₅.rejectIdentity hid)
    have hlife : lifecycleAfterLoss t₅ = .consumed := by simp [lifecycleAfterLoss, a₅.pos, inInit]
    exact ⟨_, hrun, hlife, rfl, rfl, a₅.dev, a₅.diag, a₅.history⟩

end Sys2Proof.Machine
end

section
/-! SUPPORT. The lines of a running operation on a working link: what a line that issues a transaction leaves for the
next, by the kind of transaction. -/

namespace Sys2Proof.Machine

open Host (Outcome)

/-- An operation other than `init` that ends early keeps its handle (R251). -/
theorem lifecycleAfterLoss_of_not_init {s : State} (h : inInit s.pos = false) : lifecycleAfterLoss s = s.lifecycle := by
  rw [lifecycleAfterLoss, h, if_neg Bool.false_ne_true]

/-! ### The state before a line -/

/-- The working registers of the sequence itself (R20): those that the encoder and the transactions overwrite are
blanked. -/
def sequenceRegs (r : HostRegs) : HostRegs := { r with hdr0 := 0, hdr1 := 0, cmd := 0, rbytes := [], rval := 0 }

/-- `t` stands before the line `p` of the operation that runs in `s`, with nothing but HOST to move: the registers of
the sequence are those of `work`, the device is `dev`, the history has gained `events`, the log nothing. -/
structure LineAt (s t : State) (p : Pos) (work : HostRegs) (dev : Device) (events : List HistEvent) : Prop where
  cfg : t.cfg = s.cfg
  pos : t.pos = p
  lifecycle : t.lifecycle = s.lifecycle
  result : t.result = s.result
  calls : t.calls = s.calls
  diag : t.diag = s.diag
  turns : t.turns = []
  plan : t.bus.plan = .ok
  work : sequenceRegs t.regs = sequenceRegs work
  dev : t.dev = dev
  history : t.history = s.history ++ events

/-- The operation where it stands, before any further line. -/
theorem LineAt.start {s : State} {p : Pos} (hp : s.pos = p) (ht : s.turns = []) (hplan : s.bus.plan = .ok) :
    LineAt s s p s.regs s.dev [] :=
  ⟨rfl, hp, rfl, rfl, rfl, rfl, ht, hplan, rfl, rfl, (List.append_nil _).symm⟩

section

variable {s t : State} {p : Pos} {work : HostRegs} {dev dev' : Device} {events : List HistEvent}

/-- What is no register of the encoder or of a transaction is as in `work`. -/
theorem LineAt.reg {α : Type} (h : LineAt s t p work dev events) (f : HostRegs → α)
    (hf : ∀ r, f (sequenceRegs r) = f r) : f t.regs = f work := by
  rw [← hf t.regs, h.work, hf]

theorem LineAt.polls (h : LineAt s t p work dev events) : t.regs.polls = work.polls := h.reg HostRegs.polls fun _ => rfl
theorem LineAt.bound (h : LineAt s t p work dev events) : t.regs.bound = work.bound := h.reg HostRegs.bound fun _ => rfl
theorem LineAt.status (h : LineAt s t p work dev events) : t.regs.s = work.s := h.reg HostRegs.s fun _ => rfl
theorem LineAt.count (h : LineAt s t p work dev events) : t.regs.n = work.n := h.reg HostRegs.n fun _ => rfl
theorem LineAt.outBuffer (h : LineAt s t p work dev events) : t.regs.outBuffer = work.outBuffer :=
  h.reg HostRegs.outBuffer fun _ => rfl

/-- The loop test (R233, R240). -/
theorem LineAt.loopTest (h : LineAt s t p work dev events) :
    t.regs.polls < t.regs.bound ↔ work.polls < work.bound := by
  rw [h.polls, h.bound]

theorem LineAt.step_eq (h : LineAt s t p work dev events) (hp : p ≠ .idle) : step t = runLine t := by
  rw [step_unscheduled h.turns, hostMove_line (h.pos ▸ hp)]

/-- The sequence goes on at another line. -/
theorem LineAt.goesTo (h : LineAt s t p work dev events) (q : Pos) : LineAt s (goTo q t) q work dev events :=
  { h with pos := rfl }

/-- A line whose transaction succeeded goes on as it says. -/
theorem LineAt.step_of_xact {o : Outcome State Fault Refusal} {v : State} (h : LineAt s t p work dev events)
    (hp : p ≠ .idle) {k : State → State} (hline : runLine t = afterXact o k) (ho : o = .next v) (hv : v.bus.ret = .ok) :
    step t = .next (k v) :=
  (h.step_eq hp).trans (hline.trans (afterXact_ok k ho hv))

/-! ### The transactions -/

@[simp] theorem sampled_dev (r : Reg) (s : State) : (sampled r s).dev = s.dev := by cases r <;> rfl
@[simp] theorem sampled_history (r : Reg) (s : State) : (sampled r s).history = s.history := by cases r <;> rfl

/-- An instruction carried whole, by what it does to the device and adds to the history: nothing else that the sequence
knows of has changed (R136). -/
theorem LineAt.executed {i : Instr} {v : State} {es : List HistEvent} (h : LineAt s t p work dev events)
    (hx : exec i t = .next v) (hdev : v.dev = dev') (hh : v.history = t.history ++ es) :
    v.bus.ret = .ok ∧ LineAt s v p work dev' (events ++ es) := by
  obtain ⟨-, hbus, -, hregs, hcfg, hcalls, hturns, hdiag, hkept⟩ := everyInstructionIsOneTransaction i t v hx
  obtain ⟨hlife, hpos, hres⟩ := hkept h.plan
  refine ⟨by rw [hbus, h.plan]; rfl, hcfg.trans h.cfg, hpos.trans h.pos, hlife.trans h.lifecycle, hres.trans h.result,
    hcalls.trans h.calls, hdiag.trans h.diag, hturns.trans h.turns, by rw [hbus], ?_, hdev, ?_⟩
  · rw [← h.work, hregs]
    rfl
  · rw [hh, h.history, List.append_assoc]

/-- A fast command that emits nothing: the device as the commit leaves it (R150). -/
theorem LineAt.issued (h : LineAt s t p work dev events) {code : BitVec 5}
    (hc : command s.cfg code dev = .next (dev', [])) :
    ∃ v, issue code.toNat t = .next v ∧ v.bus.ret = .ok ∧
      LineAt s v p work dev' (events ++ [.xact [.write [fcByte code.toNat]] [fcByte code.toNat] [] .ok]) := by
  obtain ⟨d, hd⟩ := issue_quiet (s := t) h.plan (h.cfg.symm ▸ h.dev.symm ▸ hc)
  exact ⟨_, hd, h.executed (i := .fc code.toNat) hd rfl rfl⟩

/-- `FC.IDLE` from any mode (R155). -/
theorem LineAt.fcIdle (h : LineAt s t p work dev events) (hwf : s.cfg.wf = true) :
    ∃ v, execFcIdle t = .next v ∧ v.bus.ret = .ok ∧ LineAt s v p work { dev with trx := .idle }
      (events ++ [.xact (encode s.cfg .fcIdle) [fcByte s.cfg.cmd.idle.toNat] [] .ok]) := by
  obtain ⟨-, -, hidle, -⟩ := command_named s.cfg hwf dev
  rw [execFcIdle, h.cfg]
  exact h.issued hidle

/-- `FC.RX` from any mode (R154). -/
theorem LineAt.fcRx (h : LineAt s t p work dev events) (hwf : s.cfg.wf = true) :
    ∃ v, execFcRx t = .next v ∧ v.bus.ret = .ok ∧
      LineAt s v p work { dev with trx := if dev.trx = .idle then .rx else .unknown }
        (events ++ [.xact (encode s.cfg .fcRx) [fcByte s.cfg.cmd.rx.toNat] [] .ok]) := by
  obtain ⟨-, hrx, -⟩ := command_named s.cfg hwf dev
  rw [commandRx_eq] at hrx
  rw [execFcRx, h.cfg]
  exact h.issued hrx

/-- A read of a register: the front of its bytes, the device as it was (R130). -/
theorem LineAt.read (h : LineAt s t p work dev events) (hwf : s.cfg.wf = true) (r : Reg) (n : Nat)
    (hr : readable r = true) (hn : n ≤ regLength r) :
    ∃ v free, execRd r n t = .next v ∧ v.regs.rbytes = (regBytes s.cfg dev free r).take n ∧ v.bus.ret = .ok ∧
      LineAt s v p work dev (events ++
        [.xact (encode s.cfg (.rd r n)) (regHeader s.cfg r false) ((regBytes s.cfg dev free r).take n) .ok]) := by
  obtain ⟨d, hd⟩ := execRd_ok r n t (h.cfg.symm ▸ hwf) h.plan hr hn
  rw [h.cfg, h.dev] at hd
  exact ⟨_, drawWord t, hd, rfl, h.executed (i := .rd r n) hd (by simp [completed, h.dev]) (by simp [completed])⟩

/-- A read of a word: the value of the register's first four bytes, the device as it was (R132). -/
theorem LineAt.readWord (h : LineAt s t p work dev events) (hwf : s.cfg.wf = true) (r : Reg) (hr : readable r = true) :
    ∃ v free, execRdu32 r t = .next v ∧ v.regs.rval = unle32 ((regBytes s.cfg dev free r).take 4) ∧ v.bus.ret = .ok ∧
      LineAt s v p work dev (events ++
        [.xact (encode s.cfg (.rdu32 r)) (regHeader s.cfg r false) ((regBytes s.cfg dev free r).take 4) .ok]) := by
  obtain ⟨d, hd⟩ := execRdu32_ok r t (h.cfg.symm ▸ hwf) h.plan hr (four_le_regLength r)
  rw [h.cfg, h.dev] at hd
  exact ⟨_, drawWord t, hd, rfl, h.executed (i := .rdu32 r) hd (by simp [assembleValue, completed, h.dev])
    (by simp [assembleValue, completed])⟩

/-- A word written to `SYS_STATUS`: the flags as its commit leaves them (R133, R172). -/
theorem LineAt.writeStatus (h : LineAt s t p work dev events) (hwf : s.cfg.wf = true) (w : BitVec 32) :
    ∃ v, execWru32 .sysStatus w t = .next v ∧ v.bus.ret = .ok ∧
      LineAt s v p work (commitWrite s.cfg .sysStatus (le32 w) dev) (events ++
        [.xact (encode s.cfg (.wru32 .sysStatus w)) (regHeader s.cfg .sysStatus true ++ le32 w) [] .ok]) := by
  obtain ⟨d, hd⟩ := execWr_ok .sysStatus (le32 w) t (h.cfg.symm ▸ hwf) h.plan rfl (four_le_regLength .sysStatus)
  rw [h.cfg, h.dev] at hd
  exact ⟨_, hd, h.executed (i := .wru32 .sysStatus w) hd rfl rfl⟩

/-! ### A poll -/

/-- The record of a read of `SYS_STATUS` that returned `w` (R170). -/
def statusRead (cfg : Config) (w : BitVec 32) : HistEvent :=
  .xact (encode cfg (.rdu32 .sysStatus)) (regHeader cfg .sysStatus false) (le32 w) .ok

/-- A poll counts and reads the status word, the device as it was; then the sequence goes on as the line says
(R233, R242). -/
theorem LineAt.polled (h : LineAt s t p work dev events) (hwf : s.cfg.wf = true) (hp : p ≠ .idle) {k : State → State}
    (hline : runLine t = poll t k) :
    ∃ v free, step t = .next (k v) ∧
      LineAt s v p { work with polls := work.polls + 1, s := statusWord s.cfg dev.flags free } dev
        (events ++ [statusRead s.cfg (statusWord s.cfg dev.flags free)]) := by
  have hcount : LineAt s { t with regs := { t.regs with polls := t.regs.polls + 1 } } p
      { work with polls := work.polls + 1 } dev events :=
    { h with work := congrArg (fun r => { r with polls := r.polls + 1 }) h.work }
  obtain ⟨v, free, hread, hval, hret, hv⟩ := hcount.readWord hwf .sysStatus rfl
  rw [unle32_take_sysStatus] at hval
  have hstep := h.step_of_xact (k := fun u => k { u with regs := { u.regs with s := u.regs.rval } }) hp hline hread hret
  refine ⟨{ v with regs := { v.regs with s := v.regs.rval } }, free, hstep, { hv with work := ?_ }⟩
  rw [← hval]
  exact congrArg (fun r => { r with s := v.regs.rval }) hv.work

/-- The host's test of a flag in the word a poll has read is the flag (R170, R171). -/
theorem testFlag_statusWord {cfg : Config} (hwf : cfg.wf = true) (fl : Flags) (free : BitVec 32) (f : Flag) :
    testFlag cfg (statusWord cfg fl free) f = getFlag fl f := by
  rw [testFlag_eq, statusWord_flag cfg hwf]

end

end Sys2Proof.Machine
end

section
/-! SUPPORT. O52: a `send` that polls in vain, by induction on the polls that are left (R233, R234). -/

namespace Sys2Proof.Machine

section

variable {s t : State} {work : HostRegs} {dev : Device} {events : List HistEvent}

theorem LineAt.send4_eq (h : LineAt s t .send4 work dev events) : runLine t = send4 t := by rw [runLine, h.pos]

/-- A poll of `send` that does not see `TXFRS` goes back to the loop test (R233). -/
theorem LineAt.pollInVain (h : LineAt s t .send4 work dev events) (hwf : s.cfg.wf = true)
    (hf : getFlag dev.flags .txfrs = false) (hlt : work.polls < work.bound) :
    ∃ v w, step t = .next v ∧ LineAt s v .send4 { work with polls := work.polls + 1, s := w } dev
      (events ++ [statusRead s.cfg w]) := by
  have hline := h.send4_eq.trans (if_pos (h.loopTest.mpr hlt))
  obtain ⟨v, free, hstep, hv⟩ := h.polled hwf (by decide) hline
  have hs : v.regs.s = statusWord v.cfg dev.flags free := by rw [hv.cfg, hv.status]
  rw [hs, testFlag_statusWord (hv.cfg ▸ hwf), hf] at hstep
  exact ⟨_, _, hstep, hv.goesTo .send4⟩

/-- With the budget used up the loop is left for the timeout (R234). -/
theorem LineAt.sendBudgetUsed (h : LineAt s t .send4 work dev events) (hge : work.bound ≤ work.polls) :
    ∃ v, step t = .next v ∧ LineAt s v .send5 work dev events := by
  have hline := h.send4_eq.trans (if_neg (mt h.loopTest.mp hge.not_gt))
  exact ⟨_, (h.step_eq (by decide)).trans hline, h.goesTo .send5⟩

/-- The polls that are left, all in vain, and the step to the timeout: as many status reads and nothing else. -/
theorem LineAt.pollsInVain (hwf : s.cfg.wf = true) (hf : getFlag dev.flags .txfrs = false) (k : Nat)
    (h : LineAt s t .send4 work dev events) (hk : work.polls + k = work.bound) :
    ∃ (v : State) (work' : HostRegs) (words : List (BitVec 32)), Host.Core.run core (k + 1) t = .next v ∧
      work'.polls = work.bound ∧ words.length = k ∧
      LineAt s v .send5 work' dev (events ++ words.map (statusRead s.cfg)) := by
  induction k generalizing t work events with
  | zero =>
    obtain ⟨v, hstep, hv⟩ := h.sendBudgetUsed hk.ge
    exact ⟨v, work, [], run_of_step 0 hstep, hk, rfl, by simpa using hv⟩
  | succ k ih =>
    obtain ⟨v, w, hstep, hv⟩ := h.pollInVain hwf hf (by omega)
    obtain ⟨u, work', words, hrun, hpolls, hlen, hu⟩ := ih hv (by simp only; omega)
    exact ⟨u, work', w :: words, (run_of_step (k + 1) hstep).trans hrun, hpolls, by simp [hlen], by simpa using hu⟩

end

/-- `FC.TX` changes no flag, and what it emits is no transaction (R153). -/
theorem commandTx_frame (d : Device) :
    (commandTx d).1.flags = d.flags ∧ (commandTx d).2.countP isTransaction = 0 := by
  by_cases h : d.trx = .idle ∧ 2 ≤ (frameLength d.txFctrl).toNat
  · rw [commandTx_starts h.1 h.2]
    exact ⟨rfl, rfl⟩
  · rw [commandTx_unknown ((not_and_or.mp h).imp_right Nat.lt_of_not_le)]
    exact ⟨rfl, rfl⟩

/-- Settles O52: the three transactions of the start, the 10000 polls in vain, and step 5. -/
theorem sendTimesOut : Obligations.SendTimesOut := by
  intro s data cs hwf hp hl hc ht hplan hn hf
  obtain ⟨dev, hist, htx⟩ : ∃ dev hist, commandTx (programmed data s.dev) = (dev, hist) := ⟨_, _, rfl⟩
  obtain ⟨hflags, hemitted⟩ := commandTx_frame (programmed data s.dev)
  rw [htx] at hflags hemitted
  obtain ⟨u, hrun, hu⟩ := run_send_start hwf hp hl hc ht hplan hn htx
  have hflags' : u.dev.flags = s.dev.flags := by rw [hu.dev, hflags]; rfl
  have hbound : u.regs.polls + 10000 = u.regs.bound := by rw [hu.polls, hu.bound]; rfl
  obtain ⟨v, work, words, hpolling, hpolls, hlen, hv⟩ :=
    (LineAt.start hu.pos hu.turns hu.plan).pollsInVain (hu.cfg ▸ hwf) (hflags' ▸ hf) 10000 hbound
  have hline : runLine v = send5 v := by rw [runLine, hv.pos]
  have hlife : lifecycleAfterLoss v = v.lifecycle := lifecycleAfterLoss_of_not_init (by rw [hv.pos]; rfl)
  refine ⟨u, v, _, _, words.map (statusRead s.cfg), hrun, hpolling, hv.pos, ?_, (hv.step_eq (by decide)).trans hline,
    hu.history, ?_, hflags', rfl, rfl, ?_, hv.dev, ?_, ?_, by simp [hlen], fun e he => ?_⟩
  · rw [hv.polls, hpolls, hu.bound]
    rfl
  · simp [sendEvents, List.countP_cons, isTransaction, hemitted]
  · exact hlife.trans (hv.lifecycle.trans hu.lifecycle)
  · exact congrArg (· ++ [Diag.transmitFailure]) (hv.diag.trans hu.diag)
  · exact hu.cfg ▸ hv.history
  · obtain ⟨w, -, rfl⟩ := List.mem_map.mp he
    exact ⟨_, rfl⟩

end Sys2Proof.Machine
end

section
/-! SUPPORT. O56 and O57: the two lines that issue `FC.IDLE` and end their operation, on a failing transport (R245,
R250). -/

namespace Sys2Proof.Machine

/-- A command the device acts on without emitting anything, on a failing transport: one record, which tells the failure
(R84). -/
theorem issue_fail_history {s : State} {k e : Nat} {code : BitVec 5} {dev : Device} (hplan : s.bus.plan = .fail k e)
    (hc : command s.cfg code s.dev = .next (dev, [])) :
    ∃ t sent, issue code.toNat s = .next t ∧ t.bus.ret = .error e ∧
      t.history = s.history ++ [.xact [.write [fcByte code.toNat]] sent [] (.error e)] := by
  have hcut : CutShort s.bus.plan k (.error e) := .inl ⟨e, hplan, rfl⟩
  obtain rfl | hk := Nat.eq_zero_or_pos k
  · obtain ⟨t, ht, ⟨-, hret, -⟩, hhist, -⟩ := hcut.issue_next_of_undelivered code.toNat
    exact ⟨t, _, ht, hret, hhist⟩
  · obtain ⟨t, ht, ⟨-, hret, -⟩, hhist, -⟩ := hcut.issue_next_of_delivered hk code.toNat (dev, []) (by rwa [ofNat_code])
    exact ⟨t, _, ht, hret, hhist⟩

/-- HOST's move at a line that issues `FC.IDLE`, on a failing transport: that one transaction (R84, R251). -/
theorem hostMove_fcIdle_fails {s : State} {k e : Nat} {g : State → State} (hwf : s.cfg.wf = true) (hp : s.pos ≠ .idle)
    (hplan : s.bus.plan = .fail k e) (hline : runLine s = afterXact (execFcIdle s) g) :
    ∃ t sent, hostMove s = .next t ∧
      t.history = s.history ++ [.xact (encode s.cfg .fcIdle) sent [] (.error e)] := by
  obtain ⟨-, -, hidle, -⟩ := command_named s.cfg hwf s.dev
  obtain ⟨t, sent, hissue, hret, hhist⟩ := issue_fail_history hplan hidle
  refine ⟨t, sent, ?_, hhist⟩
  rw [hostMove_line hp, hline, execFcIdle, hissue]
  exact afterXact_lost g (by rw [hret]; nofun)

/-- A step at a line that issues `FC.IDLE`, on a failing transport: it ends with the transport's own error (R251,
R261). -/
theorem step_fcIdle_fails {s : State} {k e : Nat} {ts : List Turn} {g : State → State} (hwf : s.cfg.wf = true)
    (hp : s.pos ≠ .idle) (hts : s.turns = .host (.fail k e) :: ts)
    (hline : ∀ u : State, u.pos = s.pos → runLine u = afterXact (execFcIdle u) g) :
    ∃ t sent, step s = .next t ∧ t.result = some (.error (.transport e)) ∧ t.pos = .idle ∧
      t.lifecycle = lifecycleAfterLoss s ∧
      t.history = s.history ++ [.xact (encode s.cfg .fcIdle) sent [] (.error e)] := by
  obtain ⟨t, sent, hmove, hhist⟩ := hostMove_fcIdle_fails
    (s := { s with turns := ts, bus := { s.bus with plan := .fail k e } }) hwf hp rfl (hline _ rfl)
  have hstep := (step_host hts).trans hmove
  obtain ⟨hres, hpos, hlife⟩ :=
    transportErrorEndsTheOperation s t _ sent [] e _ hstep hhist (List.mem_singleton.mpr rfl)
  exact ⟨t, sent, hstep, hres, hpos, hlife, hhist⟩

/-- Settles O57: the call and the one line carried whole, and that line on a failing transport. -/
theorem forceIdleIssuesOneIdle : Obligations.ForceIdleIssuesOneIdle := by
  have hline : ∀ u : State, u.pos = .forceIdle1 → runLine u = afterXact (execFcIdle u) (returnOk .ok) :=
    fun u hu => by rw [runLine, hu]; rfl
  refine ⟨fun s cs hwf hp hl hc ht hplan => ?_, fun s k e ts hwf hp hts => ?_⟩
  · have hcall : step s = .next (startAt .forceIdle1 { s with calls := cs }) := by
      rw [step_unscheduled ht, hostMove_call hp hc]
      simp only [takeCall, callReady, hl]
    have h := LineAt.start (p := .forceIdle1) (s := startAt .forceIdle1 { s with calls := cs }) rfl ht hplan
    obtain ⟨v, hissue, hret, hv⟩ := h.fcIdle hwf
    have hlast := h.step_of_xact (by decide) (hline _ rfl) hissue hret
    exact ⟨_, (run_of_step 1 hcall).trans (run_of_step 0 hlast), rfl, rfl, hv.lifecycle.trans hl, hv.dev, hv.history⟩
  · obtain ⟨t, sent, hstep, hres, hpos, hlife, hhist⟩ := step_fcIdle_fails hwf (by simp [hp]) hts (hp ▸ hline)
    exact ⟨t, sent, hstep, hres, hpos, hlife.trans (lifecycleAfterLoss_of_not_init (by rw [hp]; rfl)), hhist⟩

end Sys2Proof.Machine
end

section
/-! SUPPORT. O53 to O56: `recv` line by line on a working link (R240 to R245), with what each line leaves for the
next. -/

namespace Sys2Proof.Machine

/-! ### The clearing writes of `recv` (R177) -/

/-- The clearing write does the same in either reading of its value (R177). -/
theorem commitWrite_clearValue {cfg : Config} (hwf : cfg.wf = true) (d : Device) (free m : BitVec 32) :
    commitWrite cfg .sysStatus (le32 (clearValue cfg (statusWord cfg d.flags free) m)) d =
      commitWrite cfg .sysStatus (le32 m) d := by
  unfold clearValue
  split
  · exact commitWrite_observed_eq_constant cfg d free m hwf
  · rfl

/-- A clearing write of two flags, in either reading of its value, clears these two and no other. -/
theorem getFlag_clearPair {cfg : Config} (hwf : cfg.wf = true) (d : Device) (free : BitVec 32) (f g h : Flag) :
    getFlag (commitWrite cfg .sysStatus (le32 (clearValue cfg (statusWord cfg d.flags free)
        (flagMask cfg f ||| flagMask cfg g))) d).flags h =
      (getFlag d.flags h && !(decide (h = f) || decide (h = g))) := by
  have hmask : ∀ f', (flagMask cfg f').getLsbD (flagPosition cfg h) = decide (h = f') := fun f' => by
    have hpos : flagPosition cfg f' = flagPosition cfg h ↔ h = f' :=
      ⟨fun he => (flagPosition_inj cfg hwf f' h he).symm, fun he => he ▸ rfl⟩
    rw [flagMask_getLsbD, decide_eq_true (flagPosition_lt cfg h), Bool.true_and, decide_eq_decide.mpr hpos]
  rw [commitWrite_clearValue hwf, getFlag_commitWrite_le32, BitVec.getLsbD_or, hmask, hmask]

/-! ### The lines -/

/-- Where a poll that saw these flags leads (R241). -/
def afterPoll (fl : Flags) : Pos :=
  if getFlag fl .rxfcg then .recv2Info else if getFlag fl .rxfce || getFlag fl .rxphe then .recv2ErrClear else .recv2

/-- The two tests of a poll on a word that shows the flags (R170, R171, R241). -/
theorem recvBranch_eq_goTo {v : State} {fl : Flags} {free : BitVec 32} (hwf : v.cfg.wf = true)
    (hs : v.regs.s = statusWord v.cfg fl free) : recvBranch v = goTo (afterPoll fl) v := by
  simp only [recvBranch, errorMask, test_pair, hs, testFlag_statusWord hwf, afterPoll]
  split
  · rfl
  · split <;> rfl

section

variable {s t : State} {work : HostRegs} {dev : Device} {events : List HistEvent}

theorem LineAt.recv2_eq (h : LineAt s t .recv2 work dev events) : runLine t = recv2 t := by rw [runLine, h.pos]

/-- Step 1: the receiver is enabled, and the loop starts with no poll made (R240). -/
theorem LineAt.recvStart (h : LineAt s t .recv1 work dev events) (hwf : s.cfg.wf = true) :
    ∃ v, step t = .next v ∧
      LineAt s v .recv2 { work with polls := 0 } { dev with trx := if dev.trx = .idle then .rx else .unknown }
        (events ++ [.xact (encode s.cfg .fcRx) [fcByte s.cfg.cmd.rx.toNat] [] .ok]) := by
  have hline : runLine t = recv1 t := by rw [runLine, h.pos]
  obtain ⟨v, hissue, hret, hv⟩ := h.fcRx hwf
  exact ⟨_, h.step_of_xact (by decide) hline hissue hret,
    { hv with pos := rfl, work := congrArg (fun r => { r with polls := 0 }) hv.work }⟩

/-- Step 2 with budget left: a poll, and the two tests (R241). -/
theorem LineAt.recvPoll (h : LineAt s t .recv2 work dev events) (hwf : s.cfg.wf = true)
    (hlt : work.polls < work.bound) :
    ∃ v free, step t = .next v ∧
      LineAt s v (afterPoll dev.flags)
        { work with polls := work.polls + 1, s := statusWord s.cfg dev.flags free } dev
        (events ++ [statusRead s.cfg (statusWord s.cfg dev.flags free)]) := by
  have hline := h.recv2_eq.trans (if_pos (h.loopTest.mpr hlt))
  obtain ⟨v, free, hstep, hv⟩ := h.polled hwf (by decide) hline
  have hs : v.regs.s = statusWord v.cfg dev.flags free := by rw [hv.cfg, hv.status]
  rw [recvBranch_eq_goTo (hv.cfg ▸ hwf) hs] at hstep
  exact ⟨_, free, hstep, hv.goesTo _⟩

/-- Step 2 with the budget used up: on to the timeout (R245). -/
theorem LineAt.recvBudgetUsed (h : LineAt s t .recv2 work dev events) (hge : work.bound ≤ work.polls) :
    ∃ v, step t = .next v ∧ LineAt s v .recv3 work dev events := by
  have hline := h.recv2_eq.trans (if_neg (mt h.loopTest.mp hge.not_gt))
  exact ⟨_, (h.step_eq (by decide)).trans hline, h.goesTo .recv3⟩

/-- The good path reads the length (R192, R243). -/
theorem LineAt.recvInfo (h : LineAt s t .recv2Info work dev events) (hwf : s.cfg.wf = true) :
    let len := frameLength dev.rxFinfo
    ∃ v fin, step t = .next v ∧
      LineAt s v .recv2Data
        { work with
          f := dev.rxFinfo
          len := len
          p := payloadLength len
          n := min (payloadLength len) work.outBuffer.length } dev
        (events ++ [.xact (encode s.cfg (.rdu32 .rxFinfo)) (regHeader s.cfg .rxFinfo false) fin .ok]) := by
  have hline : runLine t = recv2Info t := by rw [runLine, h.pos]
  obtain ⟨v, free, hread, hval, hret, hv⟩ := h.readWord hwf .rxFinfo rfl
  have hfinfo : v.regs.rval = dev.rxFinfo := hval.trans (unle32_le32 dev.rxFinfo)
  have hstep := h.step_of_xact (k := fun u => goTo .recv2Data (recvLengths u)) (by decide) hline hread hret
  refine ⟨_, _, hstep, { hv with pos := rfl, work := ?_ }⟩
  rw [← hfinfo]
  exact congrArg (fun r => { r with
    f := v.regs.rval
    len := frameLength v.regs.rval
    p := payloadLength (frameLength v.regs.rval)
    n := min (payloadLength (frameLength v.regs.rval)) r.outBuffer.length }) hv.work

/-- The good path copies the payload into the front of the caller's buffer (R42, R243). -/
theorem LineAt.recvData (h : LineAt s t .recv2Data work dev events) (hwf : s.cfg.wf = true) (hn : work.n ≤ 1024) :
    ∃ v copy, step t = .next v ∧ copy.length = work.n ∧ (∀ k, k < work.n → copy[k]? = some (rxByte dev k)) ∧
      LineAt s v .recv2Clear { work with outBuffer := patch work.outBuffer copy } dev
        (events ++ [.xact (encode s.cfg (.rd .rxBuffer work.n)) (regHeader s.cfg .rxBuffer false) copy .ok]) := by
  obtain ⟨v, free, hread, hbytes, hret, hv⟩ := h.read hwf .rxBuffer work.n rfl hn
  have hline : runLine t = afterXact (.next (fillOutBuffer v)) (goTo .recv2Clear) := by
    rw [runLine, h.pos]
    simp only [recv2Data, h.count, hread]
  obtain ⟨hlen, hget⟩ := take_regBytes s.cfg dev free .rxBuffer work.n rfl hn
  refine ⟨_, _, h.step_of_xact (by decide) hline rfl hret, hlen, hget, { hv with pos := rfl, work := ?_ }⟩
  rw [← hbytes]
  exact congrArg (fun r => { r with outBuffer := patch r.outBuffer v.regs.rbytes }) hv.work

/-- The good path clears its two flags and returns the count (R177, R243). -/
theorem LineAt.recvReturn (h : LineAt s t .recv2Clear work dev events) (hwf : s.cfg.wf = true) :
    let w := clearValue s.cfg work.s (goodMask s.cfg)
    ∃ v, step t = .next (returnOk (.count work.n) v) ∧
      LineAt s v .recv2Clear work (commitWrite s.cfg .sysStatus (le32 w) dev) (events ++
        [.xact (encode s.cfg (.wru32 .sysStatus w)) (regHeader s.cfg .sysStatus true ++ le32 w) [] .ok]) := by
  obtain ⟨v, hwrite, hret, hv⟩ := h.writeStatus hwf (clearValue s.cfg work.s (goodMask s.cfg))
  rw [← h.cfg, ← h.status] at hwrite
  have hline : runLine t = recv2Clear t := by rw [runLine, h.pos]
  have hstep := h.step_of_xact (k := fun u => returnOk (.count u.regs.n) u) (by decide) hline hwrite hret
  rw [hv.count] at hstep
  exact ⟨v, hstep, hv⟩

/-- The error path clears its two flags (R177, R244). -/
theorem LineAt.recvErrClear (h : LineAt s t .recv2ErrClear work dev events) (hwf : s.cfg.wf = true) :
    let w := clearValue s.cfg work.s (errorMask s.cfg)
    ∃ v, step t = .next v ∧
      LineAt s v .recv2Enable work (commitWrite s.cfg .sysStatus (le32 w) dev) (events ++
        [.xact (encode s.cfg (.wru32 .sysStatus w)) (regHeader s.cfg .sysStatus true ++ le32 w) [] .ok]) := by
  obtain ⟨v, hwrite, hret, hv⟩ := h.writeStatus hwf (clearValue s.cfg work.s (errorMask s.cfg))
  rw [← h.cfg, ← h.status] at hwrite
  have hline : runLine t = recv2ErrClear t := by rw [runLine, h.pos]
  exact ⟨_, h.step_of_xact (by decide) hline hwrite hret, hv.goesTo .recv2Enable⟩

/-- The error path enables the receiver again and is back at the loop test (R244). -/
theorem LineAt.recvEnable (h : LineAt s t .recv2Enable work dev events) (hwf : s.cfg.wf = true) :
    ∃ v, step t = .next v ∧
      LineAt s v .recv2 work { dev with trx := if dev.trx = .idle then .rx else .unknown }
        (events ++ [.xact (encode s.cfg .fcRx) [fcByte s.cfg.cmd.rx.toNat] [] .ok]) := by
  have hline : runLine t = recv2Enable t := by rw [runLine, h.pos]
  obtain ⟨v, hissue, hret, hv⟩ := h.fcRx hwf
  exact ⟨_, h.step_of_xact (by decide) hline hissue hret, hv.goesTo .recv2⟩

/-- The timeout path from the loop test: one `FC.IDLE`, then `Timeout` (R245). -/
theorem LineAt.recvTimeout (h : LineAt s t .recv2 work dev events) (hwf : s.cfg.wf = true)
    (hge : work.bound ≤ work.polls) :
    ∃ u v, step t = .next u ∧ step u = .next (raiseError .timeout v) ∧
      LineAt s v .recv3 work { dev with trx := .idle }
        (events ++ [.xact (encode s.cfg .fcIdle) [fcByte s.cfg.cmd.idle.toNat] [] .ok]) := by
  obtain ⟨u, hleave, hu⟩ := h.recvBudgetUsed hge
  have hline : runLine u = recv3 u := by rw [runLine, hu.pos]
  obtain ⟨v, hissue, hret, hv⟩ := hu.fcIdle hwf
  exact ⟨u, v, hleave, hu.step_of_xact (by decide) hline hissue hret, hv⟩

/-- A `recv` that times out keeps its handle (R251). -/
theorem LineAt.recv3_lifecycle (h : LineAt s t .recv3 work dev events) : lifecycleAfterLoss t = s.lifecycle :=
  (lifecycleAfterLoss_of_not_init (by rw [h.pos]; rfl)).trans h.lifecycle

end

/-! ### The statements -/

/-- Settles O53. -/
theorem recvPollBranches : Obligations.RecvPollBranches := by
  intro s hwf hp hlt ht hplan
  obtain ⟨t, free, hstep, h⟩ := (LineAt.start hp ht hplan).recvPoll hwf hlt
  exact ⟨t, _, hstep, h.polls, h.dev, h.lifecycle, h.outBuffer,
    h.pos, h.history⟩

/-- Bytes copied over the front of a list: the copy, then the old ones (R131, R243). -/
theorem patch_getElem? {old data : List Byte} (k : Nat) :
    (patch old data)[k]? = if k < data.length then data[k]? else old[k]? := by
  rw [patch, List.getElem?_append, List.getElem?_drop]
  split
  · rfl
  · congr 1
    omega

/-- Settles O54: the poll, then the three lines of the good path. -/
theorem recvGoodPath : Obligations.RecvGoodPath := by
  intro s hwf hp hlt ht hplan hf n
  have hn : n ≤ 1024 := (Nat.min_le_left _ _).trans ((payloadLength_le (frameLength s.dev.rxFinfo)).trans (by decide))
  obtain ⟨t₁, free, r₁, a₁⟩ := (LineAt.start hp ht hplan).recvPoll hwf hlt
  rw [afterPoll, if_pos hf] at a₁
  obtain ⟨t₂, fin, r₂, a₂⟩ := a₁.recvInfo hwf
  obtain ⟨t₃, copy, r₃, hlen, hcopy, a₃⟩ := a₂.recvData hwf hn
  obtain ⟨t₄, r₄, a₄⟩ := a₃.recvReturn hwf
  have hrun : Host.Core.run core 4 s = .next (returnOk (.count n) t₄) :=
    (run_of_step 3 r₁).trans <| (run_of_step 2 r₂).trans <| (run_of_step 1 r₃).trans <| run_of_step 0 r₄
  have hout : t₄.regs.outBuffer = patch s.regs.outBuffer copy := a₄.outBuffer
  refine ⟨_, _, fin, copy, _, statusWord s.cfg s.dev.flags free, hrun, rfl, rfl, a₄.lifecycle, ?_, fun k hk => ?_,
    fun k hk => ?_, ?_, fun f => ?_, a₄.history, rfl, rfl⟩
  · exact (congrArg List.length hout).trans (patch_length _ _ (hlen.trans_le (Nat.min_le_right _ _)))
  · rw [returnOk_regs, hout, patch_getElem?, if_pos (hk.trans_eq hlen.symm), hcopy k hk]
  · rw [returnOk_regs, hout, patch_getElem?, if_neg (Nat.not_lt.mpr (hlen.trans_le hk))]
  · rw [returnOk_dev, a₄.dev]
    rfl
  · rw [returnOk_dev, a₄.dev]
    exact getFlag_clearPair hwf s.dev free .rxfr .rxfcg f

/-- Settles O55: the poll, then the two lines of the error path. -/
theorem recvErrorPath : Obligations.RecvErrorPath := by
  intro s hwf hp hlt ht hplan hgood herr
  obtain ⟨t₁, free, r₁, a₁⟩ := (LineAt.start hp ht hplan).recvPoll hwf hlt
  have hbranch : afterPoll s.dev.flags = .recv2ErrClear := by simp [afterPoll, hgood, herr]
  rw [hbranch] at a₁
  obtain ⟨t₂, r₂, a₂⟩ := a₁.recvErrClear hwf
  obtain ⟨t₃, r₃, a₃⟩ := a₂.recvEnable hwf
  have hrun : Host.Core.run core 3 s = .next t₃ :=
    (run_of_step 2 r₁).trans <| (run_of_step 1 r₂).trans <| run_of_step 0 r₃
  have hs : t₃.regs.s = statusWord s.cfg s.dev.flags free := a₃.status
  refine ⟨t₃, _, _, hrun, a₃.pos, a₃.result, a₃.polls, a₃.outBuffer,
    a₃.lifecycle, ?_, fun f => ?_, a₃.history, ?_, congrArg le32 hs.symm, fun hlast => ?_⟩
  · rw [a₃.dev, commitWrite_trx]
    rfl
  · rw [a₃.dev]
    exact getFlag_clearPair hwf s.dev free .rxfce .rxphe f
  · rw [hs]
    rfl
  · rw [a₃.polls, a₃.bound] at hlast
    obtain ⟨u, hstep, hu⟩ := a₃.recvBudgetUsed hlast.ge
    exact ⟨u, hstep, hu.pos⟩

/-- Settles O56: the timeout path from the loop test; its `FC.IDLE` on a failing transport; and the call and step 1,
which the timeout path follows at once where the budget is 0. -/
theorem recvTimesOut : Obligations.RecvTimesOut := by
  refine ⟨fun s hwf hp hge ht hplan => ?_, fun s k e ts hwf hp hts => ?_,
    fun s out maxPolls cs hwf hp hl hc ht hplan => ?_⟩
  · obtain ⟨u, v, r₁, r₂, h⟩ := (LineAt.start hp ht hplan).recvTimeout hwf hge
    exact ⟨_, (run_of_step 1 r₁).trans (run_of_step 0 r₂), rfl, rfl, h.recv3_lifecycle,
      h.outBuffer, h.dev, h.history⟩
  · have hline : ∀ u : State, u.pos = .recv3 → runLine u = afterXact (execFcIdle u) (raiseError .timeout) :=
      fun u hu => by rw [runLine, hu]; rfl
    obtain ⟨t, -, hstep, hres, hpos, hlife, -⟩ := step_fcIdle_fails hwf (by simp [hp]) hts (hp ▸ hline)
    exact ⟨t, hstep, hres, hpos, hlife.trans (lifecycleAfterLoss_of_not_init (by rw [hp]; rfl))⟩
  · have r₁ : step s = .next (startRecv out maxPolls { s with calls := cs }) := by
      rw [step_unscheduled ht, hostMove_call hp hc]
      simp only [takeCall, callReady, hl]
    have h := LineAt.start (p := .recv1) (s := startRecv out maxPolls { s with calls := cs }) rfl ht hplan
    obtain ⟨t, r₂, a⟩ := h.recvStart hwf
    refine ⟨⟨t, (run_of_step 1 r₁).trans (run_of_step 0 r₂), a.pos, a.polls,
      a.bound, a.outBuffer, a.result, a.lifecycle.trans hl, a.calls,
      a.turns, a.plan, a.dev, a.history⟩, fun hzero => ?_⟩
    obtain ⟨u, v, r₃, r₄, b⟩ := a.recvTimeout hwf hzero.le
    exact ⟨_, (run_of_step 3 r₁).trans <| (run_of_step 2 r₂).trans <| (run_of_step 1 r₃).trans <| run_of_step 0 r₄, rfl,
      rfl, b.recv3_lifecycle.trans hl, b.outBuffer, b.dev, b.history⟩

end Sys2Proof.Machine
end

section
/-! SUPPORT. O58: the handle that each call needs, and what a step can make of the handle (R275, R301). -/

namespace Sys2Proof.Machine

open Host (Outcome)

/-! ### Calls by the handle they need -/

/-- The one state of the handle in which HOST takes the call (R275, R301; log entries 9 and 28). -/
def neededLifecycle : Call → Lifecycle
  | .newHandle => .consumed
  | .init => .uninitialized
  | .send _ | .recv _ _ | .forceIdle | .instr _ | .wire _ => .ready

/-- Only `init` is for an `Uninitialized` handle (R301). -/
theorem neededLifecycle_eq_uninitialized_iff (c : Call) : neededLifecycle c = .uninitialized ↔ c = .init := by
  cases c <;> simp [neededLifecycle]

section

variable {s : State} {c : Call} {cs : List Call}

theorem callReady_refused (run : State → Outcome State Fault Refusal) (hl : s.lifecycle ≠ .ready) :
    callReady run s = .refused .opNotAllowed := by
  unfold callReady
  split
  · contradiction
  · rfl
  · rfl

theorem takeCall_init (hl : s.lifecycle = .uninitialized) : takeCall .init s = .next (startAt .init1 s) := by
  simp only [takeCall, callInit, hl]

theorem takeCall_send (data : List Byte) (hl : s.lifecycle = .ready) :
    takeCall (.send data) s = .next (startSend data s) := by
  simp only [takeCall, callReady, hl]

theorem takeCall_recv (out : List Byte) (maxPolls : Nat) (hl : s.lifecycle = .ready) :
    takeCall (.recv out maxPolls) s = .next (startRecv out maxPolls s) := by
  simp only [takeCall, callReady, hl]

theorem takeCall_forceIdle (hl : s.lifecycle = .ready) : takeCall .forceIdle s = .next (startAt .forceIdle1 s) := by
  simp only [takeCall, callReady, hl]

theorem takeCall_newHandle (hl : s.lifecycle = .consumed) :
    takeCall .newHandle s = .next (returnOk .ok { s with lifecycle := .uninitialized }) := by
  simp only [takeCall, callNewHandle, hl]

/-- On any other handle the call is refused (R275, R301). -/
theorem takeCall_refused (hl : s.lifecycle ≠ neededLifecycle c) : takeCall c s = .refused .opNotAllowed := by
  cases c with
  | newHandle =>
    simp only [takeCall, callNewHandle]
    split
    · rfl
    · contradiction
    · rfl
  | init =>
    simp only [takeCall, callInit]
    split
    · contradiction
    · rfl
    · rfl
  | send | recv | forceIdle | instr | wire =>
    simp only [takeCall]
    exact callReady_refused _ hl

/-- With no operation running and no turn listed, a step takes the next call. -/
theorem step_call (hp : s.pos = .idle) (hc : s.calls = c :: cs) (ht : s.turns = []) :
    step s = takeCall c { s with calls := cs } :=
  (step_unscheduled ht).trans (hostMove_call hp hc)

theorem step_call_refused (hp : s.pos = .idle) (hc : s.calls = c :: cs) (ht : s.turns = [])
    (hl : s.lifecycle ≠ neededLifecycle c) : step s = .refused .opNotAllowed :=
  (step_call hp hc ht).trans (takeCall_refused hl)

end

/-! ### The handle across a step -/

/-- The operation running at `s` has ended early in `t`, with what that leaves of its handle (R224, R251, R252). -/
def EndedEarly (s t : State) : Prop :=
  t.lifecycle = lifecycleAfterLoss s ∧ t.pos = .idle ∧ t.result ≠ some .ok

/-- The handle is as it was, or the operation around it ended early. -/
def KeepsOrEnds (s t : State) : Prop := t.lifecycle = s.lifecycle ∨ EndedEarly s t

/-- A transaction with its implicit test: the sequence may go on with its handle, or the operation ended (R251). -/
def TestedXact (s t : State) : Prop :=
  (t.bus.ret = .ok ∧ t.lifecycle = s.lifecycle ∧ t.pos = s.pos) ∨ (t.bus.ret ≠ .ok ∧ EndedEarly s t)

/-- Everything a move can make of the handle: beside keeping it or ending early, the return of `init` and `new_handle`
(R275, R301). -/
def HandleMove (s t : State) : Prop :=
  KeepsOrEnds s t ∨
  (s.pos = .init8 ∧ t.lifecycle = .ready ∧ t.result = some .ok) ∨
  (s.pos = .idle ∧ s.lifecycle = .consumed ∧ t.lifecycle = .uninitialized ∧ t.history = s.history)

section

variable {s t : State}

theorem EndedEarly.handleMove (h : EndedEarly s t) : HandleMove s t := .inl (.inr h)

theorem HandleMove.kept (h : t.lifecycle = s.lifecycle) : HandleMove s t := .inl (.inl h)

theorem raiseError_endedEarly (e : Err) (s : State) : EndedEarly s (raiseError e s) := ⟨rfl, rfl, nofun⟩

theorem dropOperation_endedEarly (s : State) : EndedEarly s (dropOperation s) := ⟨rfl, rfl, nofun⟩

/-- The implicit test by the plan of the transaction. -/
theorem TestedXact.of_plan {p : Plan} (hret : t.bus.ret = planRet p)
    (hr : (t.lifecycle, t.pos, t.result) = planResult p s) : TestedXact s t := by
  obtain ⟨hlife, hpos, hres⟩ : t.lifecycle = (planResult p s).1 ∧ t.pos = (planResult p s).2.1 ∧
      t.result = (planResult p s).2.2 := by simp [← hr]
  cases p with
  | ok => exact .inl ⟨hret, hlife, hpos⟩
  | fail | cut => exact .inr ⟨by rw [hret]; nofun, hlife, hpos, by rw [hres]; nofun⟩

theorem exec_testedXact {i : Instr} (h : exec i s = .next t) : TestedXact s t := by
  obtain ⟨h0, h1, c, bytes, v, dec, dev, hist, pool, ctr, -, -, rfl⟩ := exec_inv i s t h
  exact .of_plan (p := s.bus.plan) rfl rfl

theorem transact_testedXact {ops : List SubOp} (h : transact ops s = .next t) : TestedXact s t := by
  obtain ⟨dec, dev, bytes, hist, pool, ctr, -, -, rfl⟩ := transact_inv ops s t h
  exact .of_plan (p := s.bus.plan) rfl rfl

theorem TestedXact.keepsOrEnds (h : TestedXact s t) : KeepsOrEnds s t := by
  rcases h with ⟨-, hlife, -⟩ | ⟨-, hend⟩
  · exact .inl hlife
  · exact .inr hend

/-- What ends early in a state with the handle and the position of `s` ends early from `s`. -/
theorem KeepsOrEnds.of_same {v : State} (h : KeepsOrEnds v t) (hlife : v.lifecycle = s.lifecycle)
    (hpos : v.pos = s.pos) : KeepsOrEnds s t := by
  rcases h with hkeep | ⟨hafter, hidle, hres⟩
  · exact .inl (hkeep.trans hlife)
  · exact .inr ⟨by rw [hafter, lifecycleAfterLoss, lifecycleAfterLoss, hlife, hpos], hidle, hres⟩

/-- A line that issues a transaction, if what it goes on with keeps the handle or ends early. -/
theorem afterXact_keepsOrEnds {o : Outcome State Fault Refusal} {k : State → State} (h : afterXact o k = .next t)
    (ho : ∀ v, o = .next v → TestedXact s v) (hk : ∀ v, KeepsOrEnds v (k v)) : KeepsOrEnds s t := by
  obtain ⟨v, rfl, -⟩ := afterXact_inv h
  rcases ho v rfl with ⟨hok, hlife, hpos⟩ | ⟨hlost, hend⟩
  · cases (afterXact_ok k rfl hok).symm.trans h
    exact (hk v).of_same hlife hpos
  · cases (afterXact_lost k hlost).symm.trans h
    exact .inr hend

/-- A line that issues an instruction. -/
theorem afterExec_keepsOrEnds (i : Instr) {k : State → State} (h : afterXact (exec i s) k = .next t)
    (hk : ∀ v, KeepsOrEnds v (k v)) : KeepsOrEnds s t :=
  afterXact_keepsOrEnds h (fun _ => exec_testedXact) hk

/-- A poll, if what follows it keeps the handle (R233, R242). -/
theorem poll_keepsOrEnds {k : State → State} (h : poll s k = .next t) (hk : ∀ v, (k v).lifecycle = v.lifecycle) :
    KeepsOrEnds s t :=
  afterExec_keepsOrEnds (s := { s with regs := { s.regs with polls := s.regs.polls + 1 } }) (.rdu32 .sysStatus) h
    fun _ => .inl (hk _)

@[simp] theorem recvBranch_lifecycle (v : State) : (recvBranch v).lifecycle = v.lifecycle := by
  simp only [recvBranch, apply_ite State.lifecycle, goTo_lifecycle, ite_self]

/-- The copy of `recv` fills the caller's buffer, whatever the read returned, and nothing of the handle (R243). -/
theorem recv2Data_keepsOrEnds (h : recv2Data s = .next t) : KeepsOrEnds s t := by
  unfold recv2Data at h
  split at h
  · rename_i v hv
    refine afterXact_keepsOrEnds h (fun w hw => ?_) fun _ => .inl rfl
    cases hw
    have hread : TestedXact s v := exec_testedXact (i := .rd .rxBuffer s.regs.n) hv
    exact hread
  · cases h
  · cases h

/-- Every line of every operation: only line 8 of `init` makes a handle `Ready` (R222). -/
theorem runLine_handleMove (h : runLine s = .next t) : HandleMove s t := by
  unfold runLine at h
  cases hp : s.pos <;> simp only [hp] at h
  case init8 => cases h; exact .inr (.inl ⟨hp, rfl, rfl⟩)
  case idle | init1 | init3 | init7 => cases h; exact .kept rfl
  case init5 =>
    unfold init5 at h
    split at h <;> cases h
    · exact (raiseError_endedEarly _ s).handleMove
    · exact .kept rfl
  case send5 => cases h; exact (raiseError_endedEarly _ (emitDiag _ s)).handleMove
  case recv3 => exact .inl (afterExec_keepsOrEnds .fcIdle h fun v => .inr (raiseError_endedEarly _ v))
  case init2 | forceIdle1 => exact .inl (afterExec_keepsOrEnds .fcIdle h fun _ => .inl rfl)
  case init4 => exact .inl (afterExec_keepsOrEnds (.rdu32 .devId) h fun _ => .inl rfl)
  case init6 => exact .inl (afterExec_keepsOrEnds .fcClrirq h fun _ => .inl rfl)
  case send1 => exact .inl (afterExec_keepsOrEnds (.wr .txBuffer s.regs.data) h fun _ => .inl rfl)
  case send2 =>
    exact .inl (afterExec_keepsOrEnds
      (s := { s with regs := { s.regs with len := txLength s.regs.data.length } }) (.wru32 .txFctrl _) h
      fun _ => .inl rfl)
  case send3 => exact .inl (afterExec_keepsOrEnds .fcTx h fun _ => .inl rfl)
  case send4 =>
    unfold send4 at h
    split at h
    · exact .inl (poll_keepsOrEnds h fun v => by split <;> rfl)
    · cases h; exact .kept rfl
  case recv2 =>
    unfold recv2 at h
    split at h
    · exact .inl (poll_keepsOrEnds h recvBranch_lifecycle)
    · cases h; exact .kept rfl
  case recv1 | recv2Enable => exact .inl (afterExec_keepsOrEnds .fcRx h fun _ => .inl rfl)
  case recv2Info => exact .inl (afterExec_keepsOrEnds (.rdu32 .rxFinfo) h fun _ => .inl rfl)
  case recv2Data => exact .inl (recv2Data_keepsOrEnds h)
  case send4Clear | recv2Clear | recv2ErrClear =>
    exact .inl (afterExec_keepsOrEnds (.wru32 .sysStatus _) h fun _ => .inl rfl)

/-- A raw transaction (log entry 29). -/
theorem runWire_testedXact {ops : List SubOp} (h : runWire ops s = .next t) : TestedXact s t := by
  unfold runWire at h
  split at h
  · exact exec_testedXact h
  · exact transact_testedXact h

/-- Every call that HOST takes: only `new_handle` makes a handle `Uninitialized` (R220). -/
theorem takeCall_handleMove {c : Call} (hp : s.pos = .idle) (h : takeCall c s = .next t) : HandleMove s t := by
  have hl : s.lifecycle = neededLifecycle c := by
    by_contra hne
    cases (takeCall_refused hne).symm.trans h
  cases c with
  | newHandle => cases (takeCall_newHandle hl).symm.trans h; exact .inr (.inr ⟨hp, hl, rfl, rfl⟩)
  | init => cases (takeCall_init hl).symm.trans h; exact .kept rfl
  | send data => cases (takeCall_send data hl).symm.trans h; exact .kept rfl
  | recv out maxPolls => cases (takeCall_recv out maxPolls hl).symm.trans h; exact .kept rfl
  | forceIdle => cases (takeCall_forceIdle hl).symm.trans h; exact .kept rfl
  | instr i =>
    simp only [takeCall] at h
    exact .inl (exec_testedXact (s := { s with result := none }) (callReady_inv _ s t h).2).keepsOrEnds
  | wire ops =>
    simp only [takeCall] at h
    exact .inl (runWire_testedXact (s := { s with result := none }) (callReady_inv _ s t h).2).keepsOrEnds

/-- Every move of HOST. -/
theorem hostMove_handleMove (h : hostMove s = .next t) : HandleMove s t := by
  by_cases hp : s.pos = .idle
  · cases hc : s.calls with
    | nil => cases (hostMove_wait hp hc).symm.trans h; exact .kept rfl
    | cons c cs =>
      exact takeCall_handleMove (s := { s with calls := cs }) hp ((hostMove_call hp hc).symm.trans h)
  · exact runLine_handleMove ((hostMove_line hp).symm.trans h)

theorem radioMove_lifecycle (ev : RadioEvent) (s : State) : (radioMove ev s).lifecycle = s.lifecycle := by
  rcases radioMove_cases ev s with ⟨-, he⟩ | he
  · rw [he]; cases ev <;> rfl
  · rw [he]

/-- Every step of the machine. -/
theorem step_handleMove (h : step s = .next t) : HandleMove s t := by
  cases hts : s.turns with
  | nil => exact hostMove_handleMove ((step_unscheduled hts).symm.trans h)
  | cons turn ts =>
    cases turn with
    | host p =>
      exact hostMove_handleMove (s := { s with turns := ts, bus := { s.bus with plan := p } })
        ((step_host hts).symm.trans h)
    | radio ev => cases (step_radio hts).symm.trans h; exact .kept (radioMove_lifecycle ev { s with turns := ts })
    | abandon =>
      by_cases hp : s.pos = .idle
      · cases (step_abandon_idle hts hp).symm.trans h
        exact .kept rfl
      · cases (step_abandon_running hts hp).symm.trans h
        exact (dropOperation_endedEarly { s with turns := ts }).handleMove

/-- An early end changes the handle only of `init`, and consumes it (R224). -/
theorem EndedEarly.inInit_of_changed (h : EndedEarly s t) (hne : t.lifecycle ≠ s.lifecycle) :
    inInit s.pos = true ∧ t.lifecycle = .consumed := by
  obtain ⟨hlife, -, -⟩ := h
  cases hi : inInit s.pos with
  | false => exact absurd (hlife.trans (lifecycleAfterLoss_of_not_init hi)) hne
  | true => exact ⟨rfl, by rw [hlife, lifecycleAfterLoss, if_pos hi]⟩

/-- `init` runs on an `Uninitialized` handle (R275). -/
theorem uninitialized_of_inInit (h : lifecycleFits s = true) (hi : inInit s.pos = true) :
    s.lifecycle = .uninitialized := by
  simpa [lifecycleFits, hi] using h

end

/-- Settles O58: a call is taken or refused by the one handle it needs, at reset as elsewhere; and of what a step can
make of the handle, the invariant leaves the three changes. -/
theorem lifecycleGuardsTheOperations : Obligations.LifecycleGuardsTheOperations := by
  refine ⟨fun s c cs hp hc ht => ?_, fun c cs => ?_, fun s t hinv hstep hne => ?_⟩
  · have taken := step_call hp hc ht
    have refused := step_call_refused hp hc ht
    refine ⟨?_, fun data => ?_, fun out maxPolls => ?_, ?_, ?_, ?_, fun i => ?_, fun ops => ?_⟩ <;> rintro rfl
    · exact ⟨fun hl => ⟨_, taken.trans (takeCall_init hl), rfl, rfl, rfl, rfl⟩, refused⟩
    · exact ⟨fun hl => ⟨_, taken.trans (takeCall_send data hl), rfl, rfl, rfl, rfl⟩, refused⟩
    · exact ⟨fun hl => ⟨_, taken.trans (takeCall_recv out maxPolls hl), rfl, rfl, rfl, rfl⟩, refused⟩
    · exact ⟨fun hl => ⟨_, taken.trans (takeCall_forceIdle hl), rfl, rfl, rfl, rfl⟩, refused⟩
    · exact fun hl => ⟨_, taken.trans (takeCall_newHandle hl), rfl, rfl, rfl, rfl, rfl⟩
    · exact refused
    · exact refused
    · exact refused
  · have refused (hne : c ≠ .init) : step { State.reset with calls := c :: cs } = .refused .opNotAllowed :=
      step_call_refused rfl rfl rfl fun hl => hne ((neededLifecycle_eq_uninitialized_iff c).mp hl.symm)
    refine ⟨⟨fun ⟨t, hstep⟩ => ?_, ?_⟩, refused⟩
    · by_contra hne
      cases (refused hne).symm.trans hstep
    · rintro rfl
      exact ⟨_, (step_call rfl rfl rfl).trans (takeCall_init rfl)⟩
  · obtain ⟨-, -, hfits, -, -⟩ := hinv
    rcases step_handleMove hstep with (hkeep | hend) | ⟨hpos, hlife, hres⟩ | ⟨hpos, hold, hnew, hhist⟩
    · exact absurd hkeep hne
    · obtain ⟨hi, hlife⟩ := hend.inInit_of_changed hne
      obtain ⟨-, hpos, hres⟩ := hend
      exact .inr (.inl ⟨uninitialized_of_inInit hfits hi, hi, hlife, hpos, hres⟩)
    · exact .inl ⟨uninitialized_of_inInit hfits (by rw [hpos]; rfl), hpos, hlife, hres⟩
    · exact .inr (.inr ⟨hold, hpos, hnew, hhist⟩)

end Sys2Proof.Machine
end

section
/-! SUPPORT. O5 and O6: the decoder on what the encoder makes of each kind of instruction (R103, R106, R108 to R116). -/

namespace Sys2Proof.Machine

/-- A header of a catalog register leads to the data phase of that register (R11, R111). -/
theorem decode_regHeader (cfg : Config) (r : Reg) (wr : Bool) (body : List Slot) :
    decode cfg ((regHeader cfg r wr).map .write ++ body) =
      decodeBody cfg wr (regAddr cfg r).fileId (regAddr cfg r).subAddress body := by
  simp only [map_regHeader, List.cons_append, List.nil_append,
    decode_header cfg body (hdrFull_headerByte0 _ _ _) (hdrMode_headerByte1 _), hdrWr_headerByte0, hdrFid_headerByte0,
    hdrSubHigh_headerByte0, hdrSubLow_headerByte1, joinSub_parts]

/-- The slots of `RD` decode to it (R112, R130). -/
theorem decode_encode_rd (cfg : Config) (hwf : cfg.wf = true) (r : Reg) (n : Nat) :
    decode cfg (expand (encode cfg (.rd r n))) = .instr (.rd r n) := by
  rw [encode, expand_header, decode_regHeader]
  simp only [decodeBody, catalogLookup_regAddr cfg hwf r, expand, subOpSlots, List.append_nil, readCount_replicate]

/-- The slots of `WR` decode to it (R112, R131). -/
theorem decode_encode_wr (cfg : Config) (hwf : cfg.wf = true) (r : Reg) (data : List Byte) :
    decode cfg (expand (encode cfg (.wr r data))) = .instr (.wr r data) := by
  rw [encode, expand_header, decode_regHeader]
  simp only [decodeBody, catalogLookup_regAddr cfg hwf r, expand, subOpSlots, List.append_nil, writeBytes_map]

/-- The byte of a code decodes to the row of the code (R106, R108). -/
theorem decode_fcByte (cfg : Config) (code : Nat) :
    decode cfg (expand [.write [fcByte code]]) = .instr (fastInstr cfg (BitVec.ofNat 5 code)) := by
  rw [← fcCode_fcByte code]
  exact decode_fast cfg (isFastByte_fcByte code)

/-- The codes of a well-formed `CMD` are those of their rows (R108; log entry 4). -/
theorem fastInstr_named (cfg : Config) (hwf : cfg.wf = true) :
    fastInstr cfg cfg.cmd.tx = .fcTx ∧ fastInstr cfg cfg.cmd.rx = .fcRx ∧ fastInstr cfg cfg.cmd.idle = .fcIdle ∧
      fastInstr cfg cfg.cmd.drxdb = .fcDrxdb ∧ fastInstr cfg cfg.cmd.clrirq = .fcClrirq := by
  simp only [Config.wf, Bool.and_eq_true, cmdDistinct, decide_eq_true_eq, List.nodup_cons, List.mem_cons,
    List.not_mem_nil, or_false, not_or] at hwf
  obtain ⟨-, ⟨h12, h13, h14, h15⟩, ⟨h23, h24, h25⟩, ⟨h34, h35⟩, h45, -⟩ := hwf
  refine ⟨?_, ?_, ?_, ?_, ?_⟩ <;>
    simp only [fastInstr, Ne.symm h12, Ne.symm h13, Ne.symm h14, Ne.symm h15, Ne.symm h23, Ne.symm h24, Ne.symm h25,
      Ne.symm h34, Ne.symm h35, Ne.symm h45, if_true, if_false]

/-- A reserved header decodes by its mode, with the fields of the header as encoded (R103, R115). -/
theorem decode_reservedHeader (cfg : Config) (wr : Bool) (fid : BitVec 5) (sub : BitVec 7) {mode : Nat}
    (hm : mode < 4) (hne : BitVec.ofNat 2 mode ≠ 0) :
    decode cfg (expand [.write (reservedHeader wr fid sub mode)]) =
      if BitVec.ofNat 2 mode = 1 then .instr (.reservedFaMode1 wr fid sub)
      else if BitVec.ofNat 2 mode = 2 then .instr (.reservedFaMode2 wr fid sub)
      else .instr (.reservedFaMode3 wr fid sub) := by
  simp only [expand, subOpSlots, reservedHeader, List.map_cons, List.map_nil, List.append_nil, decode, decodeRest,
    hdrFull_headerByte0, if_true, decodeFull, hdrWr_headerByte0, hdrFid_headerByte0, hdrSubHigh_headerByte0,
    hdrSubLow_or_mode _ mode hm, hdrSubLow_headerByte1, joinSub_parts, hdrMode_or_mode _ mode hm, if_neg hne]

/-- A byte with bit 6 clear that is no fast command decodes by its bit 7 (R114). -/
theorem decode_reservedFirstByte (cfg : Config) {b0 : Byte} (hf : hdrFull b0 = false) (hfast : isFastByte b0 = false) :
    decode cfg (expand [.write [b0]]) =
      if b0.getLsbD 7 then .instr (.reservedB010x0 (b0.extractLsb' 1 5))
      else .instr (.reservedB000 (b0.extractLsb' 0 6)) := by
  simp only [expand, subOpSlots, List.map_cons, List.map_nil, List.append_nil, decode, decodeRest, hf, hfast,
    Bool.false_eq_true, if_false]

/-- The first byte `00------` decodes to its low six bits (R114). -/
theorem decode_reservedByte00 (cfg : Config) (low : BitVec 6) :
    decode cfg (expand [.write [reservedByte00 low]]) = .instr (.reservedB000 low) := by
  have h7 : (reservedByte00 low).getLsbD 7 = false := by simp [reservedByte00]
  have hlow : (reservedByte00 low).extractLsb' 0 6 = low := by
    ext i hi
    interval_cases i <;> simp [reservedByte00]
  rw [decode_reservedFirstByte cfg (by simp [hdrFull, reservedByte00]) (isFastByte_eq_false (.inl h7)), h7, hlow]
  rfl

/-- The first byte `10-----0` decodes to its bits 5:1 (R114). -/
theorem decode_reservedByte10 (cfg : Config) (mid : BitVec 5) :
    decode cfg (expand [.write [reservedByte10 mid]]) = .instr (.reservedB010x0 mid) := by
  have h7 : (reservedByte10 mid).getLsbD 7 = true := by simp [reservedByte10]
  have h0 : (reservedByte10 mid).getLsbD 0 = false := by simp [reservedByte10]
  have hmid : (reservedByte10 mid).extractLsb' 1 5 = mid := by
    ext i hi
    interval_cases i <;> simp [reservedByte10]
  rw [decode_reservedFirstByte cfg (by simp [hdrFull, reservedByte10]) (isFastByte_eq_false (.inr h0)), h7, hmid]
  rfl

/-- Settles O5: by the kind of encoding, a header with its data phase, a fast-command byte, a reserved header, a
reserved first byte. -/
theorem decodeOfEncode : Obligations.DecodeOfEncode := by
  intro cfg i hwf hi
  obtain ⟨htx, hrx, hidle, hdrxdb, hclrirq⟩ := fastInstr_named cfg hwf
  have named {code : BitVec 5} {row : Instr} (h : fastInstr cfg code = row) :
      decode cfg (expand [.write [fcByte code.toNat]]) = .instr row := by
    rw [decode_fcByte, ofNat_code, h]
  cases i with
  | rd r n => exact decode_encode_rd cfg hwf r n
  | rdu32 r => exact decode_encode_rd cfg hwf r 4
  | wr r data => exact decode_encode_wr cfg hwf r data
  | wru32 r v => exact decode_encode_wr cfg hwf r (le32 v)
  | fc code => exact decode_fcByte cfg code
  | fcTx => exact named htx
  | fcRx => exact named hrx
  | fcIdle => exact named hidle
  | fcDrxdb => exact named hdrxdb
  | fcClrirq => exact named hclrirq
  | reservedFcUnassigned code =>
    have hcode : assignedCode cfg code = false := by simpa [wellFormed] using hi
    exact named (fastInstr_unassigned cfg code hcode)
  | reservedFaMode1 wr fid sub => exact decode_reservedHeader cfg wr fid sub (mode := 1) (by decide) (by decide)
  | reservedFaMode2 wr fid sub => exact decode_reservedHeader cfg wr fid sub (mode := 2) (by decide) (by decide)
  | reservedFaMode3 wr fid sub => exact decode_reservedHeader cfg wr fid sub (mode := 3) (by decide) (by decide)
  | reservedB000 low => exact decode_reservedByte00 cfg low
  | reservedB010x0 mid => exact decode_reservedByte10 cfg mid

/-- Settles O6: nine closed words, run through the decoder. -/
theorem specWordsDecode : Obligations.SpecWordsDecode := by
  unfold Obligations.SpecWordsDecode
  decide

end Sys2Proof.Machine
end

section
/-! SUPPORT. O45: the parameters and the instruments across a step (R10, R43, R44). -/

namespace Sys2Proof.Machine

theorem applyEvent_cfg (ev : RadioEvent) (s : State) : (applyEvent ev s).cfg = s.cfg := by cases ev <;> rfl
theorem applyEvent_diag (ev : RadioEvent) (s : State) : (applyEvent ev s).diag = s.diag := by cases ev <;> rfl

/-- A move of HOST extends the history, by the record of its transaction or by delays, and the log (R43, R44). -/
theorem HostEffect.instruments_grow {s t : State} (h : HostEffect s t) :
    t.cfg = s.cfg ∧ (∃ added, t.history = s.history ++ added) ∧ ∃ ms, t.diag = s.diag ++ ms := by
  obtain ⟨hcfg, hdiag, ⟨_, _, _, _, _, -, hh, -⟩ | ⟨-, -, -, ds, hh, -⟩⟩ := h
  · exact ⟨hcfg, ⟨_, hh⟩, hdiag⟩
  · exact ⟨hcfg, ⟨ds, hh⟩, hdiag⟩

/-- Settles O45, by whose turn it is. -/
theorem instrumentsOnlyGrow : Obligations.InstrumentsOnlyGrow := by
  intro s t h
  rcases step_inv s t h with ⟨-, hu⟩ | ⟨p, ts, -, hu⟩ | ⟨ev, ts, -, rfl⟩ | ⟨ts, -, rfl⟩
  · exact hu.instruments_grow
  · exact hu.instruments_grow
  · rcases radioMove_cases ev { s with turns := ts } with ⟨-, he⟩ | he
    · rw [he]
      exact ⟨applyEvent_cfg _ _, ⟨_, applyEvent_history _ _⟩, [], by rw [applyEvent_diag, List.append_nil]⟩
    · rw [he]
      exact ⟨rfl, ⟨[], (List.append_nil _).symm⟩, [], (List.append_nil _).symm⟩
  · split <;> exact ⟨rfl, ⟨[], (List.append_nil _).symm⟩, [], (List.append_nil _).symm⟩

end Sys2Proof.Machine
end

section
/-! SUPPORT. O43: the running operation and its registers, line by line (R20, R23, R275). -/

namespace Sys2Proof.Machine

open Host (Outcome)

/-- The part of the invariant that speaks of the running operation and its registers. -/
def SequenceInv (s : State) : Prop := lifecycleFits s = true ∧ PollsBounded s ∧ CopyBounded s

/-- The two lines are of the same operation. -/
abbrev SameOperation (p q : Pos) : Prop :=
  inInit p = inInit q ∧ inSend p = inSend q ∧ inRecv p = inRecv q ∧ (p = .forceIdle1 ↔ q = .forceIdle1)

section

variable {s t : State}

/-- The counters of the sequence are none of the registers that a transaction overwrites (R20). -/
theorem counters_eq {r r' : HostRegs} (h : sequenceRegs r = sequenceRegs r') :
    r.polls = r'.polls ∧ r.bound = r'.bound ∧ r.n = r'.n ∧ r.p = r'.p ∧ r.outBuffer = r'.outBuffer :=
  ⟨congrArg (·.polls) h, congrArg (·.bound) h, congrArg (·.n) h, congrArg (·.p) h, congrArg (·.outBuffer) h⟩

/-- The operation has ended, its registers left as they were. -/
theorem SequenceInv.ended (h : SequenceInv s) (hpos : t.pos = .idle)
    (hregs : sequenceRegs t.regs = sequenceRegs s.regs) : SequenceInv t := by
  obtain ⟨-, ⟨hpolls, -⟩, hcount, hpayload, -⟩ := h
  obtain ⟨hp, hb, hn, hl, -⟩ := counters_eq hregs
  refine ⟨by rw [lifecycleFits, hpos]; rfl, ⟨by rw [hp, hb]; exact hpolls, fun hs => ?_⟩, by rw [hn, hl]; exact hcount,
    by rw [hl]; exact hpayload, fun hc => ?_⟩
  · rw [hpos] at hs
    cases hs
  · rw [hpos] at hc
    rcases hc with hc | hc <;> cases hc

/-- The operation stands where it stood. -/
theorem SequenceInv.congr (h : SequenceInv s) (hpos : t.pos = s.pos) (hlife : t.lifecycle = s.lifecycle)
    (hregs : sequenceRegs t.regs = sequenceRegs s.regs) : SequenceInv t := by
  obtain ⟨hp, hb, hn, hl, ho⟩ := counters_eq hregs
  simpa only [SequenceInv, lifecycleFits, PollsBounded, CopyBounded, hpos, hlife, hp, hb, hn, hl, ho] using h

/-- A transaction keeps the sequence or, by its plan, ends it (R251). -/
theorem SequenceInv.of_plan {p : Plan} (h : SequenceInv s) (hregs : sequenceRegs t.regs = sequenceRegs s.regs)
    (hr : (t.lifecycle, t.pos, t.result) = planResult p s) : SequenceInv t := by
  obtain ⟨hlife, hpos, -⟩ : t.lifecycle = (planResult p s).1 ∧ t.pos = (planResult p s).2.1 ∧
      t.result = (planResult p s).2.2 := by simp [← hr]
  cases p with
  | ok => exact h.congr hpos hlife hregs
  | fail | cut => exact h.ended hpos hregs

theorem SequenceInv.exec {i : Instr} (h : SequenceInv s) (hx : exec i s = .next t) : SequenceInv t := by
  obtain ⟨h0, h1, c, bytes, v, dec, dev, hist, pool, ctr, -, -, rfl⟩ := exec_inv i s t hx
  exact h.of_plan (p := s.bus.plan) rfl rfl

theorem SequenceInv.transact {ops : List SubOp} (h : SequenceInv s) (hx : transact ops s = .next t) :
    SequenceInv t := by
  obtain ⟨dec, dev, bytes, hist, pool, ctr, -, -, rfl⟩ := transact_inv ops s t hx
  exact h.of_plan (p := s.bus.plan) rfl rfl

/-- The operation goes on at another of its lines; where that is one of the copy, the count fits the caller's buffer
(R20, R275). -/
theorem SequenceInv.goTo {p q : Pos} (h : SequenceInv s) (hp : s.pos = p) (hop : SameOperation p q)
    (hcopy : (q ≠ .recv2Data ∧ q ≠ .recv2Clear) ∨ s.regs.n ≤ s.regs.outBuffer.length) : SequenceInv (goTo q s) := by
  obtain ⟨hlife, ⟨hpolls, hbound⟩, hcount, hpayload, -⟩ := h
  subst hp
  obtain ⟨hinit, hsend, hrecv, hforce⟩ := hop
  have hfits : lifecycleFits (Machine.goTo q s) = lifecycleFits s := by
    simp only [lifecycleFits, goTo_pos, goTo_lifecycle, hinit, hsend, hrecv, Bool.beq_eq_decide_eq, hforce]
  exact ⟨hfits.trans hlife, ⟨hpolls, fun hs => hbound (hsend.trans hs)⟩, hcount, hpayload,
    fun hc => hcopy.resolve_left fun hne => hc.elim hne.1 hne.2⟩

/-- No poll made is within every bound (R23). -/
theorem SequenceInv.resetPolls (h : SequenceInv s) : SequenceInv { s with regs := { s.regs with polls := 0 } } := by
  obtain ⟨hlife, ⟨-, hbound⟩, hcopy⟩ := h
  exact ⟨hlife, ⟨Nat.zero_le _, hbound⟩, hcopy⟩

/-- A line that issues a transaction and goes on, if it succeeded, as `k` says. -/
theorem afterXact_sequenceInv {o : Outcome State Fault Refusal} {k : State → State} {p : Pos}
    (h : afterXact o k = .next t) (ho : ∀ v, o = .next v → SequenceInv v ∧ (v.bus.ret = .ok → v.pos = p))
    (hk : ∀ v, SequenceInv v → v.pos = p → SequenceInv (k v)) : SequenceInv t := by
  obtain ⟨v, rfl, -⟩ := afterXact_inv h
  obtain ⟨hv, hpos⟩ := ho v rfl
  by_cases hok : v.bus.ret = .ok
  · cases (afterXact_ok k rfl hok).symm.trans h
    exact hk v hv (hpos hok)
  · cases (afterXact_lost k hok).symm.trans h
    exact hv

theorem TestedXact.pos_of_ok (h : TestedXact s t) (hok : t.bus.ret = .ok) : t.pos = s.pos := by
  rcases h with ⟨-, -, hpos⟩ | ⟨hlost, -⟩
  · exact hpos
  · exact absurd hok hlost

/-- A line that issues an instruction. -/
theorem afterExec_sequenceInv (i : Instr) {k : State → State} {p : Pos} (hs : SequenceInv s) (hp : s.pos = p)
    (h : afterXact (exec i s) k = .next t) (hk : ∀ v, SequenceInv v → v.pos = p → SequenceInv (k v)) :
    SequenceInv t :=
  afterXact_sequenceInv h (fun _ hv => ⟨hs.exec hv, fun hok => ((exec_testedXact hv).pos_of_ok hok).trans hp⟩) hk

/-- A line that issues an instruction and goes on at another line of its operation. -/
theorem afterExec_goTo_sequenceInv (i : Instr) {p q : Pos} (hs : SequenceInv s) (hp : s.pos = p)
    (h : afterXact (exec i s) (goTo q) = .next t) (hop : SameOperation p q)
    (hcopy : q ≠ .recv2Data ∧ q ≠ .recv2Clear) : SequenceInv t :=
  afterExec_sequenceInv i hs hp h fun _ hv hpv => hv.goTo hpv hop (.inl hcopy)

/-- A poll counts within its bound (R23, R233, R242). -/
theorem poll_sequenceInv {k : State → State} {p : Pos} (hs : SequenceInv s) (hp : s.pos = p)
    (hlt : s.regs.polls < s.regs.bound) (h : poll s k = .next t)
    (hk : ∀ v, SequenceInv v → v.pos = p → SequenceInv (k v)) : SequenceInv t := by
  obtain ⟨hlife, ⟨-, hbound⟩, hcopy⟩ := hs
  have hcounted : SequenceInv { s with regs := { s.regs with polls := s.regs.polls + 1 } } :=
    ⟨hlife, ⟨hlt, hbound⟩, hcopy⟩
  exact afterExec_sequenceInv (.rdu32 .sysStatus) hcounted hp h fun v hv hpv =>
    hk { v with regs := { v.regs with s := v.regs.rval } } hv hpv

/-- Where a poll of `recv` leads is a line of `recv` that is not one of the copy (R241). -/
theorem recvBranch_sequenceInv (hs : SequenceInv s) (hp : s.pos = .recv2) : SequenceInv (recvBranch s) := by
  unfold recvBranch
  split
  · exact hs.goTo hp (by decide) (.inl (by decide))
  · split
    · exact hs.goTo hp (by decide) (.inl (by decide))
    · exact hs.goTo hp (by decide) (.inl (by decide))

/-- The lengths of the good path are within the payload, the field and the caller's buffer (R192, R243). -/
theorem recvLengths_sequenceInv (hs : SequenceInv s) :
    SequenceInv (recvLengths s) ∧ (recvLengths s).regs.n ≤ (recvLengths s).regs.outBuffer.length := by
  obtain ⟨hlife, hpolls, -⟩ := hs
  exact ⟨⟨hlife, hpolls, Nat.min_le_left _ _, payloadLength_le _, fun _ => Nat.min_le_right _ _⟩, Nat.min_le_right _ _⟩

/-- The copy does not shorten the caller's buffer (R42, R243). -/
theorem fillOutBuffer_sequenceInv (hs : SequenceInv s) : SequenceInv (fillOutBuffer s) := by
  obtain ⟨hlife, hpolls, hcount, hpayload, hcopy⟩ := hs
  refine ⟨hlife, hpolls, hcount, hpayload, fun hc => (hcopy hc).trans ?_⟩
  simp only [fillOutBuffer_regs, patch, List.length_append, List.length_drop]
  omega

/-- While `recv` copies, the count fits the caller's buffer (R20). -/
theorem SequenceInv.count_fits (h : SequenceInv s) (hp : s.pos = .recv2Data) :
    s.regs.n ≤ s.regs.outBuffer.length := by
  obtain ⟨-, -, -, -, hcopy⟩ := h
  exact hcopy (.inl hp)

/-- The copy of `recv` (R243). -/
theorem recv2Data_sequenceInv (hs : SequenceInv s) (hp : s.pos = .recv2Data) (h : recv2Data s = .next t) :
    SequenceInv t := by
  unfold recv2Data at h
  split at h
  · rename_i u hu
    have hread : exec (.rd .rxBuffer s.regs.n) s = .next u := hu
    refine afterXact_sequenceInv (p := .recv2Data) h (fun w hw => ?_) fun w hw hpw => ?_
    · cases hw
      exact ⟨fillOutBuffer_sequenceInv (hs.exec hread), fun hok => ((exec_testedXact hread).pos_of_ok hok).trans hp⟩
    · exact hw.goTo hpw (by decide) (.inr (hw.count_fits hpw))
  · cases h
  · cases h

/-- Every line of every operation. -/
theorem runLine_sequenceInv (hs : SequenceInv s) (h : runLine s = .next t) : SequenceInv t := by
  unfold runLine at h
  cases hp : s.pos <;> simp only [hp] at h
  case idle => cases h; exact hs
  case init1 | init3 | init7 => cases h; exact hs.goTo hp (by decide) (.inl (by decide))
  case init2 => exact afterExec_goTo_sequenceInv .fcIdle hs hp h (by decide) (by decide)
  case init4 =>
    exact afterExec_sequenceInv (.rdu32 .devId) hs hp h fun v hv hpv =>
      SequenceInv.goTo (s := { v with regs := { v.regs with id := v.regs.rval } }) hv hpv (by decide)
        (.inl (by decide))
  case init5 =>
    unfold init5 at h
    split at h <;> cases h
    · exact hs.ended rfl rfl
    · exact hs.goTo hp (by decide) (.inl (by decide))
  case init6 => exact afterExec_goTo_sequenceInv .fcClrirq hs hp h (by decide) (by decide)
  case init8 | send5 => cases h; exact hs.ended rfl rfl
  case send1 => exact afterExec_goTo_sequenceInv (.wr .txBuffer s.regs.data) hs hp h (by decide) (by decide)
  case send2 =>
    exact afterExec_goTo_sequenceInv (s := { s with regs := { s.regs with len := txLength s.regs.data.length } })
      (.wru32 .txFctrl _) hs hp h (by decide) (by decide)
  case send3 =>
    exact afterExec_sequenceInv .fcTx hs hp h fun v hv hpv => hv.resetPolls.goTo hpv (by decide) (.inl (by decide))
  case send4 =>
    unfold send4 at h
    split at h
    · refine poll_sequenceInv hs hp ‹_› h fun v hv hpv => ?_
      split <;> exact hv.goTo hpv (by decide) (.inl (by decide))
    · cases h; exact hs.goTo hp (by decide) (.inl (by decide))
  case recv1 =>
    exact afterExec_sequenceInv .fcRx hs hp h fun v hv hpv => hv.resetPolls.goTo hpv (by decide) (.inl (by decide))
  case recv2 =>
    unfold recv2 at h
    split at h
    · exact poll_sequenceInv hs hp ‹_› h fun v => recvBranch_sequenceInv
    · cases h; exact hs.goTo hp (by decide) (.inl (by decide))
  case recv2Info =>
    refine afterExec_sequenceInv (.rdu32 .rxFinfo) hs hp h fun v hv hpv => ?_
    obtain ⟨hlen, hcopy⟩ := recvLengths_sequenceInv hv
    exact hlen.goTo hpv (by decide) (.inr hcopy)
  case recv2Data => exact recv2Data_sequenceInv hs hp h
  case recv2ErrClear => exact afterExec_goTo_sequenceInv (.wru32 .sysStatus _) hs hp h (by decide) (by decide)
  case recv2Enable => exact afterExec_goTo_sequenceInv .fcRx hs hp h (by decide) (by decide)
  case send4Clear | recv2Clear =>
    exact afterExec_sequenceInv (.wru32 .sysStatus _) hs hp h fun v hv _ => hv.ended rfl rfl
  case recv3 | forceIdle1 => exact afterExec_sequenceInv .fcIdle hs hp h fun v hv _ => hv.ended rfl rfl

/-- A raw transaction (log entry 29). -/
theorem runWire_sequenceInv {ops : List SubOp} (hs : SequenceInv s) (h : runWire ops s = .next t) :
    SequenceInv t := by
  unfold runWire at h
  split at h
  · exact hs.exec h
  · exact hs.transact h

/-- An operation starts on the handle it needs, its counters within their bounds (R230, R240, R275). -/
theorem takeCall_sequenceInv {c : Call} (hs : SequenceInv s) (h : takeCall c s = .next t) : SequenceInv t := by
  have hl : s.lifecycle = neededLifecycle c := by
    by_contra hne
    cases (takeCall_refused hne).symm.trans h
  obtain ⟨-, ⟨hpolls, -⟩, hcount, hpayload, -⟩ := id hs
  cases c with
  | newHandle => cases (takeCall_newHandle hl).symm.trans h; exact hs.ended rfl rfl
  | init =>
    cases (takeCall_init hl).symm.trans h
    exact ⟨beq_iff_eq.mpr hl, ⟨hpolls, nofun⟩, hcount, hpayload, nofun⟩
  | send data =>
    cases (takeCall_send data hl).symm.trans h
    exact ⟨beq_iff_eq.mpr hl, ⟨Nat.zero_le _, fun _ => rfl⟩, hcount, hpayload, nofun⟩
  | recv out maxPolls =>
    cases (takeCall_recv out maxPolls hl).symm.trans h
    exact ⟨beq_iff_eq.mpr hl, ⟨Nat.zero_le _, nofun⟩, hcount, hpayload, nofun⟩
  | forceIdle =>
    cases (takeCall_forceIdle hl).symm.trans h
    exact ⟨beq_iff_eq.mpr hl, ⟨hpolls, nofun⟩, hcount, hpayload, nofun⟩
  | instr i =>
    simp only [takeCall] at h
    exact SequenceInv.exec (s := { s with result := none }) hs (callReady_inv _ s t h).2
  | wire ops =>
    simp only [takeCall] at h
    exact runWire_sequenceInv (s := { s with result := none }) hs (callReady_inv _ s t h).2

/-- Every move of HOST. -/
theorem hostMove_sequenceInv (hs : SequenceInv s) (h : hostMove s = .next t) : SequenceInv t := by
  by_cases hp : s.pos = .idle
  · cases hc : s.calls with
    | nil => cases (hostMove_wait hp hc).symm.trans h; exact hs
    | cons c cs => exact takeCall_sequenceInv (s := { s with calls := cs }) hs ((hostMove_call hp hc).symm.trans h)
  · exact runLine_sequenceInv hs ((hostMove_line hp).symm.trans h)

/-- RADIO leaves the operation alone (R210). -/
theorem radioMove_sequenceInv (ev : RadioEvent) (hs : SequenceInv s) : SequenceInv (radioMove ev s) := by
  rcases radioMove_cases ev s with ⟨-, he⟩ | he <;> rw [he]
  · cases ev <;> exact hs
  · exact hs

end

end Sys2Proof.Machine
end

section
/-! SUPPORT. O43: the bus and the buffers' memories across a step, through the effect of a move (R24, R37, R71, R72),
and the invariant of the machine. -/

namespace Sys2Proof.Machine

section

variable {s t : State}

/-! ### The bus and the memories -/

/-- After a move of HOST the bus is quiet, if it was before. -/
theorem HostEffect.busQuiet (h : HostEffect s t) (hs : BusQuiet s) : BusQuiet t := by
  obtain ⟨-, -, ⟨_, _, _, _, _, -, -, hbus, hphase, -⟩ | ⟨-, hdec, hbus, -⟩⟩ := h
  · exact ⟨by rw [hbus], by rw [hbus], hphase⟩
  · rwa [BusQuiet, hbus, hdec]

/-- A transaction leaves `RX_BUFFER` alone and writes `TX_BUFFER` below its capacity (R131, R152). -/
theorem DeviceEffect.memories {cfg : Config} {sent : List Byte} {d d' : Device} {hist : List HistEvent}
    (h : DeviceEffect cfg sent d d' hist) (htx : memWf d.txBuffer = true) :
    memWf d'.txBuffer = true ∧ d'.rxBuffer = d.rxBuffer := by
  rcases h with ⟨rfl, -⟩ | ⟨r, data, -, hlen, -, rfl, -⟩ | ⟨code, -, hc⟩
  · exact ⟨htx, rfl⟩
  · cases r with
    | txBuffer => exact ⟨memWf_memWriteBytes _ 0 data (by rw [Nat.zero_add]; exact hlen) htx, rfl⟩
    | devId | eui64 | sysCfg | txFctrl | sysStatus | rxFinfo | rxBuffer => exact ⟨htx, rfl⟩
  · rcases command_cases _ _ _ _ _ hc with
      ⟨_, _, _, rfl, _⟩ | ⟨_, _, rfl, _⟩ | ⟨_, rfl, _⟩ | ⟨_, rfl, _⟩ | ⟨_, rfl, _⟩ <;> exact ⟨htx, rfl⟩

theorem HostEffect.memoriesWf (h : HostEffect s t) (hs : MemoriesWf s) : MemoriesWf t := by
  obtain ⟨htx, hrx⟩ := hs
  obtain ⟨-, -, ⟨_, _, _, _, _, heff, -⟩ | ⟨hdev, -⟩⟩ := h
  · obtain ⟨htx', hrx'⟩ := heff.memories htx
    exact ⟨htx', hrx' ▸ hrx⟩
  · rw [MemoriesWf, hdev]
    exact ⟨htx, hrx⟩

/-- RADIO never writes `TX_BUFFER`, and what it leaves in `RX_BUFFER` is draws or a payload that fits (R204 to R206). -/
theorem radioMove_memoriesWf (ev : RadioEvent) (hs : MemoriesWf s) : MemoriesWf (radioMove ev s) := by
  obtain ⟨htx, hrx⟩ := hs
  unfold radioMove
  split
  · rename_i hen
    cases ev with
    | rxGood len bytes =>
      have hlen : bytes.length = payloadLength len := by simpa [admissible] using (Bool.and_eq_true_iff.mp hen).2
      have hfit : 0 + bytes.length ≤ bufCap := by
        rw [hlen, Nat.zero_add]
        exact (payloadLength_le len).trans (by decide)
      exact ⟨htx, memWf_memWriteBytes [] 0 bytes hfit memWf_nil⟩
    | rxFcsError | rxPhyHeaderError => exact ⟨htx, memWf_nil⟩
    | txDone | rxPreambleTimeout | rxSfdTimeout => exact ⟨htx, hrx⟩
  · exact ⟨htx, hrx⟩

/-- RADIO leaves the bus alone (R210). -/
theorem radioMove_busQuiet (ev : RadioEvent) (hs : BusQuiet s) : BusQuiet (radioMove ev s) := by
  rcases radioMove_cases ev s with ⟨-, he⟩ | he <;> rw [he]
  · cases ev <;> exact hs
  · exact hs

/-! ### The invariant -/

/-- The three parts of the invariant. -/
theorem inv_iff : Inv s ↔ BusQuiet s ∧ MemoriesWf s ∧ SequenceInv s := Iff.rfl

/-- Every move of HOST keeps the invariant. -/
theorem hostMove_inv (hs : Inv s) (h : hostMove s = .next t) : Inv t := by
  obtain ⟨hbus, hmem, hseq⟩ := inv_iff.mp hs
  have heff := hostMove_hostEffect s t h
  exact ⟨heff.busQuiet hbus, heff.memoriesWf hmem, hostMove_sequenceInv hseq h⟩

/-- Every event keeps the invariant. -/
theorem radioMove_inv (ev : RadioEvent) (hs : Inv s) : Inv (radioMove ev s) := by
  obtain ⟨hbus, hmem, hseq⟩ := inv_iff.mp hs
  exact ⟨radioMove_busQuiet ev hbus, radioMove_memoriesWf ev hmem, radioMove_sequenceInv ev hseq⟩

/-- Abandoning an operation keeps the invariant (R252). -/
theorem dropOperation_inv (hs : Inv s) : Inv (dropOperation s) := by
  obtain ⟨hbus, hmem, hseq⟩ := inv_iff.mp hs
  exact ⟨hbus, hmem, hseq.ended rfl rfl⟩

end

end Sys2Proof.Machine
end

section
/-! SUPPORT. O42 and O43: the wait of `init` before any transaction, through the history (R311), and both invariants at
reset and across a step. -/

namespace Sys2Proof.Machine

section

variable {s t : State}

/-- No transaction may come next: the handle is not `Ready`, and no operation is past its first delay. -/
def BeforeWait (s : State) : Prop := s.lifecycle ≠ .ready ∧ (s.pos = .idle ∨ s.pos = .init1)

/-- The wait is over, or no transaction may come next. -/
theorem powerupWaited_iff :
    PowerupWaited s ↔
      transactionsAfterWait s.history = true ∧ (BeforeWait s ∨ powerupWaitIn s.history = true) := by
  have hneg : ¬ (s.lifecycle = .ready ∨ (s.pos ≠ .idle ∧ s.pos ≠ .init1)) ↔ BeforeWait s := by
    simp only [BeforeWait, not_or, not_and_or, not_not, ne_eq]
  rw [PowerupWaited, ← hneg, ← imp_iff_not_or]

/-- Until the wait, HOST's move is the wait, or another that no transaction may follow (R275, R301, R311). -/
theorem hostMove_beforeWait (hs : BeforeWait s) (h : hostMove s = .next t) :
    t.history = s.history ++ [.delay tPowerupMs] ∨ (t.history = s.history ∧ BeforeWait t) := by
  obtain ⟨hl, hp | hp⟩ := hs
  · cases hc : s.calls with
    | nil => cases (hostMove_wait hp hc).symm.trans h; exact .inr ⟨rfl, hl, .inl hp⟩
    | cons c cs =>
      rw [hostMove_call hp hc] at h
      rcases takeCall_lifecycle c _ t h with ⟨rfl, hu⟩ | ⟨rfl, hu⟩ | hr
      · cases (takeCall_init hu).symm.trans h; exact .inr ⟨rfl, hl, .inr rfl⟩
      · cases (takeCall_newHandle hu).symm.trans h; exact .inr ⟨rfl, nofun, .inl rfl⟩
      · exact absurd hr hl
  · have hline : hostMove s = init1 s := (hostMove_line (by simp [hp])).trans (by rw [runLine, hp])
    cases hline.symm.trans h
    exact .inl rfl

/-- Every move of HOST keeps the order of the wait and the transactions. -/
theorem hostMove_powerupWaited (hs : PowerupWaited s) (h : hostMove s = .next t) : PowerupWaited t := by
  rw [powerupWaited_iff] at hs ⊢
  obtain ⟨hafter, hbefore | hover⟩ := hs
  · rcases hostMove_beforeWait hbefore h with hh | ⟨hh, ht⟩
    · rw [hh]
      exact ⟨transactionsAfterWait_append_quiet _ _ hafter (by simp [isTransaction]), .inr (by simp [powerupWaitIn])⟩
    · rw [hh]
      exact ⟨hafter, .inl ht⟩
  · obtain ⟨-, ⟨added, hh⟩, -⟩ := (hostMove_hostEffect s t h).instruments_grow
    rw [hh]
    exact ⟨transactionsAfterWait_append _ _ hafter hover, .inr (powerupWaitIn_append _ _ hover)⟩

theorem radioMove_powerupWaited (ev : RadioEvent) (hs : PowerupWaited s) : PowerupWaited (radioMove ev s) := by
  obtain ⟨hafter, hover⟩ := hs
  rcases radioMove_cases ev s with ⟨-, he⟩ | he <;> rw [he]
  · have hlife : (applyEvent ev { s with history := s.history ++ [.radio ev] }).lifecycle = s.lifecycle := by
      cases ev <;> rfl
    have hpos : (applyEvent ev { s with history := s.history ++ [.radio ev] }).pos = s.pos := by cases ev <;> rfl
    rw [PowerupWaited, applyEvent_history, hlife, hpos]
    exact ⟨transactionsAfterWait_append_quiet _ _ hafter (by simp [isTransaction]),
      fun hn => powerupWaitIn_append _ _ (hover hn)⟩
  · exact ⟨hafter, hover⟩

/-- An abandoned operation makes no handle `Ready` (R252). -/
theorem dropOperation_powerupWaited (hs : PowerupWaited s) : PowerupWaited (dropOperation s) := by
  obtain ⟨hafter, hover⟩ := hs
  refine ⟨hafter, fun hn => hover (.inl ?_)⟩
  have hready : lifecycleAfterLoss s = .ready := hn.resolve_right fun hpos => hpos.1 rfl
  unfold lifecycleAfterLoss at hready
  split at hready
  · cases hready
  · exact hready

end

/-- A property that no turn and no plan matter to is kept by every step, if HOST, RADIO and the caller's task keep
it. -/
theorem step_preserves {P : State → Prop} (hturns : ∀ s ts, P s → P { s with turns := ts })
    (hplan : ∀ s p, P s → P { s with bus := { s.bus with plan := p } })
    (hhost : ∀ s t, P s → hostMove s = .next t → P t) (hradio : ∀ s ev, P s → P (radioMove ev s))
    (hdrop : ∀ s, P s → P (dropOperation s)) {s t : State} (hs : P s) (h : step s = .next t) : P t := by
  cases hts : s.turns with
  | nil => exact hhost s t hs ((step_unscheduled hts).symm.trans h)
  | cons turn ts =>
    have hs' := hturns s ts hs
    cases turn with
    | host p => exact hhost _ t (hplan _ p hs') ((step_host hts).symm.trans h)
    | radio ev => cases (step_radio hts).symm.trans h; exact hradio _ ev hs'
    | abandon =>
      by_cases hp : s.pos = .idle
      · cases (step_abandon_idle hts hp).symm.trans h; exact hs'
      · cases (step_abandon_running hts hp).symm.trans h; exact hdrop _ hs'

/-- Settles O42: every field at its value. -/
theorem resetMeetsTheInvariant : Obligations.ResetMeetsTheInvariant :=
  ⟨⟨⟨rfl, rfl, rfl⟩, ⟨memWf_nil, memWf_nil⟩, rfl, ⟨Nat.le_refl 0, nofun⟩, Nat.le_refl 0, Nat.zero_le _, nofun⟩,
    rfl, nofun⟩

/-- Settles O43, by whose turn it is, invariant by invariant. -/
theorem everyStepKeepsTheInvariant : Obligations.EveryStepKeepsTheInvariant := by
  refine fun s t h => ⟨fun hs => ?_, fun hs => ?_⟩
  · exact step_preserves (P := Inv) (fun _ _ hu => hu) (fun _ _ hu => hu) (fun _ _ hu => hostMove_inv hu)
      (fun _ ev hu => radioMove_inv ev hu) (fun _ hu => dropOperation_inv hu) hs h
  · exact step_preserves (P := PowerupWaited) (fun _ _ hu => hu) (fun _ _ hu => hu)
      (fun _ _ hu => hostMove_powerupWaited hu) (fun _ ev hu => radioMove_powerupWaited ev hu)
      (fun _ hu => dropOperation_powerupWaited hu) hs h

end Sys2Proof.Machine
end

section
/-! SUPPORT. O47: no line of a running operation is refused (R235, R276): the instruction it issues is one that every
device accepts, whatever TRANSPORT does. -/

namespace Sys2Proof.Machine

open Host (Outcome)

/-- The instruction leads to a next state, whatever the device holds and whatever TRANSPORT does. -/
def NeverRefused (cfg : Config) (i : Instr) : Prop := ∀ s : State, s.cfg = cfg → ∃ t, exec i s = .next t

section

variable {cfg : Config}

theorem rd_neverRefused (hwf : cfg.wf = true) {r : Reg} {n : Nat} (hr : readable r = true) (hn : n ≤ regLength r) :
    NeverRefused cfg (.rd r n) := by
  rintro s rfl
  obtain ⟨d, got, pool, ctr, h⟩ := execRd_any r n s hwf hr hn
  exact ⟨_, h⟩

theorem rdu32_neverRefused (hwf : cfg.wf = true) {r : Reg} (hr : readable r = true) :
    NeverRefused cfg (.rdu32 r) := by
  intro s hs
  obtain ⟨t, h⟩ := rd_neverRefused hwf hr (four_le_regLength r) s hs
  have hrd : execRd r 4 s = .next t := h
  exact ⟨assembleValue t, by rw [exec, execRdu32, hrd]⟩

theorem wr_neverRefused (hwf : cfg.wf = true) {r : Reg} {data : List Byte} (hr : writable r = true)
    (hn : data.length ≤ regLength r) : NeverRefused cfg (.wr r data) := by
  rintro s rfl
  obtain ⟨d, h⟩ := execWr_any r data s hwf hr hn
  exact ⟨_, h⟩

theorem wru32_neverRefused (hwf : cfg.wf = true) {r : Reg} (hr : writable r = true) (v : BitVec 32) :
    NeverRefused cfg (.wru32 r v) :=
  wr_neverRefused (data := le32 v) hwf hr (four_le_regLength r)

/-- A command the device acts on, delivered or not (R84, R150). -/
theorem fc_neverRefused (hwf : cfg.wf = true) {code : Nat} (h : HasRule cfg (BitVec.ofNat 5 code)) :
    NeverRefused cfg (.fc code) := by
  rintro s rfl
  obtain ⟨out, hc⟩ := h.command_next hwf s.dev
  obtain ⟨d, hissue⟩ := issue_any code s
  rw [hc] at hissue
  by_cases hnone : deliveredCount s.bus.plan 1 = 0
  · exact ⟨_, hissue.trans (if_pos hnone)⟩
  · exact ⟨_, hissue.trans (if_neg hnone)⟩

/-- The named commands of the driver. -/
theorem named_neverRefused (hwf : cfg.wf = true) :
    NeverRefused cfg .fcTx ∧ NeverRefused cfg .fcRx ∧ NeverRefused cfg .fcIdle ∧ NeverRefused cfg .fcClrirq := by
  have named {code : BitVec 5} (h : HasRule cfg code) : NeverRefused cfg (.fc code.toNat) :=
    fc_neverRefused hwf (by rwa [ofNat_code])
  refine ⟨?_, ?_, ?_, ?_⟩ <;> rintro s rfl
  · exact named (.inl rfl) s rfl
  · exact named (.inr (.inl rfl)) s rfl
  · exact named (.inr (.inr (.inl rfl))) s rfl
  · exact named (.inr (.inr (.inr rfl))) s rfl

end

section

variable {s : State}

/-- The instruction of a line is never refused: its register allows the access, and its data fits (R130, R131, R235). -/
theorem lineInstr_neverRefused {i : Instr} (hwf : s.cfg.wf = true) (hs : SequenceInv s)
    (hdata : s.pos = .send1 → s.regs.data.length ≤ 1024) (h : lineInstr s = some i) : NeverRefused s.cfg i := by
  obtain ⟨htx, hrx, hidle, hclrirq⟩ := named_neverRefused hwf
  unfold lineInstr at h
  cases hp : s.pos <;> simp only [hp, Option.some.injEq, reduceCtorEq] at h
  case init2 | recv3 | forceIdle1 => exact h ▸ hidle
  case init6 => exact h ▸ hclrirq
  case send3 => exact h ▸ htx
  case recv1 | recv2Enable => exact h ▸ hrx
  case init4 | recv2Info => exact h ▸ rdu32_neverRefused hwf rfl
  case send2 | send4Clear | recv2Clear | recv2ErrClear => exact h ▸ wru32_neverRefused hwf rfl _
  case send4 | recv2 =>
    split at h
    · exact Option.some.inj h ▸ rdu32_neverRefused hwf rfl
    · cases h
  case send1 => exact h ▸ wr_neverRefused hwf rfl (hdata hp)
  case recv2Data =>
    obtain ⟨-, -, hcount, hpayload, -⟩ := hs
    exact h ▸ rd_neverRefused hwf rfl (hcount.trans (hpayload.trans (by decide)))

/-- A line whose transaction is not refused is not refused. -/
theorem afterXact_next {o : Outcome State Fault Refusal} (k : State → State) (h : ∃ t, o = .next t) :
    ∃ t, afterXact o k = .next t := by
  obtain ⟨t, rfl⟩ := h
  by_cases hok : t.bus.ret = .ok
  · exact ⟨_, afterXact_ok k rfl hok⟩
  · exact ⟨_, afterXact_lost k hok⟩

/-- A line stops only where its instruction is refused. -/
theorem runLine_next (h : ∀ i, lineInstr s = some i → NeverRefused s.cfg i) : ∃ t, runLine s = .next t := by
  have issues (i : Instr) (u : State) (k : State → State) (hu : u.cfg = s.cfg) (hi : lineInstr s = some i) :
      ∃ t, afterXact (exec i u) k = .next t := afterXact_next k (h i hi u hu)
  unfold runLine
  unfold lineInstr at h issues
  cases hp : s.pos <;> simp only [hp] at h issues ⊢
  case idle | init1 | init3 | init7 | init8 | send5 => exact ⟨_, rfl⟩
  case init5 => unfold init5; split <;> exact ⟨_, rfl⟩
  case send2 => exact issues _ { s with regs := { s.regs with len := txLength s.regs.data.length } } _ rfl rfl
  case send4 =>
    unfold send4
    split
    · exact issues _ { s with regs := { s.regs with polls := s.regs.polls + 1 } } _ rfl (if_pos ‹_›)
    · exact ⟨_, rfl⟩
  case recv2 =>
    unfold recv2
    split
    · exact issues _ { s with regs := { s.regs with polls := s.regs.polls + 1 } } _ rfl (if_pos ‹_›)
    · exact ⟨_, rfl⟩
  case recv2Data =>
    obtain ⟨t, ht⟩ := h _ rfl s rfl
    have hread : execRd .rxBuffer s.regs.n s = .next t := ht
    unfold recv2Data
    rw [hread]
    exact afterXact_next _ ⟨_, rfl⟩
  all_goals exact issues _ s _ rfl rfl

/-- HOST's move while an operation runs. -/
theorem hostMove_next (hs : SequenceInv s) (hwf : s.cfg.wf = true) (hp : s.pos ≠ .idle)
    (hdata : s.pos = .send1 → s.regs.data.length ≤ 1024) : ∃ t, hostMove s = .next t := by
  rw [hostMove_line hp]
  exact runLine_next fun _ => lineInstr_neverRefused hwf hs hdata

end

/-- Settles O47: only HOST's move can be refused, and its line issues an instruction that is not, under any plan. -/
theorem runningOperationIsNeverRefused : Obligations.RunningOperationIsNeverRefused := by
  intro s hinv hwf hp hdata
  obtain ⟨-, -, hs⟩ := inv_iff.mp hinv
  cases hts : s.turns with
  | nil => exact step_unscheduled hts ▸ hostMove_next hs hwf hp hdata
  | cons turn ts =>
    cases turn with
    | host p =>
      exact step_host hts ▸ hostMove_next (s := { s with turns := ts, bus := { s.bus with plan := p } }) hs hwf hp hdata
    | radio ev => exact ⟨_, step_radio hts⟩
    | abandon => exact ⟨_, step_abandon_running hts hp⟩

end Sys2Proof.Machine
end

section
/-! SUPPORT. O12, O14 and O21: accesses that the access right forbids (R28, R111), transactions cut inside the header
(R113), and a read after a write (R91). -/

namespace Sys2Proof.Machine

theorem readable_eq_false_iff (r : Reg) : readable r = false ↔ r = .txBuffer := by cases r <;> decide

theorem writable_eq_false_iff (r : Reg) : writable r = false ↔ r = .devId ∨ r = .rxFinfo ∨ r = .rxBuffer := by
  cases r <;> decide

/-- Settles O12: at the second header byte, whatever the data phase; the wrappers are `RD` and `WR` of four bytes. -/
theorem accessRightRefused : Obligations.AccessRightRefused := by
  refine ⟨readable_eq_false_iff, writable_eq_false_iff, fun s r hwf hplan => ⟨fun hr => ?_, fun hr => ?_⟩⟩
  · have hrd (n : Nat) : execRd r n s = .refused .accessRight :=
      transact_accessRight r false [.read n] (loadHeader r false s) hwf hplan hr
    exact ⟨hrd, by rw [exec, execRdu32, hrd]⟩
  · have hwr (data : List Byte) : execWr r data s = .refused .accessRight :=
      transact_accessRight r true [.write data] (loadHeader r true s) hwf hplan hr
    exact ⟨hwr, fun v => hwr (le32 v)⟩

/-- No slot, or one byte with bit 6 set, leaves the decoder inside the header and the device as it was (R110). -/
theorem deliverSlots_insideHeader {xs : List Slot} {s : State} (hp : s.dec.phase = .hdr0)
    (hx : xs = [] ∨ ∃ b0 : Byte, b0.getLsbD 6 = true ∧ xs = [.write b0]) :
    ((deliverSlots xs s).1.dec.phase = .hdr0 ∨ (deliverSlots xs s).1.dec.phase = .hdr1) ∧
      (deliverSlots xs s).1.dev = s.dev := by
  rcases hx with rfl | ⟨b0, hb, rfl⟩
  · exact ⟨.inl hp, rfl⟩
  · have hf : hdrFull b0 = true := hb
    simp [deliverSlots, deliverSlot, deviceSlot, hp, slot0, hf]

/-- What every raw transaction leaves of the bus and the history (R24, R43). -/
theorem transact_quiet {ops : List SubOp} {s t : State} (h : transact ops s = .next t) :
    t.dec.phase = .idle ∧ t.bus.cs = .high ∧ SentBetween s t (sentBytes (delivered s.bus.plan (expand ops))) := by
  obtain ⟨dec, dev, bytes, hist, pool, ctr, hph, heff, rfl⟩ := transact_inv ops s t h
  exact ⟨hph, rfl, _, _, _, hist, _, rfl, .inl rfl, heff.emits_airTx⟩

/-- Settles O14: a transaction that ends inside its header is not refused, and what it leaves is what any leaves. -/
theorem cutHeaderHasNoEffect : Obligations.CutHeaderHasNoEffect := by
  intro s ops hx
  obtain ⟨hp, hd⟩ := deliverSlots_insideHeader (s := csLow ops s) rfl hx
  obtain ⟨t, ht, hdev⟩ := transact_next_of_headerPhase ops s _ _ rfl hp
  exact ⟨t, ht, hdev.trans hd, transact_quiet ht⟩

/-- Byte `k` of what a read after the write samples (R91, R131). -/
theorem regBytes_commitWrite_getElem? (cfg : Config) {r : Reg} {data : List Byte} (d : Device) (free : BitVec 32)
    {k : Nat} (hp : plainStorage r = true) (hn : data.length ≤ regLength r) (hk : k < regLength r) :
    (regBytes cfg (commitWrite cfg r data d) free r)[k]? = some (data.getD k (registerByte cfg d 0 r k)) := by
  obtain ⟨hr, -⟩ := plainStorage_access hp
  have hfree : registerByte cfg d free r k = registerByte cfg d 0 r k := by
    cases r with
    | sysStatus => cases hp
    | devId | eui64 | sysCfg | txFctrl | rxFinfo | txBuffer | rxBuffer => rfl
  have hold := regBytes_getElem? cfg d free r k hr hk
  rw [regBytes_commitWrite cfg r data d free hp hn, patch_getElem?]
  split
  · rename_i hlt
    rw [List.getD_eq_getElem _ _ hlt, List.getElem?_eq_getElem hlt]
  · rename_i hge
    rw [hold, hfree, List.getD_eq_default _ _ (Nat.le_of_not_lt hge)]

/-- Settles O21: the read samples the register as the write has left it. -/
theorem writeThenReadBack : Obligations.WriteThenReadBack := by
  intro s r data n hwf hplan hp hlen hn
  obtain ⟨hr, hw⟩ := plainStorage_access hp
  obtain ⟨d, hd⟩ := execWr_ok r data s hwf hplan hw hlen
  obtain ⟨t, ht, hcfg, hplan', hdev⟩ : ∃ t, exec (.wr r data) s = .next t ∧ t.cfg = s.cfg ∧ t.bus.plan = .ok ∧
      t.dev = commitWrite s.cfg r data s.dev := ⟨_, hd, rfl, rfl, rfl⟩
  obtain ⟨e, he⟩ := execRd_ok r n t (hcfg ▸ hwf) hplan' hr hn
  obtain ⟨u, hu, hbytes⟩ : ∃ u, exec (.rd r n) t = .next u ∧
      u.regs.rbytes = (regBytes t.cfg t.dev (drawWord t) r).take n := ⟨_, he, rfl⟩
  rw [hcfg, hdev] at hbytes
  obtain ⟨hcount, -⟩ := take_regBytes s.cfg (commitWrite s.cfg r data s.dev) (drawWord t) r n hr hn
  refine ⟨t, u, ht, hu, by rw [hbytes, hcount], fun k hk => ?_⟩
  rw [hbytes, List.getElem?_take_of_lt hk,
    regBytes_commitWrite_getElem? s.cfg s.dev _ hp hlen (hk.trans_le hn)]

end Sys2Proof.Machine
end

section
/-! SUPPORT. O39: what a RADIO step never does (R202 to R210). -/

namespace Sys2Proof.Machine

/-- An event changes no register or buffer that HOST writes (R210). -/
theorem applyEvent_host_registers (ev : RadioEvent) (s : State) :
    (applyEvent ev s).dev.txBuffer = s.dev.txBuffer ∧ (applyEvent ev s).dev.txFctrl = s.dev.txFctrl ∧
      (applyEvent ev s).dev.eui64 = s.dev.eui64 ∧ (applyEvent ev s).dev.sysCfg = s.dev.sysCfg ∧
      (applyEvent ev s).cfg = s.cfg ∧ (applyEvent ev s).bus = s.bus := by
  cases ev <;> exact ⟨rfl, rfl, rfl, rfl, rfl, rfl⟩

/-- An event leaves a flag that it does not raise (R175, the table of R25). -/
theorem getFlag_applyEvent_of_not_raised {ev : RadioEvent} {f : Flag} (s : State) (h : raises ev f = false) :
    getFlag (applyEvent ev s).dev.flags f = getFlag s.dev.flags f := by
  cases hs : getFlag s.dev.flags f with
  | true => exact getFlag_applyEvent_of_set ev s f hs
  | false =>
    cases ht : getFlag (applyEvent ev s).dev.flags f with
    | false => rfl
    | true => rw [raises_of_getFlag_applyEvent ev s f hs ht] at h; cases h

/-- Only the end of a transmission raises `TXFRS` (the table of R25). -/
theorem raises_txfrs_of_ne {ev : RadioEvent} (h : ev ≠ .txDone) : raises ev .txfrs = false := by
  cases ev with
  | txDone => exact absurd rfl h
  | rxGood | rxFcsError | rxPhyHeaderError | rxPreambleTimeout | rxSfdTimeout => rfl

/-- Settles O39: of an event that was taken by the mode that enables it, of any other since nothing happens. -/
theorem eventsNever : Obligations.EventsNever := by
  intro s t ev ts hts hstep
  obtain rfl : radioMove ev { s with turns := ts } = t :=
    Host.Outcome.next.inj ((step_radio hts).symm.trans hstep)
  rcases radioMove_cases ev { s with turns := ts } with ⟨hen, he⟩ | he
  · obtain ⟨u, happly, hen, hdev, hcfg, hbus⟩ : ∃ u, radioMove ev { s with turns := ts } = applyEvent ev u ∧
        enabled u.dev.trx ev = true ∧ u.dev = s.dev ∧ u.cfg = s.cfg ∧ u.bus = s.bus := ⟨_, he, hen, rfl, rfl, rfl⟩
    obtain ⟨htx, hfctrl, heui, hsys, hcfg', hbus'⟩ := applyEvent_host_registers ev u
    rw [enabled_iff] at hen
    rw [happly, ← hdev, ← hcfg, ← hbus]
    refine ⟨getFlag_applyEvent_of_set ev u, htx, hfctrl, heui, hsys, hcfg', hbus', fun hm => ?_, fun hm f hf => ?_,
      fun hm => ?_⟩
    · simp [hm] at hen
    · obtain rfl : ev = .txDone := by simpa [hm] using hen
      exact getFlag_applyEvent_of_not_raised u (beq_eq_false_iff_ne.mpr hf)
    · have hrx : ev ≠ .txDone := by simpa [hm] using hen
      exact getFlag_applyEvent_of_not_raised u (raises_txfrs_of_ne hrx)
  · rw [he]
    exact ⟨fun _ hf => hf, rfl, rfl, rfl, rfl, rfl, rfl, fun _ => rfl, fun _ _ _ => rfl, fun _ => rfl⟩

end Sys2Proof.Machine
end

section
/-! SUPPORT. O51: one poll of `send`, in vain or not (R233). -/

namespace Sys2Proof.Machine

section

variable {s t : State} {work : HostRegs} {dev : Device} {events : List HistEvent}

/-- A poll of `send` that sees `TXFRS` goes on to the clearing write (R233). -/
theorem LineAt.pollSeesTheFlag (h : LineAt s t .send4 work dev events) (hwf : s.cfg.wf = true)
    (hf : getFlag dev.flags .txfrs = true) (hlt : work.polls < work.bound) :
    ∃ v w, step t = .next v ∧ LineAt s v .send4Clear { work with polls := work.polls + 1, s := w } dev
      (events ++ [statusRead s.cfg w]) := by
  have hline := h.send4_eq.trans (if_pos (h.loopTest.mpr hlt))
  obtain ⟨v, free, hstep, hv⟩ := h.polled hwf (by decide) hline
  have hs : v.regs.s = statusWord v.cfg dev.flags free := by rw [hv.cfg, hv.status]
  rw [hs, testFlag_statusWord (hv.cfg ▸ hwf), hf] at hstep
  exact ⟨_, _, hstep, hv.goesTo .send4Clear⟩

/-- The clearing write of `send` is of exactly the bit of `TXFRS`; then it returns (R177, R233). -/
theorem LineAt.sendReturn (h : LineAt s t .send4Clear work dev events) (hwf : s.cfg.wf = true) :
    ∃ v, step t = .next (returnOk .ok v) ∧
      LineAt s v .send4Clear work (commitWrite s.cfg .sysStatus (le32 (flagMask s.cfg .txfrs)) dev) (events ++
        [.xact (encode s.cfg (.wru32 .sysStatus (flagMask s.cfg .txfrs)))
          (regHeader s.cfg .sysStatus true ++ le32 (flagMask s.cfg .txfrs)) [] .ok]) := by
  obtain ⟨v, hwrite, hret, hv⟩ := h.writeStatus hwf (flagMask s.cfg .txfrs)
  rw [← h.cfg] at hwrite
  have hline : runLine t = send4Clear t := by rw [runLine, h.pos]
  exact ⟨v, h.step_of_xact (by decide) hline hwrite hret, hv⟩

end

/-- The clearing write of one flag clears that flag and no other (R172, R176). -/
theorem getFlag_clearOne {cfg : Config} (hwf : cfg.wf = true) (d : Device) (f g : Flag) :
    getFlag (commitWrite cfg .sysStatus (le32 (flagMask cfg f)) d).flags g =
      (getFlag d.flags g && !decide (g = f)) := by
  have hpos : flagPosition cfg f = flagPosition cfg g ↔ g = f :=
    ⟨fun he => (flagPosition_inj cfg hwf f g he).symm, fun he => he ▸ rfl⟩
  rw [getFlag_commitWrite_le32, flagMask_getLsbD, decide_eq_true (flagPosition_lt cfg g), Bool.true_and,
    decide_eq_decide.mpr hpos]

/-- Settles O51: a poll that sees the flag and the clearing write, and a poll in vain. -/
theorem sendPollSeesTheFlag : Obligations.SendPollSeesTheFlag := by
  intro s hwf hp hlt ht hplan
  have hstart := LineAt.start hp ht hplan
  refine ⟨fun hf => ?_, fun hf => ?_⟩
  · obtain ⟨v, w, r₁, a₁⟩ := hstart.pollSeesTheFlag hwf hf hlt
    obtain ⟨t, r₂, a₂⟩ := a₁.sendReturn hwf
    refine ⟨v, _, le32 w, r₁, a₁.pos, a₁.polls, r₂, rfl, rfl, a₂.lifecycle, ?_, fun f => ?_, a₂.history⟩
    · rw [returnOk_dev, a₂.dev]
      rfl
    · rw [returnOk_dev, a₂.dev]
      exact getFlag_clearOne hwf s.dev .txfrs f
  · obtain ⟨t, w, r, a⟩ := hstart.pollInVain hwf hf hlt
    exact ⟨t, le32 w, r, a.pos, a.polls, a.dev, a.history⟩

end Sys2Proof.Machine
end

section
/-! SUPPORT. O7 and O44: the step on a call that is one instruction, and the state that reset leaves. -/

namespace Sys2Proof.Machine

section

variable {s : State} {cs : List Call}

/-- HOST's move on an instruction called by itself (log entries 23 and 28). -/
theorem hostMove_instr {i : Instr} (hp : s.pos = .idle) (hl : s.lifecycle = .ready) (hc : s.calls = .instr i :: cs) :
    hostMove s = exec i { s with calls := cs, result := none } := by
  rw [hostMove_call hp hc]
  simp only [takeCall, callReady, hl]

/-- HOST's move on a raw transaction that is carried whole and decodes is the decoded instruction (log entry 29). -/
theorem hostMove_wire {ops : List SubOp} {i : Instr} (hp : s.pos = .idle) (hl : s.lifecycle = .ready)
    (hc : s.calls = .wire ops :: cs) (hplan : s.bus.plan = .ok) (hd : decode s.cfg (expand ops) = .instr i) :
    hostMove s = exec i { s with calls := cs, result := none } := by
  rw [hostMove_call hp hc]
  simp only [takeCall, callReady, hl, runWire, hplan, hd]

end

/-- Settles O7, by what HOST has to do; the bits placed are a raw call and a turn with the plan `ok`. -/
theorem stepRunsTheDecodedInstruction : Obligations.StepRunsTheDecodedInstruction := by
  refine ⟨fun s ops i cs ts hp hl hc hd => ⟨fun hts => ?_, fun hts hplan => ?_⟩, fun s i cs p ts hp hl hc hts => ?_,
    fun s nbits w i hd => ?_⟩
  · rw [step_host hts]
    exact hostMove_wire hp hl hc rfl hd
  · rw [step_unscheduled hts]
    exact hostMove_wire hp hl hc hplan hd
  · rw [step_host hts]
    exact hostMove_instr hp hl hc
  · have hslots : expand [.write (wordBytes ((nbits + 7) / 8) w)] = (wordBytes ((nbits + 7) / 8) w).map .write :=
      List.append_nil _
    rw [step_host (s := s.withFetchWord nbits w) rfl]
    exact hostMove_wire rfl rfl rfl rfl (hslots ▸ hd)

/-- Settles O44: the fields as they stand, and a read of the constant. -/
theorem resetLeavesTheStatedValues : Obligations.ResetLeavesTheStatedValues := by
  have hwf : State.reset.cfg.wf = true := by decide
  obtain ⟨t, ht, hval⟩ := execRdu32_rval (r := .devId) hwf rfl rfl
  exact ⟨rfl, rfl, rfl, rfl, rfl, rfl, rfl, rfl, t, ht, hval.trans (unle32_le32 _)⟩

end Sys2Proof.Machine
end
